-- ==== Sys2Proof/Word.lean ====
section
/-! DEFINITION. The widths of the block (spec/00_scope.md R15, R16): bytes, 16-bit packet fields, and points of the
plane, whose coordinates are exact integers. -/

namespace Sys2Proof

/-- An integer 0 to 255 held in 8 bits; bit `k` is the bit of weight 2^k (R16). -/
abbrev Byte := BitVec 8

/-- A 16-bit field of a command packet (R63). -/
abbrev Half := BitVec 16

/-- A coordinate pair (x, y): x grows to the right, y grows downward, both unbounded integers (R15, R18). -/
abbrev Point := Int × Int

end Sys2Proof
end

