-- ==== Sys2Proof/Syntax.lean ====
section
/-! DEFINITION. The thirteen commands of spec/30_encoding.md R62, one constructor per row of spec/opcode_table.json, with
the operands of R63 in packet order. `c` is the colour operand (R64): true sets pixels, false clears them. -/

namespace Sys2Proof

/-- A command. A 16-bit field is held as its bits; the rule that reads it says whether it is signed (R64). -/
inductive Instr where
  /-- CLEAR (R90). -/
  | clear
  /-- SET_PIXEL c, x, y (R92). -/
  | setPixel (c : Bool) (x y : Half)
  /-- GET_BYTE p, q (R94). -/
  | getByte (p : Byte) (q : Half)
  /-- DRAW_LINE c, x0, y0, x1, y1 (R101). -/
  | drawLine (c : Bool) (x0 y0 x1 y1 : Half)
  /-- DRAW_RECT c, x, y, w, h (R111). -/
  | drawRect (c : Bool) (x y w h : Half)
  /-- FILL_RECT c, x, y, w, h (R112). -/
  | fillRect (c : Bool) (x y w h : Half)
  /-- DRAW_CIRCLE c, x0, y0, r (R121). -/
  | drawCircle (c : Bool) (x0 y0 r : Half)
  /-- FILL_CIRCLE c, x0, y0, r (R122). -/
  | fillCircle (c : Bool) (x0 y0 r : Half)
  /-- DRAW_CHAR c, x, y, font, code (R133). -/
  | drawChar (c : Bool) (x y : Half) (font code : Byte)
  /-- DRAW_STRING c, x, y, font, text (R135). The packet's `len` is the length of `text`. -/
  | drawString (c : Bool) (x y : Half) (font : Byte) (text : List Byte)
  /-- INIT (R151). -/
  | init
  /-- FLUSH (R155). -/
  | flush
  /-- GET_STATUS (R158). -/
  | getStatus
deriving DecidableEq, Repr

end Sys2Proof
end

