-- ==== Sys2Proof/WellFormed.lean ====
section
/-! DEFINITION. Which instructions a packet can carry. Every value a field can hold is legal (spec/30_encoding.md R64);
the one limit is that a string's length fits the 8-bit field `len` (R63). -/

namespace Sys2Proof

/-- The instruction can be written as a packet of R63: a string has at most 255 characters. -/
def Instr.wf : Instr → Bool
  | .clear => true
  | .setPixel _ _ _ => true
  | .getByte _ _ => true
  | .drawLine _ _ _ _ _ => true
  | .drawRect _ _ _ _ _ => true
  | .fillRect _ _ _ _ _ => true
  | .drawCircle _ _ _ _ => true
  | .fillCircle _ _ _ _ => true
  | .drawChar _ _ _ _ _ => true
  | .drawString _ _ _ _ text => decide (text.length ≤ 255)
  | .init => true
  | .flush => true
  | .getStatus => true

end Sys2Proof
end

