-- ==== Sys2Proof/Decode.lean ====
section
/-! DEFINITION. The decoder and the encoder of spec/30_encoding.md: the opcode map (R62), the seven packet formats (R63), operand
assembly (R64), packet length (R66), reserved bytes (R67) and packets cut short (R69). -/

namespace Sys2Proof

/-- The seven packet formats (R63). -/
inductive PacketFormat where
  | z | xy | pq | q4 | q3 | ch | str
deriving DecidableEq, Repr

/-- The thirteen rows of the opcode map (R62). -/
inductive Opcode where
  | clear | setPixel | getByte | drawLine | drawRect | fillRect | drawCircle | fillCircle | drawChar | drawString
  | init | flush | getStatus
deriving DecidableEq, Repr

/-- A row of spec/opcode_table.json: byte 0 of the packet, ANDed with `mask`, equals `pattern`. -/
structure OpcodeRow where
  opcode : Opcode
  format : PacketFormat
  pattern : Byte
  mask : Byte
deriving DecidableEq, Repr

/-- The opcode map (R62, spec/opcode_table.json). -/
def opcodeTable : List OpcodeRow :=
  [⟨.clear, .z, 0x10#8, 0xFF#8⟩,
   ⟨.setPixel, .xy, 0x12#8, 0xFE#8⟩,
   ⟨.getByte, .pq, 0x14#8, 0xFF#8⟩,
   ⟨.drawLine, .q4, 0x20#8, 0xFE#8⟩,
   ⟨.drawRect, .q4, 0x22#8, 0xFE#8⟩,
   ⟨.fillRect, .q4, 0x24#8, 0xFE#8⟩,
   ⟨.drawCircle, .q3, 0x26#8, 0xFE#8⟩,
   ⟨.fillCircle, .q3, 0x28#8, 0xFE#8⟩,
   ⟨.drawChar, .ch, 0x30#8, 0xFE#8⟩,
   ⟨.drawString, .str, 0x32#8, 0xFE#8⟩,
   ⟨.init, .z, 0x40#8, 0xFF#8⟩,
   ⟨.flush, .z, 0x42#8, 0xFF#8⟩,
   ⟨.getStatus, .z, 0x44#8, 0xFF#8⟩]

/-- The row that byte 0 selects; none for a reserved byte (R67). -/
def rowOf (b : Byte) : Option OpcodeRow :=
  opcodeTable.find? fun r => b &&& r.mask == r.pattern

/-- A 16-bit field from its two bytes, low byte first (R63, R64). -/
def halfOf (lo hi : Byte) : Half := hi ++ lo

/-- The low byte of a 16-bit field. -/
def loByte (h : Half) : Byte := h.extractLsb' 0 8

/-- The high byte of a 16-bit field. -/
def hiByte (h : Half) : Byte := h.extractLsb' 8 8

/-- What a decoder makes of the bytes that stand at the command port. -/
inductive Decoded where
  /-- A whole packet stands at the front; `rest` follows it. -/
  | command (i : Instr) (rest : List Byte)
  /-- The bytes are a packet cut short (or no byte at all): not a command yet (R69). -/
  | incomplete
  /-- Byte 0 is a reserved opcode byte, a packet of length 1 (R67); `rest` follows it. -/
  | reserved (b : Byte) (rest : List Byte)
deriving DecidableEq, Repr

/-- Reads the operands of a packet whose byte 0 selected `op` with colour bit `c` (R63, R64). -/
def decodeOperands (op : Opcode) (c : Bool) (bytes : List Byte) : Decoded :=
  match op with
  | .clear => .command .clear bytes
  | .setPixel =>
    match bytes with
    | x0 :: x1 :: y0 :: y1 :: rest => .command (.setPixel c (halfOf x0 x1) (halfOf y0 y1)) rest
    | _ => .incomplete
  | .getByte =>
    match bytes with
    | p :: q0 :: q1 :: rest => .command (.getByte p (halfOf q0 q1)) rest
    | _ => .incomplete
  | .drawLine =>
    match bytes with
    | a0 :: a1 :: b0 :: b1 :: d0 :: d1 :: e0 :: e1 :: rest =>
      .command (.drawLine c (halfOf a0 a1) (halfOf b0 b1) (halfOf d0 d1) (halfOf e0 e1)) rest
    | _ => .incomplete
  | .drawRect =>
    match bytes with
    | a0 :: a1 :: b0 :: b1 :: d0 :: d1 :: e0 :: e1 :: rest =>
      .command (.drawRect c (halfOf a0 a1) (halfOf b0 b1) (halfOf d0 d1) (halfOf e0 e1)) rest
    | _ => .incomplete
  | .fillRect =>
    match bytes with
    | a0 :: a1 :: b0 :: b1 :: d0 :: d1 :: e0 :: e1 :: rest =>
      .command (.fillRect c (halfOf a0 a1) (halfOf b0 b1) (halfOf d0 d1) (halfOf e0 e1)) rest
    | _ => .incomplete
  | .drawCircle =>
    match bytes with
    | a0 :: a1 :: b0 :: b1 :: r0 :: r1 :: rest =>
      .command (.drawCircle c (halfOf a0 a1) (halfOf b0 b1) (halfOf r0 r1)) rest
    | _ => .incomplete
  | .fillCircle =>
    match bytes with
    | a0 :: a1 :: b0 :: b1 :: r0 :: r1 :: rest =>
      .command (.fillCircle c (halfOf a0 a1) (halfOf b0 b1) (halfOf r0 r1)) rest
    | _ => .incomplete
  | .drawChar =>
    match bytes with
    | x0 :: x1 :: y0 :: y1 :: font :: code :: rest =>
      .command (.drawChar c (halfOf x0 x1) (halfOf y0 y1) font code) rest
    | _ => .incomplete
  | .drawString =>
    match bytes with
    | x0 :: x1 :: y0 :: y1 :: font :: len :: rest =>
      if len.toNat ≤ rest.length then
        .command (.drawString c (halfOf x0 x1) (halfOf y0 y1) font (rest.take len.toNat)) (rest.drop len.toNat)
      else .incomplete
    | _ => .incomplete
  | .init => .command .init bytes
  | .flush => .command .flush bytes
  | .getStatus => .command .getStatus bytes

/-- The decoder (R66): total on any bytes. The colour operand is bit 0 of byte 0 (R64). -/
def decode (bytes : List Byte) : Decoded :=
  match bytes with
  | [] => .incomplete
  | b :: operands =>
    match rowOf b with
    | none => .reserved b operands
    | some row => decodeOperands row.opcode (b.getLsbD 0) operands

/-- The length of a packet of a format, in bytes; for STR it is 7 plus the byte at offset 6 (R63, R66). -/
def PacketFormat.length (f : PacketFormat) (packet : List Byte) : Nat :=
  match f with
  | .z => 1
  | .xy => 5
  | .pq => 4
  | .q4 => 9
  | .q3 => 7
  | .ch => 7
  | .str => 7 + (packet.getD 6 0).toNat

/-- How many bytes the packet at the front of `packet` takes; a reserved byte takes 1 (R66, R67). -/
def packetLength (packet : List Byte) : Nat :=
  match rowOf (packet.getD 0 0) with
  | none => 1
  | some row => row.format.length packet

/-! ## The encoder -/

/-- The colour bit (R64). -/
def colourBit (c : Bool) : Byte := if c then 1 else 0

/-- The packet of a well-formed instruction, byte 0 first (R62, R63). -/
def encode (i : Instr) : List Byte :=
  match i with
  | .clear => [0x10#8]
  | .setPixel c x y => [0x12#8 ||| colourBit c, loByte x, hiByte x, loByte y, hiByte y]
  | .getByte p q => [0x14#8, p, loByte q, hiByte q]
  | .drawLine c x0 y0 x1 y1 =>
    [0x20#8 ||| colourBit c, loByte x0, hiByte x0, loByte y0, hiByte y0, loByte x1, hiByte x1, loByte y1, hiByte y1]
  | .drawRect c x y w h =>
    [0x22#8 ||| colourBit c, loByte x, hiByte x, loByte y, hiByte y, loByte w, hiByte w, loByte h, hiByte h]
  | .fillRect c x y w h =>
    [0x24#8 ||| colourBit c, loByte x, hiByte x, loByte y, hiByte y, loByte w, hiByte w, loByte h, hiByte h]
  | .drawCircle c x0 y0 r =>
    [0x26#8 ||| colourBit c, loByte x0, hiByte x0, loByte y0, hiByte y0, loByte r, hiByte r]
  | .fillCircle c x0 y0 r =>
    [0x28#8 ||| colourBit c, loByte x0, hiByte x0, loByte y0, hiByte y0, loByte r, hiByte r]
  | .drawChar c x y font code =>
    [0x30#8 ||| colourBit c, loByte x, hiByte x, loByte y, hiByte y, font, code]
  | .drawString c x y font text =>
    (0x32#8 ||| colourBit c) :: loByte x :: hiByte x :: loByte y :: hiByte y :: font ::
      BitVec.ofNat 8 text.length :: text
  | .init => [0x40#8]
  | .flush => [0x42#8]
  | .getStatus => [0x44#8]

/-! ## Instructions as numbers, as spec/opcode_table.json numbers their bits -/

/-- The longest packet: a DRAW_STRING of 255 characters. -/
def maxPacketBytes : Nat := 262

/-- The first `maxPacketBytes` bytes of the stream whose bits are `w` (bit 0 is bit 0 of the first byte), every bit from
`nbits` on being 0. -/
def wordBytes (nbits w : Nat) : List Byte :=
  (List.range maxPacketBytes).map fun k => BitVec.ofNat 8 (w % 2 ^ nbits / 2 ^ (8 * k))

/-- The one packet that the number `w` stands for. -/
def wordPacket (nbits w : Nat) : List Byte :=
  (wordBytes nbits w).take (packetLength (wordBytes nbits w))

/-- The instruction the decoder reads from an instruction whose bits are `w`. -/
def decodeTableWord (nbits w : Nat) : Option Instr :=
  match decode (wordPacket nbits w) with
  | .command i _ => some i
  | .incomplete => none
  | .reserved _ _ => none

end Sys2Proof
end

