-- ==== Sys2Proof/Machine/Operands.lean ====
section
/-! DEFINITION. Operand values (spec/30_encoding.md R64). No field is scaled or shifted; the colour operand is already a Boolean
in the instruction (bit 0 of the opcode byte). There is no other operand form: no register, no address, no immediate. -/

namespace Sys2Proof.Machine

/-- The value of a signed 16-bit field, −32768 to 32767: `sext_16` of spec/00_scope.md R16. -/
def signedOperand (h : Half) : Int := h.toInt

/-- The value of the unsigned 16-bit field `q`, 0 to 65535: `zext_16` of spec/00_scope.md R16. -/
def unsignedOperand (h : Half) : Nat := h.toNat

/-- The value of an unsigned 8-bit field: the byte itself (R64). -/
def byteOperand (b : Byte) : Nat := b.toNat

end Sys2Proof.Machine
end

