-- ==== Sys2Proof/Config.lean ====
section
/-! DEFINITION. The implementation parameters of spec/00_scope.md R6 as plain data, their default values (used by the spec's
test vectors), and the free values: what the spec leaves unspecified and no proof may know. -/

namespace Sys2Proof

/-- A font record (spec/10_state.md R27). -/
structure Font where
  /-- lowest supported code -/
  asciiBegin : Byte
  /-- highest supported code, inclusive -/
  asciiEnd : Byte
  /-- the code whose record is at offset 0 of the table -/
  asciiOffset : Byte
  /-- vertical bytes per glyph column -/
  bytesPerColumn : Nat
  /-- bytes per glyph record -/
  glyphStride : Nat
  /-- the glyph records, back to back -/
  table : List Byte
  /-- the font's height in pixels, read only by the inter-letter gap (spec/90_conflicts.md C1) -/
  fontHeight : Nat
  /-- the divisor of the inter-letter gap -/
  interLetterSpacingDivisor : Nat
deriving DecidableEq, Repr

/-- One step of the initialisation script: a command byte, or a command byte and its argument byte (R152). -/
inductive ScriptStep where
  | single (command : Byte)
  | pair (command argument : Byte)
deriving DecidableEq, Repr

/-- INIT_SCRIPT: the fourteen steps of R152, by name, in the script's order. -/
structure InitScript where
  displayOff : ScriptStep
  clockDivider : ScriptStep
  multiplexRatio : ScriptStep
  offset : ScriptStep
  startLine : ScriptStep
  chargePumpEnable : ScriptStep
  segmentRemap : ScriptStep
  comScanDirection : ScriptStep
  comPinsConfig : ScriptStep
  contrast : ScriptStep
  precharge : ScriptStep
  normalInverseSelect : ScriptStep
  entireDisplayOnOverrideOff : ScriptStep
  displayOn : ScriptStep
deriving DecidableEq, Repr

/-- The parameters a model takes as configuration (R6). `pages` P and `size` N are derived
(Sys2Proof/Machine/Geometry.lean). -/
structure Config where
  /-- W -/
  width : Nat
  /-- H -/
  height : Nat
  /-- FONT[0 .. N_FONTS − 1] -/
  fonts : List Font
  /-- INIT_SCRIPT -/
  script : InitScript
  /-- PAGE_SELECT(p) for p = 0 .. P − 1 -/
  pageSelect : List Byte
  /-- COL_LO_CMD -/
  colLoCmd : Byte
  /-- COL_HI_CMD -/
  colHiCmd : Byte
  /-- FMT_CAP -/
  fmtCap : Nat
deriving DecidableEq, Repr

/-- FREE VALUE (spec/10_state.md R31, U1): the byte of FB at an index after the `epoch`-th block reset, until it is written.
No body: any byte at all. Log 3, log 4. -/
opaque Config.powerOnByte (epoch index : Nat) : Byte

/-- OPEN (R6, D29): the first delay window of the display reset. No rule depends on it and nothing reads it. Log 16. -/
opaque Config.tRstHold : Nat

/-- OPEN (R6, D29): the second delay window of the display reset. No rule depends on it and nothing reads it. Log 16. -/
opaque Config.tRstRelease : Nat

/-- Font 0 of the spec's test vectors (spec/95_test_vectors.md section 3). -/
def Font.t5x7 : Font where
  asciiBegin := 0x30
  asciiEnd := 0x3A
  asciiOffset := 0x30
  bytesPerColumn := 1
  glyphStride := 6
  table :=
    [0x05, 0x3E, 0x51, 0x49, 0x45, 0x3E] ++ [0x05, 0x00, 0x42, 0x7F, 0x40, 0x00] ++
    [0x05, 0x42, 0x61, 0x51, 0x49, 0x46] ++ [0x05, 0x21, 0x41, 0x45, 0x4B, 0x31] ++
    [0x05, 0x18, 0x14, 0x12, 0x7F, 0x10] ++ [0x05, 0x27, 0x45, 0x45, 0x45, 0x39] ++
    [0x05, 0x3C, 0x4A, 0x49, 0x49, 0x30] ++ [0x05, 0x01, 0x71, 0x09, 0x05, 0x03] ++
    [0x05, 0x36, 0x49, 0x49, 0x49, 0x36] ++ [0x05, 0x06, 0x49, 0x49, 0x29, 0x1E] ++
    [0x02, 0x36, 0x36, 0x00, 0x00, 0x00]
  fontHeight := 7
  interLetterSpacingDivisor := 10

/-- Font 1 of the spec's test vectors (spec/95_test_vectors.md section 3). -/
def Font.t12 : Font where
  asciiBegin := 0x41
  asciiEnd := 0x42
  asciiOffset := 0x40
  bytesPerColumn := 2
  glyphStride := 7
  table :=
    [0x03, 0xFF, 0x0F, 0xFF, 0x0F, 0xFF, 0x0F] ++ [0x03, 0xFE, 0x0F, 0x11, 0x00, 0xFE, 0x0F] ++
    [0x02, 0xFF, 0x0F, 0x99, 0x09, 0x00, 0x00]
  fontHeight := 12
  interLetterSpacingDivisor := 10

/-- The default script (spec/45_display_controller.md R153) for a display of `height` rows. PRESUMED: the spec marks every
byte "from general knowledge, not in source". Log 2. For a height above 256 the multiplex argument H − 1 is no byte and the spec gives
none; the model takes it modulo 256. DESIGN CHOICE, log 21. -/
def InitScript.default (height : Nat) : InitScript where
  displayOff := .single 0xAE
  clockDivider := .pair 0xD5 0x80
  multiplexRatio := .pair 0xA8 (BitVec.ofNat 8 (height - 1))
  offset := .pair 0xD3 0x00
  startLine := .single 0x40
  chargePumpEnable := .pair 0x8D 0x14
  segmentRemap := .single 0xA1
  comScanDirection := .single 0xC8
  comPinsConfig := .pair 0xDA 0x12
  contrast := .pair 0x81 0xCF
  precharge := .pair 0xD9 0xF1
  normalInverseSelect := .single 0xA6
  entireDisplayOnOverrideOff := .single 0xA4
  displayOn := .single 0xAF

/-- The default parameters of R6 for a display of `width` × `height` pixels; the addressing bytes are R156's. Log 2. For a page
p ≥ 80 (a height of 648 or more) the default page select 0xB0 + p is no byte and the spec gives none; the model takes it modulo
256. DESIGN CHOICE, log 21. -/
def Config.ofSize (width height : Nat) : Config where
  width := width
  height := height
  fonts := [Font.t5x7, Font.t12]
  script := InitScript.default height
  pageSelect := (List.range (height / 8)).map fun p => BitVec.ofNat 8 (0xB0 + p)
  colLoCmd := 0x00
  colHiCmd := 0x10
  fmtCap := 50

/-- The default column of R6: the source's example size 128 × 64. Log 2. -/
def Config.standard : Config := Config.ofSize 128 64

end Sys2Proof
end

