-- ==== Sys2Proof/Machine/Geometry.lean ====
section
/-! DEFINITION. What follows from the configuration: the derived sizes P and N (spec/00_scope.md R6), the fonts' derived
quantities (spec/44_glyph_text.md R130, R134), and which configurations are accepted (R6, R131, U8, U15). -/

namespace Sys2Proof

/-- P, the number of pages (R6). -/
def Config.pages (cfg : Config) : Nat := cfg.height / 8

/-- N, the framebuffer's size in bytes (R6, spec/10_state.md R21). -/
def Config.size (cfg : Config) : Nat := cfg.width * cfg.height / 8

/-- PAGE_SELECT(p) (R6, spec/45_display_controller.md R156); a configuration lists one byte for each page. -/
def Config.pageSelectByte (cfg : Config) (p : Nat) : Byte := cfg.pageSelect.getD p 0

/-- FONT[f], none when f ≥ N_FONTS (R132). -/
def Config.font (cfg : Config) (f : Byte) : Option Font := cfg.fonts[f.toNat]?

/-- A code is supported when it lies in [asciiBegin, asciiEnd], both ends included (R130). -/
def Font.supports (F : Font) (code : Byte) : Bool := decide (F.asciiBegin ≤ code) && decide (code ≤ F.asciiEnd)

/-- FontRead: the byte of the glyph table at an offset (spec/00_scope.md R17). -/
def Font.byteAt (F : Font) (offset : Nat) : Byte := F.table.getD offset 0

/-- GlyphBase(F, c) (R130, spec/20_memory.md R44). -/
def Font.glyphBase (F : Font) (code : Byte) : Nat := (code.toNat - F.asciiOffset.toNat) * F.glyphStride

/-- GlyphWidth(F, c): the record's first byte (R130, spec/20_memory.md R44). -/
def Font.glyphWidth (F : Font) (code : Byte) : Nat := (F.byteAt (F.glyphBase code)).toNat

/-- The byte of the glyph for column `j` and vertical byte `b` (spec/20_memory.md R44). -/
def Font.glyphByte (F : Font) (code : Byte) (j b : Nat) : Byte :=
  F.byteAt (F.glyphBase code + 1 + j * F.bytesPerColumn + b)

/-- Gap(F), the inter-letter gap, truncating (R134). -/
def Font.gap (F : Font) : Nat := F.fontHeight / F.interLetterSpacingDivisor

/-- A font is well formed: conditions (a) to (d) of R131, in that order. -/
def Font.wf (F : Font) : Bool :=
  (decide (F.asciiOffset ≤ F.asciiBegin) && decide (F.asciiBegin ≤ F.asciiEnd)) &&
  (decide (1 ≤ F.bytesPerColumn) && decide (1 ≤ F.glyphStride) && decide (1 ≤ F.interLetterSpacingDivisor)) &&
  decide ((F.asciiEnd.toNat - F.asciiOffset.toNat + 1) * F.glyphStride ≤ F.table.length) &&
  (List.range 256).all fun n =>
    let code := BitVec.ofNat 8 n
    !F.supports code || decide (1 + F.glyphWidth code * F.bytesPerColumn ≤ F.glyphStride)

/-- The configurations the model accepts: the constraints of R6, and every font well formed (R131). The block is specified for
no other (spec/93_implementation_defined.md U8, U15: refuse the configuration). -/
def Config.wf (cfg : Config) : Bool :=
  (decide (1 ≤ cfg.width) && decide (cfg.width ≤ 32767)) &&
  (decide (cfg.height % 8 = 0) && decide (8 ≤ cfg.height) && decide (cfg.height ≤ 2048)) &&
  (decide (cfg.fonts.length ≤ 256) && cfg.fonts.all Font.wf) &&
  decide (cfg.pageSelect.length = cfg.pages) &&
  decide (cfg.fmtCap ≤ 255)

/-- The bytes of a script step, in the order they are sent (R152). -/
def ScriptStep.bytes : ScriptStep → List Byte
  | .single command => [command]
  | .pair command argument => [command, argument]

/-- Steps 1 to 13 of the script, in order (R151, R152). -/
def InitScript.configuration (s : InitScript) : List ScriptStep :=
  [s.displayOff, s.clockDivider, s.multiplexRatio, s.offset, s.startLine, s.chargePumpEnable, s.segmentRemap,
   s.comScanDirection, s.comPinsConfig, s.contrast, s.precharge, s.normalInverseSelect,
   s.entireDisplayOnOverrideOff]

/-- The bytes of steps 1 to 13. -/
def InitScript.configurationBytes (s : InitScript) : List Byte := s.configuration.flatMap ScriptStep.bytes

/-- The bytes of step 14, display on. -/
def InitScript.displayOnBytes (s : InitScript) : List Byte := s.displayOn.bytes

end Sys2Proof
end

