-- ==== Sys2Proof/Machine/State.lean ====
section
/-! DEFINITION. The state of the block as plain data: the tuple (FB, DCS, TX, RSP, CUR) of spec/10_state.md R20, the packet
being received (spec/30_encoding.md R69), the constant configuration, and what the two other agents, host and transport,
offer the core (spec/00_scope.md R8). -/

namespace Sys2Proof.Machine

/-- The framebuffer FB (spec/10_state.md R21), held as the cells that differ from what an unlisted byte reads as. -/
structure Framebuffer where
  /-- MODEL'S OWN (log 4): which block reset gave the store its unspecified content. -/
  epoch : Nat
  /-- MODEL'S OWN (log 3): CLEAR has run since that reset, so that an unlisted byte reads 0. -/
  cleared : Bool
  /-- (index, byte), indices strictly rising, no byte equal to what its index reads as when unlisted. -/
  cells : List Host.Cell
deriving DecidableEq, Repr

/-- DCS, the display-controller state (spec/10_state.md R22), in its linear order. -/
inductive Dcs where
  /-- INIT has never started. -/
  | uninitialized
  /-- INIT has brought up the transport. -/
  | transportReady
  /-- The transport's `reset()` has completed. -/
  | reset
  /-- Steps 1 to 13 of the script have been sent. -/
  | configurationScripted
  /-- Step 14, display on, has been sent. -/
  | on
deriving DecidableEq, Repr

/-- A transport call, an element of the trace TX (spec/10_state.md R26). -/
inductive TxCall where
  /-- `sendCommand(b)`: the selector is low (spec/46_transport.md R171). -/
  | cmd (b : Byte)
  /-- `sendData(b)`: the selector is high (R172). -/
  | data (b : Byte)
  /-- `reset()`: the whole timed reset sequence of the display (R173). -/
  | reset
deriving DecidableEq, Repr

/-- The locals of one call of Line (spec/41_line.md R100): where it stands, the end point, and the rest of its step 2. `e2` is computed
anew in each pass and is not kept. -/
structure LineLocals where
  x0 : Int
  y0 : Int
  x1 : Int
  y1 : Int
  dx : Int
  dy : Int
  sx : Int
  sy : Int
  /-- The error term. -/
  err : Int
deriving DecidableEq, Repr

/-- The locals of CircleIter (spec/43_circle.md R120): the pair, and the decision variable. -/
structure CircleLocals where
  x : Int
  y : Int
  d : Int
deriving DecidableEq, Repr

/-- The loop counters of DrawChar (spec/44_glyph_text.md R132): column, vertical byte, bit. -/
structure GlyphLocals where
  j : Nat
  b : Nat
  k : Nat
deriving DecidableEq, Repr

/-- The record of a command in progress that makes no transport call (spec/10_state.md R29): the constructor is its opcode, then come
its operands (R23), then the locals of its pseudocode (R24). -/
inductive Work where
  /-- CLEAR; `i` is the index of the next byte (spec/40_framebuffer_ops.md R90). -/
  | clear (i : Nat)
  /-- SET_PIXEL: no locals (R92). -/
  | setPixel (c : Bool) (x y : Half)
  /-- GET_BYTE: no locals (R94). -/
  | getByte (p : Byte) (q : Half)
  /-- DRAW_LINE; the locals of its Line (spec/41_line.md R101). -/
  | drawLine (c : Bool) (x0 y0 x1 y1 : Half) (line : LineLocals)
  /-- DRAW_RECT; w' and h', which of the four Lines runs (0 the top one), and its locals (spec/42_rectangle.md R111). -/
  | drawRect (c : Bool) (x y w h : Half) (w' h' : Int) (edge : Nat) (line : LineLocals)
  /-- FILL_RECT; w' and h', the row counter, and the locals of its Line (R112). -/
  | fillRect (c : Bool) (x y w h : Half) (w' h' : Int) (i : Nat) (line : LineLocals)
  /-- DRAW_CIRCLE; the locals of CircleIter, and which of the eight SetPixel calls comes next (spec/43_circle.md R121). -/
  | drawCircle (c : Bool) (x0 y0 r : Half) (iter : CircleLocals) (k : Nat)
  /-- FILL_CIRCLE; the locals of CircleIter, which of the four Lines runs, and its locals (R122). -/
  | fillCircle (c : Bool) (x0 y0 r : Half) (iter : CircleLocals) (chord : Nat) (line : LineLocals)
  /-- DRAW_CHAR; the loop counters of its DrawChar (spec/44_glyph_text.md R133). -/
  | drawChar (c : Bool) (x y : Half) (font code : Byte) (glyph : GlyphLocals)
  /-- DRAW_STRING; the index of the next character, the text cursor, and the loop counters of the DrawChar that draws that
  character, none before its stop test (R135). -/
  | drawString (c : Bool) (x y : Half) (font : Byte) (text : List Byte) (i : Nat) (cx : Int) (glyph : Option GlyphLocals)
  /-- GET_STATUS: no operands, no locals (spec/45_display_controller.md R158). -/
  | getStatus
deriving DecidableEq, Repr

/-- CUR, the command in progress (spec/10_state.md R29). INIT and FLUSH have no operands; `next` is their loop position (R24): the
index, in the command's sequence of actions, of the transport call the core is offering. -/
inductive Cur where
  | idle
  | init (next : Nat)
  | flush (next : Nat)
  /-- Any other command. -/
  | working (work : Work)
deriving DecidableEq, Repr

/-- MODEL'S OWN (log 7): the transport agent (spec/46_transport.md R176). -/
inductive Transport where
  /-- It accepts every call offered to it: the fairness assumption of R176. -/
  | fair
  /-- It accepts `n` more calls and is then never ready, unless the outside changes it (R186). -/
  | accepts (n : Nat)
deriving DecidableEq, Repr

/-- The whole state. -/
structure State where
  /-- The configuration (spec/00_scope.md R6): no step changes it (log 1). -/
  cfg : Config
  /-- FB. -/
  fb : Framebuffer
  /-- DCS. -/
  dcs : Dcs
  /-- TX, oldest call first. -/
  tx : List TxCall
  /-- RSP, front first. -/
  rsp : List Byte
  /-- CUR. -/
  cur : Cur
  /-- The bytes of the packet being received, taken from the command port (spec/30_encoding.md R69). -/
  pkt : List Byte
  /-- MODEL'S OWN (log 5): the bytes the host has put on the command port and the core has not taken, oldest first. -/
  cmdIn : List Byte
  /-- MODEL'S OWN (log 7): the transport agent. -/
  transport : Transport
deriving DecidableEq, Repr

/-- Why the machine stops with a fault. NO CONSTRUCTOR: the block raises none (spec/00_scope.md R12, spec/60_exceptions.md
R180), no address computation leaves its space (spec/20_memory.md R58), and the hang of R186 is a stuck core, "not a fault". Nobody
raises one; safe. -/
inductive Fault where
deriving DecidableEq, Repr

/-- Why the model refuses a step. -/
inductive Refusal where
  /-- Raised by `exec`'s arm of a command that has no meaning yet; none is left. Safe. -/
  | notModelled (mnemonic : String)
  /-- Raised by `step` when the configuration is outside the constraints of R6 or holds a font that is not well formed (R131):
  the spec refuses such a configuration (U8, U15). Safe: nothing is claimed of it. -/
  | illFormedConfiguration
deriving DecidableEq, Repr

/-- The framebuffer after the `epoch`-th block reset: nothing listed (spec/10_state.md R31). -/
def Framebuffer.afterReset (epoch : Nat) : Framebuffer where
  epoch := epoch
  cleared := false
  cells := []

/-- The state after the block reset (spec/10_state.md R31, spec/70_reset_and_hazards.md R200) of a block of any configuration, FB holding
the unspecified content of the `epoch`-th reset. -/
def State.afterReset (cfg : Config) (epoch : Nat) : State where
  cfg := cfg
  fb := Framebuffer.afterReset epoch
  dcs := .uninitialized
  tx := []
  rsp := []
  cur := .idle
  pkt := []
  cmdIn := []
  transport := .fair

/-- The state after reset, for the default configuration of R6 (log 2). -/
def State.reset : State := State.afterReset Config.standard 0

end Sys2Proof.Machine
end

