-- ==== Sys2Proof/Machine/Ops.lean ====
section
/-! DEFINITION. The named operations over the state: the primitives of spec/00_scope.md R17 that every command is built from, and what
the controller's sequences do at the transport (spec/46_transport.md R170 to R176).

TAKING AN EXCEPTION and returning from one are not here because the block has neither (spec/60_exceptions.md R180, R184, R185: no
state is saved, no mode changes, no vector is fetched); every condition of R181 is handled by the meaning it belongs to. -/

namespace Sys2Proof.Machine

/-! ## The framebuffer store -/

/-- What an unlisted byte of FB reads as: 0 after a CLEAR, and before the first one the unspecified content of the block
reset, a free value (spec/10_state.md R31; log 3). -/
def Framebuffer.unlisted (m : Framebuffer) (i : Nat) : Byte :=
  if m.cleared then 0 else Config.powerOnByte m.epoch i

/-- The byte listed at an index. -/
def findCell (i : Nat) : List Host.Cell → Option Byte
  | [] => none
  | (j, v) :: rest => if j = i then some v else findCell i rest

/-- Lists `v?` at an index of a list of strictly rising indices, or removes what is listed there. -/
def putCell (i : Nat) (v? : Option Byte) : List Host.Cell → List Host.Cell
  | [] => v?.toList.map fun v => (i, v)
  | (j, w) :: rest =>
    if j < i then (j, w) :: putCell i v? rest
    else if j = i then v?.toList.map (fun v => (i, v)) ++ rest
    else v?.toList.map (fun v => (i, v)) ++ (j, w) :: rest

/-- MemRead(i, 1) (R17): the byte FB[i]. -/
def Framebuffer.read (m : Framebuffer) (i : Nat) : Byte :=
  (findCell i m.cells).getD (m.unlisted i)

/-- MemWrite(i, 1, v) (R17): FB[i] <- v. Writing what the index reads as when unlisted removes its cell. -/
def Framebuffer.write (m : Framebuffer) (i : Nat) (v : Byte) : Framebuffer :=
  { m with cells := putCell i (if v = m.unlisted i then none else some v) m.cells }

/-- The canonical form of the store: indices strictly rising, no byte equal to what its index reads as when unlisted. -/
def Framebuffer.wf (m : Framebuffer) : Bool :=
  decide (m.cells.Pairwise fun p q => p.1 < q.1) && m.cells.all fun p => decide (p.2 ≠ m.unlisted p.1)

/-- Every listed index is one of FB's (spec/20_memory.md R50: 0 to N − 1). -/
def Framebuffer.within (m : Framebuffer) (size : Nat) : Bool := m.cells.all fun p => decide (p.1 < size)

/-- Every byte of FB written 0x00 (spec/40_framebuffer_ops.md R90). -/
def Framebuffer.clear (m : Framebuffer) : Framebuffer := { m with cleared := true, cells := [] }

/-! ## Pixels -/

/-- In bounds: 0 ≤ x < W and 0 ≤ y < H (spec/00_scope.md R18). -/
def inBounds (cfg : Config) (p : Point) : Bool :=
  decide (0 ≤ p.1) && decide (p.1 < cfg.width) && decide (0 ≤ p.2) && decide (p.2 < cfg.height)

/-- The index of the byte that holds a pixel in bounds: (y div 8) × W + x (spec/20_memory.md R40). -/
def pixelIndex (cfg : Config) (p : Point) : Nat := p.2.toNat / 8 * cfg.width + p.1.toNat

/-- The bit of that byte: y mod 8 (R40). -/
def pixelBit (p : Point) : Nat := p.2.toNat % 8

/-- The byte whose only set bit is bit `k`: 2^k (R41). -/
def bitMask (k : Nat) : Byte := 1#8 <<< k

/-- SetPixel(color, x, y) (spec/40_framebuffer_ops.md R91): out of bounds it does nothing. -/
def Framebuffer.setPixel (cfg : Config) (c : Bool) (m : Framebuffer) (p : Point) : Framebuffer :=
  if inBounds cfg p then
    let i := pixelIndex cfg p
    let v := m.read i
    if c then m.write i (v ||| bitMask (pixelBit p)) else m.write i (v &&& ~~~ bitMask (pixelBit p))
  else m

/-- SetPixel called on each point of a list, in order. -/
def Framebuffer.plot (cfg : Config) (c : Bool) (m : Framebuffer) (points : List Point) : Framebuffer :=
  points.foldl (Framebuffer.setPixel cfg c) m

/-- GetByte(p, q) = MemRead(p × W + q, 1) (spec/40_framebuffer_ops.md R93). -/
def Framebuffer.getByte (cfg : Config) (m : Framebuffer) (p q : Nat) : Byte := m.read (p * cfg.width + q)

/-- Rasterizers and the glyph blitter change FB and nothing else (spec/00_scope.md R3): SetPixel on each point, in order. -/
def State.plot (s : State) (c : Bool) (points : List Point) : State :=
  { s with fb := s.fb.plot s.cfg c points }

/-- Rsp(b) (R17): appends a byte to the response queue (spec/10_state.md R28). -/
def State.respond (s : State) (b : Byte) : State := { s with rsp := s.rsp ++ [b] }

/-! ## The command in progress -/

/-- CUR after a pass: the record goes on, or the command is complete. -/
def Cur.ofWork : Option Work → Cur
  | none => .idle
  | some w => .working w

/-- A command begins: CUR takes its record, opcode, operands and first locals (spec/10_state.md R23, R29); with nothing to do it is
complete at once. -/
def State.begin (s : State) : Option Work → State
  | none => s
  | some w => { s with cur := .working w }

/-- One pass of a drawing command: the point it calls SetPixel on, if any, and its record after the pass, none when the command is
complete. -/
structure Pass where
  point : Option Point
  next : Option Work
deriving DecidableEq, Repr

/-- Carries out one pass of a drawing command. -/
def State.pass (s : State) (c : Bool) (pass : Pass) : State :=
  { s.plot c pass.point.toList with cur := Cur.ofWork pass.next }

/-! ## Transport calls -/

/-- The transport agent after it accepts one call; none when it is not ready (spec/46_transport.md R176). It stands for the events of
`tx_ready` and `tx_rst_done` (R177; DESIGN CHOICE, log 23). -/
def Transport.accept : Transport → Option Transport
  | .fair => some .fair
  | .accepts 0 => none
  | .accepts (n + 1) => some (.accepts n)

/-- One action of the display controller's sequences: an assignment to DCS, or a transport call (spec/45_display_controller.md R151,
R155). -/
inductive ControllerAction where
  | enter (d : Dcs)
  | send (c : TxCall)
deriving DecidableEq, Repr

/-- The transport call of an action. -/
def ControllerAction.call? : ControllerAction → Option TxCall
  | .enter _ => none
  | .send c => some c

/-- Carries out the assignments of a sequence whose first action stands at position `k`, up to its next call: DCS as last assigned, and the
position of that call; none when the sequence holds no further call. -/
def nextCall (k : Nat) (d : Dcs) : List ControllerAction → Dcs × Option Nat
  | [] => (d, none)
  | .enter d' :: rest => nextCall (k + 1) d' rest
  | .send _ :: _ => (d, some k)

/-- The core goes on with a sequence from position `k` to the next call and offers it, `busy j` being CUR while it offers the call at
position `j`; with no further call the command is complete and CUR idle. -/
def State.offerFrom (s : State) (sequence : List ControllerAction) (busy : Nat → Cur) (k : Nat) : State :=
  let r := nextCall k s.dcs (sequence.drop k)
  { s with dcs := r.1, cur := r.2.elim .idle busy }

/-- The step of a core that offers the call at position `k` (spec/46_transport.md R176: "a transport call is a step of the core that is
enabled only when the transport agent accepts"): the call is complete when the transport has accepted it (spec/20_memory.md R53), TX
grows by it, and the core goes on to the next one; until then the core waits (spec/60_exceptions.md R186, log 8). -/
def State.stepController (s : State) (sequence : List ControllerAction) (busy : Nat → Cur) (k : Nat) : State :=
  match sequence[k]?.bind ControllerAction.call? with
  | none => s.offerFrom sequence busy k
  | some c =>
    match s.transport.accept with
    | none => s
    | some t => { s with tx := s.tx ++ [c], transport := t }.offerFrom sequence busy (k + 1)

end Sys2Proof.Machine
end

