-- ==== Sys2Proof/Machine/Line.lean ====
section
/-! DEFINITION. The line rasterizer: the primitive Line and DRAW_LINE (spec/41_line.md). -/

namespace Sys2Proof.Machine

/-- Step 1 of R100: are the endpoints swapped? -/
def endpointsSwapped (x0 y0 x1 y1 : Int) : Bool := decide (x0 > x1) || (decide (x0 = x1) && decide (y0 > y1))

/-- Step 2 of R100 up to the loop, on endpoints in canonical order. -/
def lineFrom (x0 y0 x1 y1 : Int) : LineLocals where
  x0 := x0
  y0 := y0
  x1 := x1
  y1 := y1
  dx := (x1 - x0).natAbs
  dy := (y1 - y0).natAbs
  sx := if x0 < x1 then 1 else -1
  sy := if y0 < y1 then 1 else -1
  err := (x1 - x0).natAbs - (y1 - y0).natAbs

/-- The locals of Line(color, x0, y0, x1, y1) as its loop is entered (R100). -/
def lineStart (x0 y0 x1 y1 : Int) : LineLocals :=
  if endpointsSwapped x0 y0 x1 y1 then lineFrom x1 y1 x0 y0 else lineFrom x0 y0 x1 y1

/-- The point a pass calls SetPixel on. -/
def LineLocals.point (l : LineLocals) : Point := (l.x0, l.y0)

/-- The locals after a pass of the loop of R100; none when the pass leaves the loop. Both tests use the one `e2` of the pass. -/
def LineLocals.next (l : LineLocals) : Option LineLocals :=
  if l.x0 = l.x1 ∧ l.y0 = l.y1 then none
  else
    let e2 := 2 * l.err
    let err' := if e2 > -l.dy then l.err - l.dy else l.err
    let x' := if e2 > -l.dy then l.x0 + l.sx else l.x0
    let err'' := if e2 < l.dx then err' + l.dx else err'
    let y' := if e2 < l.dx then l.y0 + l.sy else l.y0
    some { l with x0 := x', y0 := y', err := err'' }

/-- The points of the passes still to come, in order. `fuel` bounds the passes. -/
def LineLocals.points : (fuel : Nat) → LineLocals → List Point
  | 0, _ => []
  | fuel + 1, l =>
    l.point ::
      match l.next with
      | none => []
      | some l' => LineLocals.points fuel l'

/-- All the points on which Line(color, x0, y0, x1, y1) calls SetPixel, in order; as many as R102 counts. -/
def linePoints (x0 y0 x1 y1 : Int) : List Point :=
  (lineStart x0 y0 x1 y1).points (max (x1 - x0).natAbs (y1 - y0).natAbs + 1)

/-- A pass inside a Line: the command's record is `inside` the line while the line lasts, and `after` it then. -/
def linePass (inside : LineLocals → Work) (after : Option Work) (l : LineLocals) : Pass where
  point := some l.point
  next :=
    match l.next with
    | none => after
    | some l' => some (inside l')

/-- DRAW_LINE c, x0, y0, x1, y1 (R101) begins. -/
def execDrawLine (c : Bool) (x0 y0 x1 y1 : Half) (s : State) : Host.Outcome State Fault Refusal :=
  .next (s.begin (some (.drawLine c x0 y0 x1 y1
    (lineStart (signedOperand x0) (signedOperand y0) (signedOperand x1) (signedOperand y1)))))

/-- One pass of DRAW_LINE. -/
def drawLinePass (c : Bool) (x0 y0 x1 y1 : Half) : LineLocals → Pass := linePass (.drawLine c x0 y0 x1 y1) none

end Sys2Proof.Machine
end

