-- ==== Sys2Proof/Machine/Circle.lean ====
section
/-! DEFINITION. The circle rasterizers DRAW_CIRCLE and FILL_CIRCLE (spec/43_circle.md). -/

namespace Sys2Proof.Machine

/-- The test of the loop of R120: the locals, if x ≤ y. -/
def CircleLocals.tested (l : CircleLocals) : Option CircleLocals := if l.x ≤ l.y then some l else none

/-- The locals of CircleIter(r) at its first pair (R120); none for r < 0. -/
def circleStart (r : Int) : Option CircleLocals := CircleLocals.tested { x := 0, y := r, d := 1 - r }

/-- The locals at the next pair (R120), none when the loop ends. The else branch uses x and y as they are before the step. -/
def CircleLocals.next (l : CircleLocals) : Option CircleLocals :=
  CircleLocals.tested
    (if l.d < 0 then { x := l.x + 1, y := l.y, d := l.d + 2 * l.x + 3 }
    else { x := l.x + 1, y := l.y - 1, d := l.d + 2 * (l.x - l.y) + 5 })

/-- The pair (x, y) that is emitted. -/
def CircleLocals.pair (l : CircleLocals) : Point := (l.x, l.y)

/-- The pairs emitted from there on, in order. `fuel` bounds the passes. -/
def circlePairs : (fuel : Nat) → Option CircleLocals → List Point
  | 0, _ => []
  | _, none => []
  | fuel + 1, some l => l.pair :: circlePairs fuel l.next

/-- CircleIter(r) (R120); at most r + 1 pairs, none for r < 0. -/
def circleIter (r : Int) : List Point := circlePairs (r + 1).toNat (circleStart r)

/-! ## DRAW_CIRCLE -/

/-- The eight symmetric points of one octant point, in the order of R121. -/
def octantPoints (x0 y0 : Int) (p : Point) : List Point :=
  [(x0 + p.1, y0 + p.2), (x0 - p.1, y0 + p.2), (x0 + p.1, y0 - p.2), (x0 - p.1, y0 - p.2),
   (x0 + p.2, y0 + p.1), (x0 - p.2, y0 + p.1), (x0 + p.2, y0 - p.1), (x0 - p.2, y0 - p.1)]

/-- DRAW_CIRCLE c, x0, y0, r (R121) begins: nothing for r < 0, else the first call at the first pair. -/
def execDrawCircle (c : Bool) (x0 y0 r : Half) (s : State) : Host.Outcome State Fault Refusal :=
  .next (s.begin ((circleStart (signedOperand r)).map fun l => .drawCircle c x0 y0 r l 0))

/-- One pass of DRAW_CIRCLE: call number `k` of the eight of a pair. -/
def drawCirclePass (c : Bool) (x0 y0 r : Half) (l : CircleLocals) (k : Nat) : Pass where
  point := (octantPoints (signedOperand x0) (signedOperand y0) l.pair)[k]?
  next :=
    if k + 1 < 8 then some (.drawCircle c x0 y0 r l (k + 1))
    else l.next.map fun l' => .drawCircle c x0 y0 r l' 0

/-- All the points DRAW_CIRCLE calls SetPixel on, in order (R121). -/
def ringPoints (x0 y0 r : Int) : List Point := (circleIter r).flatMap (octantPoints x0 y0)

/-! ## FILL_CIRCLE -/

/-- The end points of the four horizontal chords of one octant point, in the order of R122. -/
def chordEnds (x0 y0 : Int) (p : Point) : List (Point × Point) :=
  [((x0 - p.1, y0 + p.2), (x0 + p.1, y0 + p.2)), ((x0 - p.1, y0 - p.2), (x0 + p.1, y0 - p.2)),
   ((x0 - p.2, y0 + p.1), (x0 + p.2, y0 + p.1)), ((x0 - p.2, y0 - p.1), (x0 + p.2, y0 - p.1))]

/-- The record of a FILL_CIRCLE as chord number `chord` of a pair begins; none after the fourth. -/
def fillCircleAt (c : Bool) (x0 y0 r : Half) (l : CircleLocals) (chord : Nat) : Option Work :=
  (chordEnds (signedOperand x0) (signedOperand y0) l.pair)[chord]?.map fun e =>
    .fillCircle c x0 y0 r l chord (lineStart e.1.1 e.1.2 e.2.1 e.2.2)

/-- FILL_CIRCLE c, x0, y0, r (R122) begins: nothing for r < 0, else the first chord of the first pair. -/
def execFillCircle (c : Bool) (x0 y0 r : Half) (s : State) : Host.Outcome State Fault Refusal :=
  .next (s.begin ((circleStart (signedOperand r)).bind fun l => fillCircleAt c x0 y0 r l 0))

/-- One pass of FILL_CIRCLE: one of a chord; after the fourth chord comes the first one of the next pair. -/
def fillCirclePass (c : Bool) (x0 y0 r : Half) (l : CircleLocals) (chord : Nat) : LineLocals → Pass :=
  linePass (.fillCircle c x0 y0 r l chord)
    ((fillCircleAt c x0 y0 r l (chord + 1)).or (l.next.bind fun l' => fillCircleAt c x0 y0 r l' 0))

/-- The points of the four chords of one octant point. -/
def chordPoints (x0 y0 : Int) (p : Point) : List Point :=
  (chordEnds x0 y0 p).flatMap fun e => linePoints e.1.1 e.1.2 e.2.1 e.2.2

/-- All the points FILL_CIRCLE calls SetPixel on, in order (R122). -/
def discPoints (x0 y0 r : Int) : List Point := (circleIter r).flatMap (chordPoints x0 y0)

end Sys2Proof.Machine
end

