-- ==== Sys2Proof/Machine/Flags.lean ====
section
/-! DEFINITION. Flags: there are none (spec/10_state.md R30). The one status the block computes is the read-only byte STATUS
(R25), a pure function of DCS. -/

namespace Sys2Proof.Machine

/-- The 3-bit code of a display-controller state (R22). -/
def Dcs.code : Dcs → Nat
  | .uninitialized => 0
  | .transportReady => 1
  | .reset => 2
  | .configurationScripted => 3
  | .on => 4

/-- INITIALIZED: DCS = On (R22). -/
def Dcs.initialized (d : Dcs) : Bool := d == .on

/-- STATUS: bit 7 INITIALIZED, bits 6:3 zero, bits 2:0 the code (R25, spec/45_display_controller.md R158). -/
def Dcs.status (d : Dcs) : Byte := BitVec.ofNat 8 (128 * (if d.initialized then 1 else 0) + d.code)

end Sys2Proof.Machine
end

