-- ==== Sys2Proof/Machine/Display.lean ====
section
/-! DEFINITION. The display controller: INIT, FLUSH, GET_STATUS (spec/45_display_controller.md). -/

namespace Sys2Proof.Machine

/-- The actions of INIT, in the order of R151. "Brings up Transport" is no transport call. -/
def initSequence (cfg : Config) : List ControllerAction :=
  [.enter .transportReady, .send .reset, .enter .reset] ++
  cfg.script.configurationBytes.map (fun b => .send (.cmd b)) ++
  [.enter .configurationScripted] ++
  cfg.script.displayOnBytes.map (fun b => .send (.cmd b)) ++
  [.enter .on]

/-- The transport calls of page `p` in a FLUSH: page select, column low, column high, W data bytes (R155). -/
def pageCalls (cfg : Config) (m : Framebuffer) (p : Nat) : List TxCall :=
  [.cmd (cfg.pageSelectByte p), .cmd cfg.colLoCmd, .cmd cfg.colHiCmd] ++
  (List.range cfg.width).map fun q => .data (m.getByte cfg p q)

/-- The transport calls of one FLUSH, page 0 first (R155, R157). FB cannot change while FLUSH runs (spec/20_memory.md R54). -/
def flushCalls (cfg : Config) (m : Framebuffer) : List TxCall :=
  (List.range cfg.pages).flatMap (pageCalls cfg m)

/-- The actions of FLUSH (R155): transport calls only. -/
def flushSequence (cfg : Config) (m : Framebuffer) : List ControllerAction :=
  (flushCalls cfg m).map ControllerAction.send

/-- INIT goes on from position `k` of its sequence to its next call. -/
def initFrom (k : Nat) (s : State) : State := s.offerFrom (initSequence s.cfg) Cur.init k

/-- FLUSH goes on from position `k` of its sequence to its next call. -/
def flushFrom (k : Nat) (s : State) : State := s.offerFrom (flushSequence s.cfg s.fb) Cur.flush k

/-- The step of a core that offers the call at position `k` of INIT (R176). -/
def stepInit (k : Nat) (s : State) : State := s.stepController (initSequence s.cfg) Cur.init k

/-- The step of a core that offers the call at position `k` of FLUSH (R176). -/
def stepFlush (k : Nat) (s : State) : State := s.stepController (flushSequence s.cfg s.fb) Cur.flush k

/-- INIT (R151): nothing unless DCS is Uninitialized; else the command begins, its first transport call offered, and each of the steps that
follow completes one call (R176, log 6). -/
def execInit (s : State) : Host.Outcome State Fault Refusal :=
  .next (if s.dcs = .uninitialized then initFrom 0 s else s)

/-- FLUSH (R155): nothing unless DCS is On; else the command begins, its first transport call offered, and each of the steps that
follow completes one call (R176, log 6). -/
def execFlush (s : State) : Host.Outcome State Fault Refusal :=
  .next (if s.dcs = .on then flushFrom 0 s else s)

/-- GET_STATUS (R158) begins. -/
def execGetStatus (s : State) : Host.Outcome State Fault Refusal :=
  .next (s.begin (some .getStatus))

/-- The one pass of GET_STATUS: STATUS is appended to RSP. -/
def stepGetStatus (s : State) : State := { s.respond s.dcs.status with cur := .idle }

end Sys2Proof.Machine
end

