-- ==== Sys2Proof/Machine/Rect.lean ====
section
/-! DEFINITION. The rectangle rasterizers DRAW_RECT and FILL_RECT (spec/42_rectangle.md). -/

namespace Sys2Proof.Machine

/-- w' of RectClamp (R110): cropped at the right edge, nothing on the left. -/
def clampWidth (cfg : Config) (x w : Int) : Int := min w (cfg.width - x)

/-- h' of RectClamp (R110): cropped at the bottom edge, nothing at the top. -/
def clampHeight (cfg : Config) (y h : Int) : Int := min h (cfg.height - y)

/-! ## DRAW_RECT -/

/-- The end points of the four Lines of R111, around columns x to x + w and rows y to y + h: top, bottom, left, right. -/
def outlineEdges (x y w h : Int) : List (Point × Point) :=
  [((x, y), (x + w, y)), ((x, y + h), (x + w, y + h)), ((x, y), (x, y + h)), ((x + w, y), (x + w, y + h))]

/-- The record of a DRAW_RECT as its Line number `edge` begins; none after the fourth. -/
def drawRectAt (c : Bool) (x y w h : Half) (w' h' : Int) (edge : Nat) : Option Work :=
  (outlineEdges (signedOperand x) (signedOperand y) w' h')[edge]?.map fun e =>
    .drawRect c x y w h w' h' edge (lineStart e.1.1 e.1.2 e.2.1 e.2.2)

/-- DRAW_RECT c, x, y, w, h (R111) begins: nothing when the clamped rectangle is degenerate (R110), else the top edge. -/
def execDrawRect (c : Bool) (x y w h : Half) (s : State) : Host.Outcome State Fault Refusal :=
  let w' := clampWidth s.cfg (signedOperand x) (signedOperand w)
  let h' := clampHeight s.cfg (signedOperand y) (signedOperand h)
  .next (s.begin (if w' < 0 ∨ h' < 0 then none else drawRectAt c x y w h w' h' 0))

/-- One pass of DRAW_RECT. -/
def drawRectPass (c : Bool) (x y w h : Half) (w' h' : Int) (edge : Nat) : LineLocals → Pass :=
  linePass (.drawRect c x y w h w' h' edge) (drawRectAt c x y w h w' h' (edge + 1))

/-- All the points DRAW_RECT calls SetPixel on, in order; none when the clamped rectangle is degenerate. -/
def drawRectPoints (cfg : Config) (x y w h : Int) : List Point :=
  if clampWidth cfg x w < 0 ∨ clampHeight cfg y h < 0 then []
  else (outlineEdges x y (clampWidth cfg x w) (clampHeight cfg y h)).flatMap fun e => linePoints e.1.1 e.1.2 e.2.1 e.2.2

/-! ## FILL_RECT -/

/-- The record of a FILL_RECT as row `i` of the h' + 1 rows of R112 begins; none after the last. -/
def fillRectAt (c : Bool) (x y w h : Half) (w' h' : Int) (i : Nat) : Option Work :=
  if i ≤ h' then
    some (.fillRect c x y w h w' h' i
      (lineStart (signedOperand x) (signedOperand y + i) (signedOperand x + w') (signedOperand y + i)))
  else none

/-- FILL_RECT c, x, y, w, h (R112) begins: nothing when the clamped rectangle is degenerate (R110), else row 0. -/
def execFillRect (c : Bool) (x y w h : Half) (s : State) : Host.Outcome State Fault Refusal :=
  let w' := clampWidth s.cfg (signedOperand x) (signedOperand w)
  let h' := clampHeight s.cfg (signedOperand y) (signedOperand h)
  .next (s.begin (if w' < 0 ∨ h' < 0 then none else fillRectAt c x y w h w' h' 0))

/-- One pass of FILL_RECT. -/
def fillRectPass (c : Bool) (x y w h : Half) (w' h' : Int) (i : Nat) : LineLocals → Pass :=
  linePass (.fillRect c x y w h w' h' i) (fillRectAt c x y w h w' h' (i + 1))

/-- All the points FILL_RECT calls SetPixel on, in order; none when the clamped rectangle is degenerate. -/
def fillRectPoints (cfg : Config) (x y w h : Int) : List Point :=
  if clampWidth cfg x w < 0 ∨ clampHeight cfg y h < 0 then []
  else (List.range ((clampHeight cfg y h).toNat + 1)).flatMap fun (i : Nat) =>
    linePoints x (y + i) (x + clampWidth cfg x w) (y + i)

end Sys2Proof.Machine
end

