-- ==== Sys2Proof/Machine/Store.lean ====
section
/-! DEFINITION. The framebuffer commands CLEAR, SET_PIXEL, GET_BYTE (spec/40_framebuffer_ops.md). -/

namespace Sys2Proof.Machine

/-- CLEAR (R90) begins, in every DCS state: the first byte comes next. -/
def execClear (s : State) : Host.Outcome State Fault Refusal :=
  .next (s.begin (some (.clear 0)))

/-- The record of a CLEAR before byte `i`; none when it has written the last one. -/
def clearAt (cfg : Config) (i : Nat) : Option Work := if i < cfg.size then some (.clear i) else none

/-- One pass of CLEAR: FB[i] becomes 0x00. After the last byte every byte is 0x00, which the store then holds as nothing listed. -/
def stepClear (i : Nat) (s : State) : State :=
  { s with
    fb := if i + 1 < s.cfg.size then s.fb.write i 0x00 else s.fb.clear
    cur := Cur.ofWork (clearAt s.cfg (i + 1)) }

/-- SET_PIXEL c, x, y (R92) begins. -/
def execSetPixel (c : Bool) (x y : Half) (s : State) : Host.Outcome State Fault Refusal :=
  .next (s.begin (some (.setPixel c x y)))

/-- The one pass of SET_PIXEL. -/
def setPixelPass (x y : Half) : Pass where
  point := some (signedOperand x, signedOperand y)
  next := none

/-- The byte GET_BYTE answers: GetByte(p, q) in range, else 0x00 (R94). -/
def getByteResponse (s : State) (p q : Nat) : Byte :=
  if p < s.cfg.pages ∧ q < s.cfg.width then s.fb.getByte s.cfg p q else 0x00

/-- GET_BYTE p, q (R94) begins. -/
def execGetByte (p : Byte) (q : Half) (s : State) : Host.Outcome State Fault Refusal :=
  .next (s.begin (some (.getByte p q)))

/-- The one pass of GET_BYTE: one byte is appended to RSP. -/
def stepGetByte (p : Byte) (q : Half) (s : State) : State :=
  { s.respond (getByteResponse s (byteOperand p) (unsignedOperand q)) with cur := .idle }

end Sys2Proof.Machine
end

