-- ==== Sys2Proof/Machine/Text.lean ====
section
/-! DEFINITION. The glyph blitter and the string renderer: DRAW_CHAR, DRAW_STRING, and the host-side expansion of
FORMAT_PRINT (spec/44_glyph_text.md). -/

namespace Sys2Proof.Machine

/-- The points of one glyph byte drawn with its top at (x, y): one for each set bit, bit 0 the top pixel (R132). -/
def columnPoints (x y : Int) (v : Byte) : List Point :=
  ((List.range 8).filter fun k => v.getLsbD k).map fun (k : Nat) => (x, y + k)

/-- The points of the glyph of a code with its top left corner at (x, y): the three loops of R132. -/
def glyphPoints (F : Font) (code : Byte) (x y : Int) : List Point :=
  (List.range (F.glyphWidth code)).flatMap fun (j : Nat) =>
    (List.range F.bytesPerColumn).flatMap fun (b : Nat) =>
      columnPoints (x + j) (y + b * 8) (F.glyphByte code j b)

/-- The glyph that DrawChar selects: none for an unknown font number, and none for a code the font does not support (R132). -/
def selectGlyph (cfg : Config) (f code : Byte) : Option Font :=
  match cfg.font f with
  | none => none
  | some F => if F.supports code then some F else none

/-- All the points DrawChar(color, x, y, f, code) calls SetPixel on, in order (R132). -/
def charPoints (cfg : Config) (x y : Int) (f code : Byte) : List Point :=
  match selectGlyph cfg f code with
  | none => []
  | some F => glyphPoints F code x y

/-- What DrawChar returns, plus the gap: how far the cursor moves after a character (R135). A character that selects nothing moves
it nowhere, not even by the gap. -/
def cursorAdvance (cfg : Config) (f code : Byte) : Nat :=
  match selectGlyph cfg f code with
  | none => 0
  | some F => F.glyphWidth code + F.gap

/-- The points of the loop of R135 over the text, the cursor at column `cx`: the stop test comes before every character. -/
def stringPoints (cfg : Config) (f : Byte) (y : Int) : (cx : Int) → List Byte → List Point
  | _, [] => []
  | cx, code :: rest =>
    if cx ≥ cfg.width ∨ y ≥ cfg.height then []
    else charPoints cfg cx y f code ++ stringPoints cfg f y (cx + cursorAdvance cfg f code) rest

/-- All the points DRAW_STRING calls SetPixel on, in order: none when the font number is unknown (R135). -/
def drawStringPoints (cfg : Config) (x y : Int) (f : Byte) (text : List Byte) : List Point :=
  match cfg.font f with
  | none => []
  | some _ => stringPoints cfg f y x text

/-! ## DRAW_CHAR, a pass at a time -/

/-- The counters of the loops of R132 as they are entered; none when there is nothing to loop over. -/
def glyphStart (F : Font) (code : Byte) : Option GlyphLocals :=
  if 0 < F.glyphWidth code ∧ 0 < F.bytesPerColumn then some { j := 0, b := 0, k := 0 } else none

/-- The counters after a pass of the innermost loop of R132, none when the three loops are done. -/
def GlyphLocals.next (F : Font) (code : Byte) (g : GlyphLocals) : Option GlyphLocals :=
  if g.k + 1 < 8 then some { g with k := g.k + 1 }
  else if g.b + 1 < F.bytesPerColumn then some { g with b := g.b + 1, k := 0 }
  else if g.j + 1 < F.glyphWidth code then some { j := g.j + 1, b := 0, k := 0 }
  else none

/-- The point a pass of the innermost loop calls SetPixel on, none for a bit that is 0. -/
def GlyphLocals.point (F : Font) (code : Byte) (x y : Int) (g : GlyphLocals) : Option Point :=
  if (F.glyphByte code g.j g.b).getLsbD g.k then some (x + g.j, y + g.b * 8 + g.k) else none

/-- DRAW_CHAR c, x, y, font, code (R133) begins: nothing when no glyph is selected. -/
def execDrawChar (c : Bool) (x y : Half) (font code : Byte) (s : State) : Host.Outcome State Fault Refusal :=
  .next (s.begin ((selectGlyph s.cfg font code).bind fun F =>
    (glyphStart F code).map fun g => .drawChar c x y font code g))

/-- One pass of DRAW_CHAR. -/
def drawCharPass (cfg : Config) (c : Bool) (x y : Half) (font code : Byte) (g : GlyphLocals) : Pass where
  point := (selectGlyph cfg font code).bind fun F => g.point F code (signedOperand x) (signedOperand y)
  next := (selectGlyph cfg font code).bind fun F => (g.next F code).map fun g' => .drawChar c x y font code g'

/-! ## DRAW_STRING, a pass at a time -/

/-- DRAW_STRING c, x, y, font, text (R135) begins: nothing for an unknown font number, else before the first character, the cursor at x. -/
def execDrawString (c : Bool) (x y : Half) (font : Byte) (text : List Byte) (s : State) :
    Host.Outcome State Fault Refusal :=
  .next (s.begin ((s.cfg.font font).map fun _ => .drawString c x y font text 0 (signedOperand x) none))

/-- The record of a DRAW_STRING once the DrawChar of character `i`, whose code is `code`, has returned: the next character, the cursor
moved. -/
def drawStringAdvance (cfg : Config) (c : Bool) (x y : Half) (font : Byte) (text : List Byte) (i : Nat) (cx : Int) (code : Byte) :
    Work :=
  .drawString c x y font text (i + 1) (cx + cursorAdvance cfg font code) none

/-- One pass of DRAW_STRING: before a character, the end of the text, the stop test (R135), and the entry into its DrawChar, or the next
character when there is nothing to draw; inside a DrawChar, a pass of it. -/
def drawStringPass (cfg : Config) (c : Bool) (x y : Half) (font : Byte) (text : List Byte) (i : Nat) (cx : Int) :
    Option GlyphLocals → Pass
  | none => {
      point := none
      next := text[i]?.bind fun code =>
        if cx ≥ cfg.width ∨ signedOperand y ≥ cfg.height then none
        else
          match (selectGlyph cfg font code).bind fun F => glyphStart F code with
          | none => some (drawStringAdvance cfg c x y font text i cx code)
          | some g => some (.drawString c x y font text i cx (some g)) }
  | some g => {
      point := text[i]?.bind fun code => (selectGlyph cfg font code).bind fun F => g.point F code cx (signedOperand y)
      next := text[i]?.map fun code =>
        match (selectGlyph cfg font code).bind fun F => g.next F code with
        | none => drawStringAdvance cfg c x y font text i cx code
        | some g' => .drawString c x y font text i cx (some g') }

/-! ## FORMAT_PRINT -/

/-- FORMAT_PRINT (R71, R139), a pseudo-instruction of the host: the string its software has formatted, cut to FMT_CAP characters,
sent as one DRAW_STRING. How the string is formatted is outside the block. -/
def formatPrintExpansion (cfg : Config) (c : Bool) (x y : Half) (font : Byte) (formatted : List Byte) : Instr :=
  .drawString c x y font (formatted.take cfg.fmtCap)

end Sys2Proof.Machine
end

