-- ==== Sys2Proof/Machine/Dispatch.lean ====
section
/-! DEFINITION. The dispatch: one arm per command, each one direct call of its meaning. -/

namespace Sys2Proof.Machine

def exec (i : Instr) (s : State) : Host.Outcome State Fault Refusal :=
  match i with
  -- framebuffer (spec/40_framebuffer_ops.md)
  | .clear => Sys2Proof.Machine.execClear s
  | .setPixel c x y => Sys2Proof.Machine.execSetPixel c x y s
  | .getByte p q => Sys2Proof.Machine.execGetByte p q s
  -- rasterizers (spec/41_line.md, 42_rectangle.md, 43_circle.md)
  | .drawLine c x0 y0 x1 y1 => Sys2Proof.Machine.execDrawLine c x0 y0 x1 y1 s
  | .drawRect c x y w h => Sys2Proof.Machine.execDrawRect c x y w h s
  | .fillRect c x y w h => Sys2Proof.Machine.execFillRect c x y w h s
  | .drawCircle c x0 y0 r => Sys2Proof.Machine.execDrawCircle c x0 y0 r s
  | .fillCircle c x0 y0 r => Sys2Proof.Machine.execFillCircle c x0 y0 r s
  -- text (spec/44_glyph_text.md)
  | .drawChar c x y font code => Sys2Proof.Machine.execDrawChar c x y font code s
  | .drawString c x y font text => Sys2Proof.Machine.execDrawString c x y font text s
  -- display controller (spec/45_display_controller.md)
  | .init => Sys2Proof.Machine.execInit s
  | .flush => Sys2Proof.Machine.execFlush s
  | .getStatus => Sys2Proof.Machine.execGetStatus s

end Sys2Proof.Machine
end

