-- ==== Sys2Proof/Machine/Fetch.lean ====
section
/-! DEFINITION. What a step does (spec/30_encoding.md R60, R66, R67, R69): taking a packet from the command port and beginning its
command, or carrying out one pass or one transport call of the command in progress. Sys2Proof/Machine/Step.lean only calls this. -/

namespace Sys2Proof.Machine

/-- The bytes the core can see: what it has taken of a packet, then what stands at the command port. -/
def State.incoming (s : State) : List Byte := s.pkt ++ s.cmdIn

/-- The packet at the front has been taken whole: none is being received, and `rest` stands at the port. -/
def State.packetTaken (s : State) (rest : List Byte) : State := { s with pkt := [], cmdIn := rest }

/-- The packet is cut short: the core has taken every byte and waits, the port ready, for the rest (R69). -/
def State.awaitPacket (s : State) : State := { s with pkt := s.incoming, cmdIn := [] }

/-- An idle core takes the next packet and its command begins (R60): CUR holds it until it is complete. A reserved byte is consumed as a
packet of length 1 and does nothing (R67, log 10). -/
def fetchAndExecute (s : State) : Host.Outcome State Fault Refusal :=
  match decode s.incoming with
  | .command i rest => exec i (s.packetTaken rest)
  | .reserved _ rest => .next (s.packetTaken rest)
  | .incomplete => .next s.awaitPacket

/-- One pass of a command that makes no transport call (log 6). -/
def stepWork (w : Work) (s : State) : State :=
  match w with
  | .clear i => stepClear i s
  | .setPixel c x y => s.pass c (setPixelPass x y)
  | .getByte p q => stepGetByte p q s
  | .drawLine c x0 y0 x1 y1 line => s.pass c (drawLinePass c x0 y0 x1 y1 line)
  | .drawRect c x y w h w' h' edge line => s.pass c (drawRectPass c x y w h w' h' edge line)
  | .fillRect c x y w h w' h' i line => s.pass c (fillRectPass c x y w h w' h' i line)
  | .drawCircle c x0 y0 r iter k => s.pass c (drawCirclePass c x0 y0 r iter k)
  | .fillCircle c x0 y0 r iter chord line => s.pass c (fillCirclePass c x0 y0 r iter chord line)
  | .drawChar c x y font code glyph => s.pass c (drawCharPass s.cfg c x y font code glyph)
  | .drawString c x y font text i cx glyph => s.pass c (drawStringPass s.cfg c x y font text i cx glyph)
  | .getStatus => stepGetStatus s

/-- One step of the core, on an accepted configuration. An INIT or FLUSH in progress completes the transport call it offers if the
transport accepts it, and stays as it is if not (R176, R186); any other command in progress makes a pass. -/
def stepCore (s : State) : Host.Outcome State Fault Refusal :=
  match s.cur with
  | .idle => fetchAndExecute s
  | .init k => .next (stepInit k s)
  | .flush k => .next (stepFlush k s)
  | .working w => .next (stepWork w s)

/-- The next packet at the command port is the given one: an idle core, no packet partly received, and the packet in front of
whatever the host has sent. -/
def State.withPacket (s : State) (packet : List Byte) : State :=
  { s with cur := .idle, pkt := [], cmdIn := packet ++ s.cmdIn }

end Sys2Proof.Machine
end

