-- ==== Sys2Proof/Machine/Step.lean ====
section
/-! DEFINITION. The step function and the host's way to place an instruction. -/

namespace Sys2Proof.Machine

/-- One step of the machine. A configuration that is not well formed is refused (spec/93_implementation_defined.md U8, U15). -/
def step (s : State) : Host.Outcome State Fault Refusal :=
  if s.cfg.wf then stepCore s else .refused .illFormedConfiguration

/-- `s` with the instruction whose bits are `w` standing where the next step fetches: at the command port. -/
def State.withFetchWord (s : State) (nbits w : Nat) : State := s.withPacket (wordPacket nbits w)

end Sys2Proof.Machine
end

