-- ==== Sys2Proof/Machine/Ports.lean ====
section
/-! DEFINITION. The four ports (spec/30_encoding.md R61, spec/46_transport.md R177): the moves of the host and of the transport, which happen
between steps, the block reset (spec/70_reset_and_hazards.md R200), and the port signals as functions of the state. -/

namespace Sys2Proof.Machine

/-! ## The command and response ports' signals -/

/-- `cmd_ready` between two steps: no command is in progress (R29, R60). -/
def State.cmdReady (s : State) : Bool := s.cur == .idle

/-- `cmd_valid` and `cmd_data`: the byte the host offers. -/
def State.cmdOffered (s : State) : Option Byte := s.cmdIn.head?

/-- `rsp_valid` and `rsp_data`: the byte the block offers. The host sees RSP only between commands, never inside one (spec/20_memory.md
R49): while a command is in progress no byte is offered (the form of that is DEDUCED, log 22). -/
def State.rspOffered (s : State) : Option Byte := if s.cmdReady then s.rsp.head? else none

/-! ## Moves from outside -/

/-- The host puts bytes on the command port (spec/00_scope.md R14). The core takes them only while `cmd_ready` is 1. -/
def State.hostSend (s : State) (bytes : List Byte) : State := { s with cmdIn := s.cmdIn ++ bytes }

/-- The host takes the byte the block offers it, the front one of RSP (spec/10_state.md R28); between commands only (spec/20_memory.md R49). -/
def State.hostTake (s : State) : Option (Byte × State) :=
  s.rspOffered.map fun b => (b, { s with rsp := s.rsp.tail })

/-- The block reset (R200): everything is as after reset, the configuration apart; FB holds a fresh unspecified content; a command
in progress and a partly received packet are abandoned. The transport agent, and the bytes the host offers and the core has not
taken, are not the block's and stay as they are (log 5). -/
def State.blockReset (s : State) : State :=
  { State.afterReset s.cfg (s.fb.epoch + 1) with cmdIn := s.cmdIn, transport := s.transport }

/-- The transport agent changes its readiness (R176). -/
def State.grantTransport (s : State) (t : Transport) : State := { s with transport := t }

/-! ## The transport port's signals

R177 lets a model ignore these signals. DESIGN CHOICE (log 23): the model keeps those of the core, as functions of the state between two
steps, and leaves out the lowering of `tx_valid` between two calls; `tx_ready` and `tx_rst_done` are no signals here, and
`Transport.accept` stands for them. Unsafe for a claim about the signals' edges. -/

/-- The transport call the core is offering; none unless INIT or FLUSH is in progress (R177). -/
def State.txOffered (s : State) : Option TxCall :=
  match s.cur with
  | .idle => none
  | .init k => ((initSequence s.cfg)[k]?).bind ControllerAction.call?
  | .flush k => ((flushSequence s.cfg s.fb)[k]?).bind ControllerAction.call?
  | .working _ => none

/-- `tx_dc`, the selector level of a byte call: 0 for `sendCommand`, 1 for `sendData` (R174, R177); none for `reset()`. -/
def TxCall.dc : TxCall → Option Bool
  | .cmd _ => some false
  | .data _ => some true
  | .reset => none

/-- `tx_data`: the byte of a byte call (R177). -/
def TxCall.byte : TxCall → Option Byte
  | .cmd b => some b
  | .data b => some b
  | .reset => none

/-- `tx_valid`: a byte call is offered (R177). It stays true from one byte call to the next, while `tx_dc` and `tx_data` change: the lowering
between them is left out (DESIGN CHOICE, log 23). -/
def State.txValid (s : State) : Bool := (s.txOffered.bind TxCall.byte).isSome

/-- `tx_rst_req`: a reset call is offered (R177); that the transport accepts it stands for `tx_rst_done` (DESIGN CHOICE, log 23). -/
def State.txRstReq (s : State) : Bool := s.txOffered == some .reset

/-! ## The command in progress -/

/-- The opcode and the operands of a record of CUR (spec/10_state.md R23, R29). -/
def Work.command : Work → Instr
  | .clear _ => .clear
  | .setPixel c x y => .setPixel c x y
  | .getByte p q => .getByte p q
  | .drawLine c x0 y0 x1 y1 _ => .drawLine c x0 y0 x1 y1
  | .drawRect c x y w h _ _ _ _ => .drawRect c x y w h
  | .fillRect c x y w h _ _ _ _ => .fillRect c x y w h
  | .drawCircle c x0 y0 r _ _ => .drawCircle c x0 y0 r
  | .fillCircle c x0 y0 r _ _ _ => .fillCircle c x0 y0 r
  | .drawChar c x y font code _ => .drawChar c x y font code
  | .drawString c x y font text _ _ _ => .drawString c x y font text
  | .getStatus => .getStatus

/-- The command in progress, opcode and operands; none when CUR is idle (R29). -/
def Cur.command : Cur → Option Instr
  | .idle => none
  | .init _ => some .init
  | .flush _ => some .flush
  | .working w => some w.command

/-- INIT's loop position in its own terms (spec/10_state.md R24): how many script bytes have been sent before action `k`. -/
def initPosition (cfg : Config) (k : Nat) : Nat :=
  ((initSequence cfg).take k).countP fun a => (a.call?.bind TxCall.byte).isSome

/-- FLUSH's loop position in its own terms (spec/10_state.md R24): the page, and the place in the page's calls (0 to 2 the
addressing commands, 3 + q the data byte of column q). -/
def flushPosition (cfg : Config) (k : Nat) : Nat × Nat := (k / (3 + cfg.width), k % (3 + cfg.width))

end Sys2Proof.Machine
end

