-- ==== Sys2Proof/Safety.lean ====
section
/-! DEFINITION. What counts as a good state and a finished run, in the terms the statements use: the invariant, the finished and the
stuck states (spec/00_scope.md R14, spec/60_exceptions.md R186), and the commands whose effect is the source's own, not a choice the
spec lets a model refuse (R181 rows 7 to 11). -/

namespace Sys2Proof.Safety

open Sys2Proof.Machine

/-- The transport calls of a sequence of actions, in order. -/
def callsOf (actions : List ControllerAction) : List TxCall := actions.filterMap ControllerAction.call?

/-- DCS after a sequence of actions that starts in `d`. -/
def dcsAfter (d : Dcs) : List ControllerAction → Dcs
  | [] => d
  | .enter d' :: rest => dcsAfter d' rest
  | .send _ :: rest => dcsAfter d rest

/-- The transport calls of a whole INIT: one `reset()`, then the script as commands (spec/45_display_controller.md R151). -/
def initCalls (cfg : Config) : List TxCall :=
  .reset :: (cfg.script.configurationBytes ++ cfg.script.displayOnBytes).map TxCall.cmd

/-- CUR, DCS and TX agree: with neither INIT nor FLUSH in progress INIT has never started or is complete; an INIT or FLUSH in progress
stands at a transport call of its own sequence, with DCS and TX as the actions before that call leave them. -/
def controllerConsistent (s : State) : Prop :=
  match s.cur with
  | .idle => (s.dcs = .uninitialized ∧ s.tx = []) ∨ (s.dcs = .on ∧ initCalls s.cfg <+: s.tx)
  | .working _ => (s.dcs = .uninitialized ∧ s.tx = []) ∨ (s.dcs = .on ∧ initCalls s.cfg <+: s.tx)
  | .init k =>
    (∃ c, (initSequence s.cfg)[k]? = some (.send c)) ∧
      s.dcs = dcsAfter .uninitialized ((initSequence s.cfg).take k) ∧ s.tx = callsOf ((initSequence s.cfg).take k)
  | .flush k =>
    k < (flushCalls s.cfg s.fb).length ∧ s.dcs = .on ∧
      ∃ before, initCalls s.cfg <+: before ∧ s.tx = before ++ (flushCalls s.cfg s.fb).take k

/-- The transport calls the command in progress has still to complete, the offered one first (spec/45_display_controller.md R151, R155). -/
def callsLeft (s : State) : List TxCall :=
  match s.cur with
  | .idle => []
  | .working _ => []
  | .init k => callsOf ((initSequence s.cfg).drop k)
  | .flush k => (flushCalls s.cfg s.fb).drop k

/-- The record CUR holds, of a command that makes no transport call. -/
def recordOf : Cur → Option Work
  | .idle => none
  | .init _ => none
  | .flush _ => none
  | .working w => some w

/-- The record with which a command begins: it depends on the configuration and the command alone. -/
def firstRecord (cfg : Config) (i : Instr) : Option Work :=
  match exec i (State.afterReset cfg 0) with
  | .next t => recordOf t.cur
  | .fault _ => none
  | .refused _ => none

/-- The record after one more pass, none when the command is complete: it depends on the configuration and the record alone. -/
def nextRecord (cfg : Config) (w : Work) : Option Work := recordOf (stepWork w (State.afterReset cfg 0)).cur

/-- The record after `n` passes of a command. -/
def recordAfter (cfg : Config) (i : Instr) : Nat → Option Work
  | 0 => firstRecord cfg i
  | n + 1 => (recordAfter cfg i n).bind (nextRecord cfg)

/-- The locals of a record are those its operands lead to: the record is one that its command comes to (spec/10_state.md R24: set at the
start, advancing only forward); and a CLEAR has written the bytes before its counter. -/
def workConsistent (s : State) : Prop :=
  ∀ w, s.cur = .working w →
    (∃ n, recordAfter s.cfg w.command n = some w) ∧ ∀ i, w = .clear i → ∀ j < i, s.fb.read j = 0x00

/-- The invariant of the machine: an accepted configuration; FB in canonical form and inside its space; a partly received packet is
one cut short (spec/30_encoding.md R69); the controller's state is consistent, and so is the record of any other command in progress;
and no `reset()` call follows the first call of the trace (spec/46_transport.md R173, R178). -/
structure GoodState (s : State) : Prop where
  cfg_wf : s.cfg.wf = true
  fb_wf : s.fb.wf = true
  fb_within : s.fb.within s.cfg.size = true
  pkt_incomplete : decode s.pkt = .incomplete
  controller : controllerConsistent s
  work : workConsistent s
  one_reset : TxCall.reset ∉ s.tx.tail

/-- A run is over (R14): the port is idle, no command is in progress, every response byte has been taken. -/
def finished (s : State) : Bool := s.cmdIn.isEmpty && s.pkt.isEmpty && s.cur == .idle && s.rsp.isEmpty

/-- The hang (R186): the core offers a call and the transport does not accept it. -/
def hung (s : State) : Bool := s.txOffered.isSome && s.transport.accept.isNone

/-- From `s` the core comes by its own steps to `t`, in which no command is in progress, while one is in progress in every state on the
way (spec/30_encoding.md R60: the command port is not ready until the command is complete). `t` is `s` when none is in progress in `s`. -/
def Completes (s t : State) : Prop :=
  t.cmdReady = true ∧ ∃ n, core.run n s = .next t ∧ ∀ m < n, ∃ v, core.run m s = .next v ∧ v.cmdReady = false

/-- A command whose effect the source itself gives: none of rows 7 to 10 of R181, where the spec chose a no-op or a 0x00
and lets a model refuse. A claim that must not rest on those choices takes this as its premise. -/
def givenBySource (i : Instr) (s : State) : Bool :=
  match i with
  | .clear => true
  | .setPixel _ _ _ => true
  | .getByte p q => decide (p.toNat < s.cfg.pages) && decide (q.toNat < s.cfg.width)
  | .drawLine _ _ _ _ _ => true
  | .drawRect _ _ _ _ _ => true
  | .fillRect _ _ _ _ _ => true
  | .drawCircle _ _ _ _ => true
  | .fillCircle _ _ _ _ => true
  | .drawChar _ _ _ font _ => (s.cfg.font font).isSome
  | .drawString _ _ _ font _ => (s.cfg.font font).isSome
  | .init => s.dcs == .uninitialized
  | .flush => s.dcs == .on
  | .getStatus => true

/-! ## The terms the statements use -/

/-- A packet stands for an instruction: wherever it is the front of the stream, the decoder reads that instruction and leaves the
rest (spec/30_encoding.md R62, R63). -/
def EncodedAs (i : Instr) (packet : List Byte) : Prop := ∀ rest, decode (packet ++ rest) = .command i rest

/-- Bit `k` of the byte FB[i] (spec/00_scope.md R16). -/
def bitAt (m : Framebuffer) (i k : Nat) : Bool := (m.read i).getLsbD k

/-- Bit `k` of FB[i] is the pixel of a point of `S` in bounds (spec/20_memory.md R40). -/
def IsPixelOf (cfg : Config) (S : Point → Prop) (i k : Nat) : Prop :=
  ∃ p, S p ∧ inBounds cfg p = true ∧ i = pixelIndex cfg p ∧ k = pixelBit p

/-- `m'` is `m` with exactly the visible points of `S` painted in colour `c`: their bits take the colour, every other bit of FB is what it
was, every byte that holds none of them reads as before, and nothing else of the store changes. -/
structure PaintedExactly (cfg : Config) (c : Bool) (m m' : Framebuffer) (S : Point → Prop) : Prop where
  painted : ∀ i k, k < 8 → IsPixelOf cfg S i k → bitAt m' i k = c
  kept : ∀ i k, k < 8 → ¬ IsPixelOf cfg S i k → bitAt m' i k = bitAt m i k
  bytes_kept : ∀ i, (∀ p, S p → inBounds cfg p = true → i ≠ pixelIndex cfg p) → m'.read i = m.read i
  canonical : m'.wf = true
  epoch_kept : m'.epoch = m.epoch
  cleared_kept : m'.cleared = m.cleared

/-- The colour and the SetPixel calls of a whole command, in order (spec/00_scope.md R3); none for a command that draws nothing. -/
def pixelCalls (cfg : Config) : Instr → Option (Bool × List Point)
  | .clear => none
  | .setPixel c x y => some (c, [(signedOperand x, signedOperand y)])
  | .getByte _ _ => none
  | .drawLine c x0 y0 x1 y1 =>
    some (c, linePoints (signedOperand x0) (signedOperand y0) (signedOperand x1) (signedOperand y1))
  | .drawRect c x y w h =>
    some (c, drawRectPoints cfg (signedOperand x) (signedOperand y) (signedOperand w) (signedOperand h))
  | .fillRect c x y w h =>
    some (c, fillRectPoints cfg (signedOperand x) (signedOperand y) (signedOperand w) (signedOperand h))
  | .drawCircle c x0 y0 r => some (c, ringPoints (signedOperand x0) (signedOperand y0) (signedOperand r))
  | .fillCircle c x0 y0 r => some (c, discPoints (signedOperand x0) (signedOperand y0) (signedOperand r))
  | .drawChar c x y font code => some (c, charPoints cfg (signedOperand x) (signedOperand y) font code)
  | .drawString c x y font text => some (c, drawStringPoints cfg (signedOperand x) (signedOperand y) font text)
  | .init => none
  | .flush => none
  | .getStatus => none

/-- The text cursor before character `i` of DRAW_STRING, were no character dropped (spec/44_glyph_text.md R135, R137). -/
def cursorBefore (cfg : Config) (f : Byte) (x : Int) (text : List Byte) (i : Nat) : Int :=
  x + (((text.take i).map (cursorAdvance cfg f)).sum : Nat)

/-- Two points are the same or 8-neighbours (spec/43_circle.md R124): they differ by at most 1 in x and at most 1 in y. -/
def Adjacent (p q : Point) : Prop := (q.1 - p.1).natAbs ≤ 1 ∧ (q.2 - p.2).natAbs ≤ 1

/-- The octant pair that follows `p`, said of the ideal circle and not of the decision variable (spec/43_circle.md R120): one column on,
in the same row if the midpoint between the two candidate pixels lies inside the circle, (x + 1)² + (y − ½)² < r², else one
row down. -/
def midpointNext (r : Int) (p : Point) : Point :=
  (p.1 + 1, if (p.1 + 1) * (p.1 + 1) + p.2 * p.2 - p.2 < r * r then p.2 else p.2 - 1)

/-- The data byte of a transport call. -/
def dataByte : TxCall → Option Byte
  | .cmd _ => none
  | .data b => some b
  | .reset => none

/-- The commands that make transport calls (spec/10_state.md R26). -/
def drivesTransport : Instr → Bool
  | .init => true
  | .flush => true
  | .clear => false
  | .setPixel _ _ _ => false
  | .getByte _ _ => false
  | .drawLine _ _ _ _ _ => false
  | .drawRect _ _ _ _ _ => false
  | .fillRect _ _ _ _ _ => false
  | .drawCircle _ _ _ _ => false
  | .fillCircle _ _ _ _ => false
  | .drawChar _ _ _ _ _ => false
  | .drawString _ _ _ _ _ => false
  | .getStatus => false

/-- The commands that append to RSP (spec/10_state.md R28). -/
def responds : Instr → Bool
  | .getByte _ _ => true
  | .getStatus => true
  | .init => false
  | .flush => false
  | .clear => false
  | .setPixel _ _ _ => false
  | .drawLine _ _ _ _ _ => false
  | .drawRect _ _ _ _ _ => false
  | .fillRect _ _ _ _ _ => false
  | .drawCircle _ _ _ _ => false
  | .fillCircle _ _ _ _ => false
  | .drawChar _ _ _ _ _ => false
  | .drawString _ _ _ _ _ => false

end Sys2Proof.Safety
end

