-- ==== Sys2Proof/Certificates/Slice0/Obligations.lean ====
section
/-! DEFINITION. The statements for the provers. Each names the rule of spec/ it formalises, or says that it rests on a choice of
the model (with the log entry). -/

open Sys2Proof Sys2Proof.Machine Sys2Proof.Safety

/-! ## Encoding -/

/-- Decoding the packet of any well-formed instruction, whatever bytes follow it, gives the instruction and leaves those bytes
(R62 to R66). -/
def Obligations.DecodeOfEncode : Prop :=
  ∀ (i : Instr) (rest : List Byte), i.wf = true → decode (encode i ++ rest) = .command i rest

/-- Whatever the decoder reads as a command is the packet of that well-formed instruction, no bit of it dropped (R62 to R66). -/
def Obligations.EncodeOfDecode : Prop :=
  ∀ (bytes : List Byte) (i : Instr) (rest : List Byte),
    decode bytes = .command i rest → i.wf = true ∧ encode i ++ rest = bytes

/-- The reserved values of byte 0 are exactly those the spec lists, and the decoder takes such a byte as a packet of length 1
(the list of R67). -/
def Obligations.ReservedBytesAreTheListedOnes : Prop :=
  ∀ (b : Byte) (rest : List Byte), decode (b :: rest) = .reserved b rest ↔
    (b.toNat ≤ 0x0F ∨ b.toNat = 0x11 ∨ (0x15 ≤ b.toNat ∧ b.toNat ≤ 0x1F) ∨ (0x2A ≤ b.toNat ∧ b.toNat ≤ 0x2F) ∨
      (0x34 ≤ b.toNat ∧ b.toNat ≤ 0x3F) ∨ b.toNat = 0x41 ∨ b.toNat = 0x43 ∨ 0x45 ≤ b.toNat)

/-- A packet cut short, at whatever byte, is not a command yet (R69). -/
def Obligations.CutPacketIsIncomplete : Prop :=
  ∀ (i : Instr) (front back : List Byte),
    i.wf = true → encode i = front ++ back → back ≠ [] → decode front = .incomplete

/-- The length of a packet is fixed by byte 0 alone, except for a string, whose length is 7 plus the byte at offset 6 (R66). -/
def Obligations.PacketLengthFromByteZero : Prop :=
  (∀ (i : Instr) (rest : List Byte), i.wf = true → packetLength (encode i ++ rest) = (encode i).length) ∧
  (∀ (b : Byte) (as bs : List Byte), b &&& 0xFE#8 ≠ 0x32#8 → packetLength (b :: as) = packetLength (b :: bs)) ∧
  (∀ (b b1 b2 b3 b4 b5 len : Byte) (rest : List Byte), b &&& 0xFE#8 = 0x32#8 →
    packetLength (b :: b1 :: b2 :: b3 :: b4 :: b5 :: len :: rest) = 7 + len.toNat)

/-- Packets written out from the spec decode to the instructions they stand for (V3, V60, V61, V62, V63, V67). -/
def Obligations.SamplePacketsDecode : Prop :=
  decode [0x13, 0x05, 0x00, 0x0A, 0x00] = .command (.setPixel true 5 10) [] ∧
  decode [0x12, 0xFF, 0xFF, 0x05, 0x00] = .command (.setPixel false (-1) 5) [] ∧
  decode [0x21, 0x00, 0x80, 0xFF, 0x7F, 0x00, 0x00, 0x00, 0x00] =
    .command (.drawLine true (-32768) 32767 0 0) [] ∧
  decode [0x33, 0x0A, 0x00, 0x14, 0x00, 0x00, 0x08, 0x31, 0x32, 0x3A, 0x33, 0x30, 0x3A, 0x30, 0x30] =
    .command (.drawString true 10 20 0 [0x31, 0x32, 0x3A, 0x33, 0x30, 0x3A, 0x30, 0x30]) [] ∧
  decode [0x10, 0x42, 0x44] = .command .clear [0x42, 0x44] ∧
  decode [0x14, 0x01, 0x05, 0x00] = .command (.getByte 1 5) []

/-! ## The step -/

/-- A step of an idle core whose incoming bytes begin with the packet of `i` is `exec i`, on the state from which that packet
has been taken (R60, R66): the command begins. CUR then holds its opcode and operands (R29, R23) and the command port is not ready; or the
command had nothing to do and is complete, with nothing changed. That one step takes a whole packet and the steps after it carry the
command out, and that the host's bytes stand in `cmdIn`, is the model's form (log 6, log 5). -/
def Obligations.StepRunsDecodedCommand : Prop :=
  ∀ (s : State) (i : Instr) (rest : List Byte), s.cfg.wf = true → s.cur = .idle →
    decode (s.pkt ++ s.cmdIn) = .command i rest →
    step s = exec i { s with pkt := [], cmdIn := rest } ∧
    ∃ t, step s = .next t ∧
      ((t.cur.command = some i ∧ t.cmdReady = false) ∨ t = { s with pkt := [], cmdIn := rest })

/-- The hardware consumes a reserved byte and does nothing (R67's effect; the model takes it instead of the refusal R67 recommends,
log 10). -/
def Obligations.ReservedByteIsConsumed : Prop :=
  ∀ (s : State) (b : Byte) (rest : List Byte), s.cfg.wf = true → s.cur = .idle →
    decode (s.pkt ++ s.cmdIn) = .reserved b rest → step s = .next { s with pkt := [], cmdIn := rest }

/-- A packet cut short: the core takes its bytes and waits with the port ready, for ever if need be, and the bytes that then arrive are
taken as the rest of that packet (R69). That one step moves all of them from `cmdIn` to `pkt` is the model's form (log 5, log 6). -/
def Obligations.CutPacketWaitsForItsRest : Prop :=
  ∀ (s : State), s.cfg.wf = true → s.cur = .idle → decode (s.pkt ++ s.cmdIn) = .incomplete →
    ∃ t, step s = .next t ∧ t = { s with pkt := s.pkt ++ s.cmdIn, cmdIn := [] } ∧ t.cmdReady = true ∧
      (∀ n, core.run n t = .next t) ∧
      ∀ bytes, step (t.hostSend bytes) = step (s.hostSend bytes)

/-- On an accepted configuration every step has a next state: no fault (R12, R180, R184), and no refusal, which is the model's choice where
the spec lets it refuse (log 10 to log 14); that a hung core has a next state too is the model's form (log 8). -/
def Obligations.AcceptedConfigurationNeverStops : Prop :=
  ∀ (s : State) (n : Nat), s.cfg.wf = true → ∃ t, core.run n s = .next t

/-- A configuration outside the constraints of R6, or with an ill-formed font, is refused (R131, U8, U15; log 15). -/
def Obligations.IllFormedConfigurationIsRefused : Prop :=
  ∀ (s : State), s.cfg.wf = false → step s = .refused .illFormedConfiguration

/-- Commands are executed one at a time in the order they arrive, each wholly before the next (R52, R60): of two packets at the port of an idle
core the first is run, and while it is in progress nothing of the second is taken; in the first idle state after it the second is run
on what the first has left. That the first packet and the second each take a step, and every pass or transport call between
them one, is the model's granularity (log 6). -/
def Obligations.CommandsRunInArrivalOrder : Prop :=
  ∀ (s t u : State) (i j : Instr) (rest : List Byte) (n : Nat), s.cfg.wf = true → s.cur = .idle → s.pkt = [] →
    i.wf = true → j.wf = true → s.cmdIn = encode i ++ encode j ++ rest →
    exec i { s with cmdIn := encode j ++ rest } = .next t →
    core.run n t = .next u → u.cur = .idle → (∀ m < n, ∀ v, core.run m t = .next v → v.cur ≠ .idle) →
    u.cmdIn = encode j ++ rest ∧ u.pkt = [] ∧ core.run (n + 2) s = exec j { u with cmdIn := rest }

/-! ## The framebuffer -/

/-- CLEAR (R90): in every DCS state the command begins, CUR holding it, and completes; then every byte of FB is 0x00 whatever it was before,
and nothing else has changed. That beginning and passes are steps is log 6. -/
def Obligations.ClearZeroesEveryByte : Prop :=
  EncodedAs .clear [0x10#8] ∧
  ∀ (s : State), s.cfg.wf = true → s.cur = .idle →
    ∃ u m, exec .clear s = .next u ∧ u.cur.command = some .clear ∧ Completes u { s with fb := m } ∧
      (∀ i, m.read i = 0x00) ∧ m.wf = true

/-- SET_PIXEL (R91, R92): the command begins, CUR holding it, and completes; in bounds, exactly the addressed bit has taken the colour; out of
bounds, every piece of state is unchanged. That beginning and pass are steps is log 6. -/
def Obligations.SetPixelWritesOneBit : Prop :=
  (∀ (c : Bool) (x0 x1 y0 y1 : Byte),
    EncodedAs (.setPixel c (halfOf x0 x1) (halfOf y0 y1)) [0x12#8 ||| colourBit c, x0, x1, y0, y1]) ∧
  ∀ (c : Bool) (x y : Half) (s : State), s.cfg.wf = true → s.fb.wf = true → s.cur = .idle →
    ∃ u m, exec (.setPixel c x y) s = .next u ∧ u.cur.command = some (.setPixel c x y) ∧ Completes u { s with fb := m } ∧
      (inBounds s.cfg (signedOperand x, signedOperand y) = true →
        PaintedExactly s.cfg c s.fb m (fun p => p = (signedOperand x, signedOperand y))) ∧
      (inBounds s.cfg (signedOperand x, signedOperand y) = false → m = s.fb)

/-- GET_BYTE (R94): the command begins, CUR holding it, and completes; it has appended GetByte(p, q) in range and 0x00 out of range (the spec's
choice, which the model follows instead of refusing: log 11), and changed nothing else. That beginning and pass are steps is log 6. -/
def Obligations.GetByteAppendsTheByte : Prop :=
  (∀ (p q0 q1 : Byte), EncodedAs (.getByte p (halfOf q0 q1)) [0x14#8, p, q0, q1]) ∧
  ∀ (p : Byte) (q : Half) (s : State), s.cfg.wf = true → s.cur = .idle →
    ∃ u, exec (.getByte p q) s = .next u ∧ u.cur.command = some (.getByte p q) ∧
      (p.toNat < s.cfg.pages ∧ q.toNat < s.cfg.width →
        Completes u { s with rsp := s.rsp ++ [s.fb.read (p.toNat * s.cfg.width + q.toNat)] }) ∧
      (¬ (p.toNat < s.cfg.pages ∧ q.toNat < s.cfg.width) → Completes u { s with rsp := s.rsp ++ [0x00] })

/-- When a SET_PIXEL is complete, a read of the containing page and column shows the bit at offset y mod 8 as the colour, and every other
bit is what it was; out of bounds the buffer is unchanged (R95). -/
def Obligations.SetPixelThenGetByteShowsTheBit : Prop :=
  ∀ (c : Bool) (x y : Half) (s u t : State), s.cfg.wf = true → s.fb.wf = true → s.cur = .idle →
    exec (.setPixel c x y) s = .next u → Completes u t →
    (inBounds s.cfg (signedOperand x, signedOperand y) = true →
      (t.fb.getByte s.cfg ((signedOperand y).toNat / 8) (signedOperand x).toNat).getLsbD ((signedOperand y).toNat % 8)
        = c ∧
      ∀ i k, k < 8 →
        ¬ (i = (signedOperand y).toNat / 8 * s.cfg.width + (signedOperand x).toNat ∧ k = (signedOperand y).toNat % 8) →
        bitAt t.fb i k = bitAt s.fb i k) ∧
    (inBounds s.cfg (signedOperand x, signedOperand y) = false → t.fb = s.fb)

/-- The index of a pixel in bounds is always inside FB, and so are its page and its bit inside theirs (R58). -/
def Obligations.PixelAddressIsInRange : Prop :=
  ∀ (cfg : Config) (p : Point), cfg.wf = true → inBounds cfg p = true →
    pixelIndex cfg p < cfg.size ∧ p.2.toNat / 8 < cfg.pages ∧ pixelBit p < 8 ∧ cfg.size = cfg.pages * cfg.width

/-- Every bit of every byte of FB is the pixel of exactly one point in bounds: no padding bits, no shared bits (R40, R43). -/
def Obligations.EveryBitIsOnePixel : Prop :=
  ∀ (cfg : Config) (i k : Nat), cfg.wf = true → i < cfg.size → k < 8 →
    ∃! p : Point, inBounds cfg p = true ∧ i = pixelIndex cfg p ∧ k = pixelBit p

/-- The canonical form is canonical: two stores in it that agree on every byte, and on what an unlisted byte reads as, are the same data
(model's form, log 3). -/
def Obligations.EqualReadsAreEqualStores : Prop :=
  ∀ (m m' : Framebuffer), m.wf = true → m'.wf = true → m.epoch = m'.epoch → m.cleared = m'.cleared →
    (∀ i, m.read i = m'.read i) → m = m'

/-! ## Lines -/

/-- DRAW_LINE (R100, R101): the command begins, CUR holding it, and completes; exactly the visible points of Line(x0, y0, x1, y1) have taken the
colour, and nothing else has changed. On the way, after `n` passes, the first `n` points are plotted and CUR's locals stand at the next one
(R24, R29). That the passes are steps is log 6, the form of the locals log 9. -/
def Obligations.DrawLinePaintsTheLine : Prop :=
  (∀ (c : Bool) (a0 a1 b0 b1 d0 d1 e0 e1 : Byte),
    EncodedAs (.drawLine c (halfOf a0 a1) (halfOf b0 b1) (halfOf d0 d1) (halfOf e0 e1))
      [0x20#8 ||| colourBit c, a0, a1, b0, b1, d0, d1, e0, e1]) ∧
  ∀ (c : Bool) (x0 y0 x1 y1 : Half) (s : State), s.cfg.wf = true → s.fb.wf = true → s.cur = .idle →
    ∃ u m, exec (.drawLine c x0 y0 x1 y1) s = .next u ∧ Completes u { s with fb := m } ∧
      PaintedExactly s.cfg c s.fb m
        (fun p => p ∈ linePoints (signedOperand x0) (signedOperand y0) (signedOperand x1) (signedOperand y1)) ∧
      ∀ (n : Nat) (p : Point),
        (linePoints (signedOperand x0) (signedOperand y0) (signedOperand x1) (signedOperand y1))[n]? = some p →
        ∃ line v, core.run n u = .next v ∧ line.point = p ∧ v = { s with
          fb := s.fb.plot s.cfg c
            ((linePoints (signedOperand x0) (signedOperand y0) (signedOperand x1) (signedOperand y1)).take n)
          cur := .working (.drawLine c x0 y0 x1 y1 line) }

/-- The line visits max(dx, dy) + 1 distinct points, from the canonical first endpoint to the other one, is 8-connected, and moves by exactly
1 along the longer axis on each pass (R102). Which points (R100, R104): from the first endpoint on, after k steps along the longer axis the
offset m along the shorter one is the nearest to the ideal line, the smaller of two equally near. -/
def Obligations.LineSpansItsEndpoints : Prop :=
  ∀ (x0 y0 x1 y1 : Int),
    (linePoints x0 y0 x1 y1).length = max (x1 - x0).natAbs (y1 - y0).natAbs + 1 ∧
    (linePoints x0 y0 x1 y1).Nodup ∧
    (linePoints x0 y0 x1 y1).head? = some (if endpointsSwapped x0 y0 x1 y1 then (x1, y1) else (x0, y0)) ∧
    (linePoints x0 y0 x1 y1).getLast? = some (if endpointsSwapped x0 y0 x1 y1 then (x0, y0) else (x1, y1)) ∧
    ((linePoints x0 y0 x1 y1).IsChain fun p q =>
      (q.1 - p.1).natAbs ≤ 1 ∧ (q.2 - p.2).natAbs ≤ 1 ∧
      ((y1 - y0).natAbs ≤ (x1 - x0).natAbs → q.1 - p.1 = 1) ∧
      ((x1 - x0).natAbs ≤ (y1 - y0).natAbs → (q.2 - p.2).natAbs = 1)) ∧
    (x0 < x1 ∨ (x0 = x1 ∧ y0 < y1) → ∀ (dx dy sy : Int), dx = (x1 - x0).natAbs → dy = (y1 - y0).natAbs →
      sy = (if y0 < y1 then 1 else -1) → ∀ k : Nat,
      (dy ≤ dx → (k : Int) ≤ dx → ∃ m : Int, (linePoints x0 y0 x1 y1)[k]? = some (x0 + k, y0 + sy * m) ∧
        dx * (2 * m - 1) < 2 * dy * k ∧ 2 * dy * k ≤ dx * (2 * m + 1)) ∧
      (dx < dy → (k : Int) ≤ dy → ∃ m : Int, (linePoints x0 y0 x1 y1)[k]? = some (x0 + m, y0 + sy * k) ∧
        dy * (2 * m - 1) < 2 * dx * k ∧ 2 * dx * k ≤ dy * (2 * m + 1)))

/-- Swapping the endpoints gives the same calls of SetPixel in the same order (R103), and so two commands that end in the same state. -/
def Obligations.LineIsSymmetric : Prop :=
  (∀ (x0 y0 x1 y1 : Int), linePoints x0 y0 x1 y1 = linePoints x1 y1 x0 y0) ∧
  ∀ (c : Bool) (x0 y0 x1 y1 : Half) (s : State), s.cfg.wf = true → s.cur = .idle →
    ∃ u u' t, exec (.drawLine c x0 y0 x1 y1) s = .next u ∧ exec (.drawLine c x1 y1 x0 y0) s = .next u' ∧
      Completes u t ∧ Completes u' t

/-- Which points: one per column when dx ≥ dy, one per row when dy > dx; and horizontal, vertical and 45-degree lines are the obvious
sets (R104). -/
def Obligations.TieFreeLinesAreTheObviousOnes : Prop :=
  (∀ (x0 y0 x1 y1 x : Int), (y1 - y0).natAbs ≤ (x1 - x0).natAbs → min x0 x1 ≤ x → x ≤ max x0 x1 →
    ∃! y, (x, y) ∈ linePoints x0 y0 x1 y1) ∧
  (∀ (x0 y0 x1 y1 y : Int), (x1 - x0).natAbs < (y1 - y0).natAbs → min y0 y1 ≤ y → y ≤ max y0 y1 →
    ∃! x, (x, y) ∈ linePoints x0 y0 x1 y1) ∧
  (∀ (x0 x1 y : Int) (p : Point),
    p ∈ linePoints x0 y x1 y ↔ p.2 = y ∧ min x0 x1 ≤ p.1 ∧ p.1 ≤ max x0 x1) ∧
  (∀ (x y0 y1 : Int) (p : Point),
    p ∈ linePoints x y0 x y1 ↔ p.1 = x ∧ min y0 y1 ≤ p.2 ∧ p.2 ≤ max y0 y1) ∧
  (∀ (x0 y0 : Int) (n : Nat) (p : Point),
    (p ∈ linePoints x0 y0 (x0 + n) (y0 + n) ↔ ∃ i : Nat, i ≤ n ∧ p = (x0 + i, y0 + i)) ∧
    (p ∈ linePoints x0 y0 (x0 + n) (y0 - n) ↔ ∃ i : Nat, i ≤ n ∧ p = (x0 + i, y0 - i)))

/-! ## Rectangles -/

/-- The clamp (R110): w' is min(w, W − x), negative exactly when w < 0 or x > W; the same for h'. -/
def Obligations.ClampIsNegativeExactlyOffBuffer : Prop :=
  ∀ (cfg : Config) (x y w h : Int),
    clampWidth cfg x w = min w (cfg.width - x) ∧ clampHeight cfg y h = min h (cfg.height - y) ∧
    (clampWidth cfg x w < 0 ↔ w < 0 ∨ x > cfg.width) ∧ (clampHeight cfg y h < 0 ↔ h < 0 ∨ y > cfg.height)

/-- DRAW_RECT (R111, R113): for w, h ≥ 0 the command begins and completes; exactly the visible points of the ideal outline have taken the
colour, clamped or not, and nothing else has changed; for a negative w or h the command is complete at once and every piece of state is
unchanged. That beginning and passes are steps is log 6. -/
def Obligations.DrawRectPaintsTheCroppedOutline : Prop :=
  (∀ (c : Bool) (a0 a1 b0 b1 d0 d1 e0 e1 : Byte),
    EncodedAs (.drawRect c (halfOf a0 a1) (halfOf b0 b1) (halfOf d0 d1) (halfOf e0 e1))
      [0x22#8 ||| colourBit c, a0, a1, b0, b1, d0, d1, e0, e1]) ∧
  ∀ (c : Bool) (x y w h : Half) (s : State), s.cfg.wf = true → s.fb.wf = true → s.cur = .idle →
    (signedOperand w < 0 ∨ signedOperand h < 0 → exec (.drawRect c x y w h) s = .next s) ∧
    (0 ≤ signedOperand w → 0 ≤ signedOperand h →
      ∃ u m, exec (.drawRect c x y w h) s = .next u ∧ Completes u { s with fb := m } ∧
        PaintedExactly s.cfg c s.fb m fun p =>
          (signedOperand x ≤ p.1 ∧ p.1 ≤ signedOperand x + signedOperand w) ∧
          (signedOperand y ≤ p.2 ∧ p.2 ≤ signedOperand y + signedOperand h) ∧
          (p.1 = signedOperand x ∨ p.1 = signedOperand x + signedOperand w ∨
            p.2 = signedOperand y ∨ p.2 = signedOperand y + signedOperand h))

/-- FILL_RECT (R112, R113, R114): for w, h ≥ 0 the command begins and completes; exactly the visible points of columns x to x + w and rows y to
y + h, both ends included, have taken the colour, and nothing else has changed; for a negative w or h the command is complete at once and
every piece of state is unchanged. That beginning and passes are steps is log 6. -/
def Obligations.FillRectPaintsTheCroppedArea : Prop :=
  (∀ (c : Bool) (a0 a1 b0 b1 d0 d1 e0 e1 : Byte),
    EncodedAs (.fillRect c (halfOf a0 a1) (halfOf b0 b1) (halfOf d0 d1) (halfOf e0 e1))
      [0x24#8 ||| colourBit c, a0, a1, b0, b1, d0, d1, e0, e1]) ∧
  ∀ (c : Bool) (x y w h : Half) (s : State), s.cfg.wf = true → s.fb.wf = true → s.cur = .idle →
    (signedOperand w < 0 ∨ signedOperand h < 0 → exec (.fillRect c x y w h) s = .next s) ∧
    (0 ≤ signedOperand w → 0 ≤ signedOperand h →
      ∃ u m, exec (.fillRect c x y w h) s = .next u ∧ Completes u { s with fb := m } ∧
        PaintedExactly s.cfg c s.fb m fun p =>
          (signedOperand x ≤ p.1 ∧ p.1 ≤ signedOperand x + signedOperand w) ∧
          (signedOperand y ≤ p.2 ∧ p.2 ≤ signedOperand y + signedOperand h))

/-- The document's scenario (R116), for every accepted size: after filling the whole buffer every byte is 0xFF, and a CLEAR then leaves
what a CLEAR alone leaves. -/
def Obligations.FillThenClearIsClear : Prop :=
  ∀ (s u t : State), s.cfg.wf = true → s.fb.wf = true → s.cur = .idle →
    exec (.fillRect true 0 0 (BitVec.ofNat 16 s.cfg.width) (BitVec.ofNat 16 s.cfg.height)) s = .next u → Completes u t →
    (∀ i, i < s.cfg.size → t.fb.read i = 0xFF) ∧
    ∃ v v' z, exec .clear t = .next v ∧ exec .clear s = .next v' ∧ Completes v z ∧ Completes v' z

/-! ## Circles -/

/-- The octant iteration (R120): empty for r < 0; else it begins at (0, r) and every pair is followed by the one the midpoint test gives, as
long as that one has x ≤ y and no longer; 0 ≤ x ≤ y ≤ r in every pair and there are at most r + 1; for r ≥ 1 the y of every pair is the row
nearest to the ideal circle in the column x. -/
def Obligations.OctantIterationIsAWalk : Prop :=
  ∀ (r : Int),
    (r < 0 → circleIter r = []) ∧
    (0 ≤ r →
      (circleIter r).head? = some (0, r) ∧
      (∀ p ∈ circleIter r, 0 ≤ p.1 ∧ p.1 ≤ p.2 ∧ p.2 ≤ r) ∧
      ((circleIter r).IsChain fun p q => q = midpointNext r p ∧ (q.2 = p.2 ∨ q.2 = p.2 - 1)) ∧
      ((circleIter r).length : Int) ≤ r + 1 ∧
      (∀ p, (circleIter r).getLast? = some p → (midpointNext r p).2 < (midpointNext r p).1) ∧
      (1 ≤ r → ∀ p ∈ circleIter r,
        p.1 * p.1 + p.2 * p.2 - p.2 < r * r ∧ r * r ≤ p.1 * p.1 + p.2 * p.2 + p.2))

/-- DRAW_CIRCLE (R121, R123): the command begins and completes; exactly the visible points of (x0, y0) + Ring(r) have taken the colour, and nothing
else has changed; for r < 0 it is complete at once, every piece of state unchanged. That beginning and passes are steps is log 6. -/
def Obligations.DrawCirclePaintsTheRing : Prop :=
  (∀ (c : Bool) (a0 a1 b0 b1 r0 r1 : Byte),
    EncodedAs (.drawCircle c (halfOf a0 a1) (halfOf b0 b1) (halfOf r0 r1))
      [0x26#8 ||| colourBit c, a0, a1, b0, b1, r0, r1]) ∧
  ∀ (c : Bool) (x0 y0 r : Half) (s : State), s.cfg.wf = true → s.fb.wf = true → s.cur = .idle →
    (signedOperand r < 0 → exec (.drawCircle c x0 y0 r) s = .next s) ∧
    ∃ u m, exec (.drawCircle c x0 y0 r) s = .next u ∧ Completes u { s with fb := m } ∧
      PaintedExactly s.cfg c s.fb m fun p =>
        ∃ q ∈ circleIter (signedOperand r), ∃ sx sy : Int, (sx = 1 ∨ sx = -1) ∧ (sy = 1 ∨ sy = -1) ∧
          (p = (signedOperand x0 + sx * q.1, signedOperand y0 + sy * q.2) ∨
            p = (signedOperand x0 + sx * q.2, signedOperand y0 + sy * q.1))

/-- FILL_CIRCLE (R122, R123): the command begins and completes; exactly the visible points of (x0, y0) + Disc(r) have taken the colour, and nothing
else has changed; for r < 0 it is complete at once, every piece of state unchanged. That beginning and passes are steps is log 6. -/
def Obligations.FillCirclePaintsTheDisc : Prop :=
  (∀ (c : Bool) (a0 a1 b0 b1 r0 r1 : Byte),
    EncodedAs (.fillCircle c (halfOf a0 a1) (halfOf b0 b1) (halfOf r0 r1))
      [0x28#8 ||| colourBit c, a0, a1, b0, b1, r0, r1]) ∧
  ∀ (c : Bool) (x0 y0 r : Half) (s : State), s.cfg.wf = true → s.fb.wf = true → s.cur = .idle →
    (signedOperand r < 0 → exec (.fillCircle c x0 y0 r) s = .next s) ∧
    ∃ u m, exec (.fillCircle c x0 y0 r) s = .next u ∧ Completes u { s with fb := m } ∧
      PaintedExactly s.cfg c s.fb m fun p =>
        ∃ q ∈ circleIter (signedOperand r),
          ((p.1 - signedOperand x0).natAbs ≤ q.1.natAbs ∧ (p.2 - signedOperand y0).natAbs = q.2.natAbs) ∨
          ((p.1 - signedOperand x0).natAbs ≤ q.2.natAbs ∧ (p.2 - signedOperand y0).natAbs = q.1.natAbs)

/-- Every pixel of the ring and of the disc lies within distance r + 0.5 of the centre, for every r (R124 (a), which the spec checked up
to 299 and did not prove). -/
def Obligations.CirclesStayWithinTheirRadius : Prop :=
  ∀ (r : Int) (p : Point), p ∈ ringPoints 0 0 r ∨ p ∈ discPoints 0 0 r → p.1 * p.1 + p.2 * p.2 ≤ r * r + r

/-- The ring is closed, for every r ≥ 1 (R124 (b), checked by the spec up to 299): each of its pixels has at least two 8-neighbours in it, and it
has "no gaps at octant boundaries", read so: any two of its pixels are joined by a path of 8-neighbours in it; neighbouring octants share
the axis pixel between them; and across each diagonal their last pixels are the same or 8-neighbours. -/
def Obligations.RingIsClosed : Prop :=
  ∀ (r : Int), 1 ≤ r →
    (∀ p, p ∈ ringPoints 0 0 r →
      ∃ q q' : Point, q ∈ ringPoints 0 0 r ∧ q' ∈ ringPoints 0 0 r ∧ q ≠ q' ∧ q ≠ p ∧ q' ≠ p ∧ Adjacent p q ∧ Adjacent p q') ∧
    (∀ p q, p ∈ ringPoints 0 0 r → q ∈ ringPoints 0 0 r →
      Relation.ReflTransGen (fun a b => a ∈ ringPoints 0 0 r ∧ b ∈ ringPoints 0 0 r ∧ Adjacent a b) p q) ∧
    ((0, r) ∈ ringPoints 0 0 r ∧ (0, -r) ∈ ringPoints 0 0 r ∧ (r, 0) ∈ ringPoints 0 0 r ∧ (-r, 0) ∈ ringPoints 0 0 r) ∧
    (∀ p, (circleIter r).getLast? = some p → ∀ sx sy : Int, (sx = 1 ∨ sx = -1) → (sy = 1 ∨ sy = -1) →
      (sx * p.1, sy * p.2) ∈ ringPoints 0 0 r ∧ (sx * p.2, sy * p.1) ∈ ringPoints 0 0 r ∧
      Adjacent (sx * p.1, sy * p.2) (sx * p.2, sy * p.1))

/-- The disc contains the ring; it has every row from −r to r; each row is one unbroken interval centred on the centre column, whose ends are
pixels of the ring; for every r ≥ 0 (R124 (c), (d), checked by the spec up to 299). -/
def Obligations.DiscRowsAreUnbroken : Prop :=
  ∀ (r : Int), 0 ≤ r →
    (∀ p, p ∈ ringPoints 0 0 r → p ∈ discPoints 0 0 r) ∧
    (∀ j : Int, (∃ i, (i, j) ∈ discPoints 0 0 r) ↔ -r ≤ j ∧ j ≤ r) ∧
    (∀ i i' j : Int, (i, j) ∈ discPoints 0 0 r → i'.natAbs ≤ i.natAbs → (i', j) ∈ discPoints 0 0 r) ∧
    (∀ i j : Int, 0 ≤ i → (i, j) ∈ discPoints 0 0 r → (i + 1, j) ∉ discPoints 0 0 r →
      (i, j) ∈ ringPoints 0 0 r ∧ (-i, j) ∈ ringPoints 0 0 r)

/-! ## Text -/

/-- Well-formedness of a font is the four conditions of R131; under them every byte a glyph reads is inside the record of its own glyph and
inside the table. -/
def Obligations.FontReadsStayInTheirRecord : Prop :=
  ∀ (F : Font),
    (F.wf = true ↔
      (F.asciiOffset.toNat ≤ F.asciiBegin.toNat ∧ F.asciiBegin.toNat ≤ F.asciiEnd.toNat ∧ F.asciiEnd.toNat ≤ 255) ∧
      (1 ≤ F.bytesPerColumn ∧ 1 ≤ F.glyphStride ∧ 1 ≤ F.interLetterSpacingDivisor ∧ 0 ≤ F.fontHeight) ∧
      (F.asciiEnd.toNat - F.asciiOffset.toNat + 1) * F.glyphStride ≤ F.table.length ∧
      (∀ code : Byte, F.supports code = true → 1 + F.glyphWidth code * F.bytesPerColumn ≤ F.glyphStride)) ∧
    (F.wf = true → ∀ (code : Byte), F.supports code = true →
      (F.glyphBase code < F.table.length ∧ F.glyphBase code + F.glyphStride ≤ F.table.length) ∧
      ∀ j b : Nat, j < F.glyphWidth code → b < F.bytesPerColumn →
        F.glyphBase code < F.glyphBase code + 1 + j * F.bytesPerColumn + b ∧
        F.glyphBase code + 1 + j * F.bytesPerColumn + b < F.glyphBase code + F.glyphStride)

/-- DRAW_CHAR (R132, R133): for a supported code of a known font the command begins and completes, and its glyph is drawn transparently, bit k of
the byte for column j and vertical byte b at (x + j, y + 8b + k), nothing else changed; for an unknown font number (log 14) and an
unsupported code it is complete at once, every piece of state unchanged. That beginning and passes are steps is log 6. -/
def Obligations.DrawCharPaintsTheGlyph : Prop :=
  (∀ (c : Bool) (x0 x1 y0 y1 font code : Byte),
    EncodedAs (.drawChar c (halfOf x0 x1) (halfOf y0 y1) font code)
      [0x30#8 ||| colourBit c, x0, x1, y0, y1, font, code]) ∧
  ∀ (c : Bool) (x y : Half) (font code : Byte) (s : State), s.cfg.wf = true → s.fb.wf = true → s.cur = .idle →
    (s.cfg.fonts.length ≤ font.toNat → exec (.drawChar c x y font code) s = .next s) ∧
    ∀ F, s.cfg.fonts[font.toNat]? = some F →
      ((code < F.asciiBegin ∨ F.asciiEnd < code) → exec (.drawChar c x y font code) s = .next s) ∧
      (F.asciiBegin ≤ code → code ≤ F.asciiEnd →
        ∃ u m, exec (.drawChar c x y font code) s = .next u ∧ Completes u { s with fb := m } ∧
          PaintedExactly s.cfg c s.fb m fun p =>
            ∃ j b k : Nat, j < F.glyphWidth code ∧ b < F.bytesPerColumn ∧ k < 8 ∧
              (F.byteAt (F.glyphBase code + 1 + j * F.bytesPerColumn + b)).getLsbD k = true ∧
              p = (signedOperand x + j, signedOperand y + b * 8 + k))

/-- DRAW_STRING (R134, R135): the command begins and completes; character i is drawn when the cursor before it is at a column < W and y < H, with
its top left corner there, the cursor being x plus the widths and gaps of the supported characters before it; an unsupported character
plots nothing and moves nothing; nothing else changes. On the way, before each character that no stop has dropped, CUR holds its index and
that cursor (R24, R29). For an unknown font number the command is complete at once, every piece of state unchanged (log 14). That
beginning and passes are steps is log 6, the form of the locals log 9. -/
def Obligations.DrawStringPaintsEachGlyph : Prop :=
  (∀ (c : Bool) (x0 x1 y0 y1 font : Byte) (text : List Byte), text.length ≤ 255 →
    EncodedAs (.drawString c (halfOf x0 x1) (halfOf y0 y1) font text)
      ([0x32#8 ||| colourBit c, x0, x1, y0, y1, font, BitVec.ofNat 8 text.length] ++ text)) ∧
  ∀ (c : Bool) (x y : Half) (font : Byte) (text : List Byte) (s : State), s.cfg.wf = true → s.fb.wf = true → s.cur = .idle →
    (s.cfg.font font = none → exec (.drawString c x y font text) s = .next s) ∧
    ∀ F, s.cfg.font font = some F →
      (∀ code, cursorAdvance s.cfg font code =
        if F.supports code then F.glyphWidth code + F.fontHeight / F.interLetterSpacingDivisor else 0) ∧
      ∃ u m, exec (.drawString c x y font text) s = .next u ∧ Completes u { s with fb := m } ∧
        (PaintedExactly s.cfg c s.fb m fun p =>
          ∃ (i : Nat) (code : Byte), text[i]? = some code ∧ F.supports code = true ∧
            signedOperand y < s.cfg.height ∧
            cursorBefore s.cfg font (signedOperand x) text i < s.cfg.width ∧
            p ∈ glyphPoints F code (cursorBefore s.cfg font (signedOperand x) text i) (signedOperand y)) ∧
        ∀ i ≤ text.length,
          (∀ j < i, signedOperand y < s.cfg.height ∧ cursorBefore s.cfg font (signedOperand x) text j < s.cfg.width) →
          ∃ n v, core.run n u = .next v ∧
            v.cur = .working (.drawString c x y font text i (cursorBefore s.cfg font (signedOperand x) text i) none)

/-- A glyph code outside the font's range advances nothing and plots nothing, and the string goes on with the next character (R135; the
document's property S5): with it and without it the command ends in the same state. -/
def Obligations.UnsupportedCharactersAreSkipped : Prop :=
  ∀ (c : Bool) (x y : Half) (font code : Byte) (front back : List Byte) (s : State) (F : Font), s.cfg.wf = true → s.cur = .idle →
    s.cfg.font font = some F → F.supports code = false →
    ∃ u u' t, exec (.drawString c x y font (front ++ code :: back)) s = .next u ∧
      exec (.drawString c x y font (front ++ back)) s = .next u' ∧ Completes u t ∧ Completes u' t

/-- FORMAT_PRINT (R139): the host keeps the first FMT_CAP characters and sends one DRAW_STRING, which always fits a packet. -/
def Obligations.FormatPrintIsOneCappedString : Prop :=
  ∀ (cfg : Config) (c : Bool) (x y : Half) (font : Byte) (formatted : List Byte), cfg.wf = true →
    ∃ text, formatPrintExpansion cfg c x y font formatted = .drawString c x y font text ∧
      (∃ dropped, formatted = text ++ dropped) ∧ text.length = min formatted.length cfg.fmtCap ∧
      (formatPrintExpansion cfg c x y font formatted).wf = true

/-! ## The display controller -/

/-- INIT (R151, R176): from Uninitialized the command begins, DCS at TransportReady and the `reset()` offered, the port not ready; with a transport
that accepts every call or as many calls as INIT makes, one step for each call appends one `reset()` and then every byte of the
fourteen steps of R152, in that order, as commands, and leaves DCS at On, the core idle and everything else as it was. In any other DCS
state INIT does nothing, whatever the transport (log 12). That the packet takes a step of its own before the calls is log 6. -/
def Obligations.InitSendsTheScript : Prop :=
  EncodedAs .init [0x40#8] ∧
  ∀ (s : State),
    initCalls s.cfg = .reset ::
      ([s.cfg.script.displayOff, s.cfg.script.clockDivider, s.cfg.script.multiplexRatio, s.cfg.script.offset, s.cfg.script.startLine,
        s.cfg.script.chargePumpEnable, s.cfg.script.segmentRemap, s.cfg.script.comScanDirection, s.cfg.script.comPinsConfig,
        s.cfg.script.contrast, s.cfg.script.precharge, s.cfg.script.normalInverseSelect, s.cfg.script.entireDisplayOnOverrideOff,
        s.cfg.script.displayOn].flatMap ScriptStep.bytes).map TxCall.cmd ∧
    (s.dcs = .uninitialized → ∃ k t, exec .init s = .next t ∧ t = { s with dcs := .transportReady, cur := .init k } ∧
      t.txOffered = some .reset ∧ t.cmdReady = false ∧
      (s.cfg.wf = true → s.transport = .fair →
        core.run (initCalls s.cfg).length t = .next { s with dcs := .on, tx := s.tx ++ initCalls s.cfg, cur := .idle }) ∧
      ∀ n, s.cfg.wf = true → s.transport = .accepts n → (initCalls s.cfg).length ≤ n →
        core.run (initCalls s.cfg).length t = .next { s with
          dcs := .on, tx := s.tx ++ initCalls s.cfg, cur := .idle, transport := .accepts (n - (initCalls s.cfg).length) }) ∧
    (s.dcs ≠ .uninitialized → exec .init s = .next s)

/-- FLUSH (R155, R176): with DCS at On the command begins, page 0's select command offered, the port not ready; with a transport that accepts every
call or as many calls as FLUSH makes, one step for each call appends, page 0 first, the page's select command, the two column commands
and the W bytes of the page, column 0 first, P × (3 + W) calls, and leaves the core idle and everything else as it was. In any other
DCS state FLUSH does nothing, whatever the transport (log 13); in no case does it change DCS. That the packet takes a step of its own
before the calls is log 6. -/
def Obligations.FlushSendsEveryPage : Prop :=
  EncodedAs .flush [0x42#8] ∧
  ∀ (s : State),
    (flushCalls s.cfg s.fb = (List.range s.cfg.pages).flatMap fun p =>
      [.cmd (s.cfg.pageSelectByte p), .cmd s.cfg.colLoCmd, .cmd s.cfg.colHiCmd] ++
      (List.range s.cfg.width).map fun q => .data (s.fb.read (p * s.cfg.width + q))) ∧
    (flushCalls s.cfg s.fb).length = s.cfg.pages * (3 + s.cfg.width) ∧
    (s.dcs = .on → s.cfg.wf = true → ∃ t, exec .flush s = .next t ∧ t = { s with cur := .flush 0 } ∧
      t.txOffered = some (.cmd (s.cfg.pageSelectByte 0)) ∧ t.cmdReady = false ∧
      (s.transport = .fair →
        core.run (s.cfg.pages * (3 + s.cfg.width)) t = .next { s with tx := s.tx ++ flushCalls s.cfg s.fb, cur := .idle }) ∧
      ∀ n, s.transport = .accepts n → s.cfg.pages * (3 + s.cfg.width) ≤ n →
        core.run (s.cfg.pages * (3 + s.cfg.width)) t = .next { s with
          tx := s.tx ++ flushCalls s.cfg s.fb, cur := .idle, transport := .accepts (n - s.cfg.pages * (3 + s.cfg.width)) }) ∧
    (s.dcs ≠ .on → exec .flush s = .next s) ∧
    (∀ t, exec .flush s = .next t → t.dcs = s.dcs)

/-- FLUSH's loop position (R24, R155): call number p × (3 + W) + j of a FLUSH is call j of page p: the page select command, the two column
commands, then the data bytes, column fastest. R24's position is (page, column); one index, and the place 0 to W + 2 in its page, are the
model's form of it (log 9). -/
def Obligations.FlushPositionNamesTheCall : Prop :=
  ∀ (cfg : Config) (m : Framebuffer) (p j : Nat), p < cfg.pages → j < 3 + cfg.width →
    flushPosition cfg (p * (3 + cfg.width) + j) = (p, j) ∧
    (flushCalls cfg m)[p * (3 + cfg.width) + j]? =
      some (if j = 0 then .cmd (cfg.pageSelectByte p) else if j = 1 then .cmd cfg.colLoCmd
        else if j = 2 then .cmd cfg.colHiCmd else .data (m.read (p * cfg.width + (j - 3))))

/-- The flush ordering (R155, R157), on an accepted configuration with a transport that accepts every call: the calls of one FLUSH are, page 0 first,
the page's select command, the two column commands and the page's W bytes of FB, and the data bytes alone are FB[0], FB[1], ...,
FB[N − 1]. That `exec` only begins FLUSH, the packet having a step of its own, and that one step of the core then makes each call (R176),
is the granularity of log 6; R157 speaks of no step. -/
def Obligations.FlushDataIsTheFramebuffer : Prop :=
  ∀ (s : State), s.cfg.wf = true → s.transport = .fair → s.cur = .idle → s.dcs = .on →
    ∃ t calls, exec .flush s = .next t ∧ core.run calls.length t = .next { s with tx := s.tx ++ calls } ∧
      calls = ((List.range s.cfg.pages).flatMap fun p =>
        [.cmd (s.cfg.pageSelectByte p), .cmd s.cfg.colLoCmd, .cmd s.cfg.colHiCmd] ++
        (List.range s.cfg.width).map fun q => .data (s.fb.read (p * s.cfg.width + q))) ∧
      calls.filterMap dataByte = (List.range s.cfg.size).map s.fb.read

/-- GET_STATUS (R25, R158): the command begins, CUR holding it, and completes; it has appended the status byte, whose bit 7 is (DCS = On), bits 6:3
zero and bits 2:0 the code of DCS, and changed nothing else; no command being in progress when it is taken, the only values the host can
receive are 0x00, before INIT, and 0x84, after it. That beginning and pass are steps is log 6. -/
def Obligations.GetStatusAppendsTheStatus : Prop :=
  EncodedAs .getStatus [0x44#8] ∧
  (∀ (s : State), s.cfg.wf = true → s.cur = .idle →
    ∃ (u : State) (b : Byte), exec .getStatus s = .next u ∧ u.cur.command = some .getStatus ∧
      Completes u { s with rsp := s.rsp ++ [b] } ∧
      b.toNat = 128 * (if s.dcs = .on then 1 else 0) + s.dcs.code ∧
      (b.getLsbD 7 = true ↔ s.dcs = .on) ∧
      b.getLsbD 6 = false ∧ b.getLsbD 5 = false ∧ b.getLsbD 4 = false ∧ b.getLsbD 3 = false) ∧
  ∀ (s u : State), GoodState s → s.cur = .idle → exec .getStatus s = .next u →
    (s.dcs = .uninitialized ∧ Completes u { s with rsp := s.rsp ++ [0x00] }) ∨
    (s.dcs = .on ∧ Completes u { s with rsp := s.rsp ++ [0x84] })

/-! ## Waiting on the transport -/

/-- INIT after `n` of its calls, fewer than it makes (R151, R176, R186): TX holds the calls completed so far, DCS the last value assigned, the core
offers the next call, the port is not ready, and nothing else has changed. With a transport that accepts every call the core is in that
state after `n` steps; with one that accepts `n` calls and is then never ready it stays there (log 8). The steps are those of log 6. -/
def Obligations.UnreadyTransportHoldsInit : Prop :=
  ∀ (s : State) (n : Nat), s.cfg.wf = true → s.dcs = .uninitialized → n < (initCalls s.cfg).length →
    ∃ k t u, exec .init s = .next t ∧
      u = { s with
        tx := s.tx ++ (initCalls s.cfg).take n
        dcs := if n = 0 then .transportReady
          else if n ≤ s.cfg.script.configurationBytes.length then .reset else .configurationScripted
        cur := .init k } ∧
      u.txOffered = (initCalls s.cfg)[n]? ∧ u.cmdReady = false ∧
      (s.transport = .fair → core.run n t = .next u) ∧
      (s.transport = .accepts n → ∀ w, core.run (n + w) t = .next (u.grantTransport (.accepts 0)))

/-- FLUSH after `n` of its calls, fewer than it makes (R155, R176, R186): TX holds the calls completed so far, the core offers the next call, the
port is not ready, and nothing else has changed. With a transport that accepts every call the core is in that state after `n` steps; with
one that accepts `n` calls and is then never ready it stays there (log 8). The steps are those of log 6. -/
def Obligations.UnreadyTransportHoldsFlush : Prop :=
  ∀ (s : State) (n : Nat), s.cfg.wf = true → s.dcs = .on → n < (flushCalls s.cfg s.fb).length →
    ∃ t u, exec .flush s = .next t ∧
      u = { s with tx := s.tx ++ (flushCalls s.cfg s.fb).take n, cur := .flush n } ∧
      u.txOffered = (flushCalls s.cfg s.fb)[n]? ∧ u.cmdReady = false ∧
      (s.transport = .fair → core.run n t = .next u) ∧
      (s.transport = .accepts n → ∀ w, core.run (n + w) t = .next (u.grantTransport (.accepts 0)))

/-- The hang (R176, R186): a core that waits on a transport that is never ready stays as it is for ever, whatever the host sends, its command port
not ready. That a step of the stuck core answers the same state is the model's choice (log 8). -/
def Obligations.HungCoreStaysAsItIs : Prop :=
  ∀ (s : State) (n : Nat) (bytes : List Byte), GoodState s → hung s = true →
    s.cmdReady = false ∧ core.run n (s.hostSend bytes) = .next (s.hostSend bytes)

/-- A wait that ends leaves no trace (R176): an INIT or FLUSH in progress that the transport holds after `n` more of its calls, for `w` steps, and
then lets go goes on as it would have gone on without the wait (a step that waits leaves the state as it is: log 8). With a transport that
accepts every call it completes, one step for each call it has left. Any command in progress completes then (R60, R102, R120,
R136: the loops end), TX grown by exactly the calls it had left. -/
def Obligations.WaitingLeavesNoTrace : Prop :=
  ∀ (s : State), GoodState s →
    (∀ n w, n < (callsLeft s).length →
      ∃ t, core.run (n + w) (s.grantTransport (.accepts n)) = .next t ∧ t.cur ≠ .idle ∧
        t.tx = s.tx ++ (callsLeft s).take n ∧ callsLeft t = (callsLeft s).drop n ∧
        ∀ m, core.run m (t.grantTransport .fair) = core.run (n + m) (s.grantTransport .fair)) ∧
    (callsLeft s ≠ [] → ∃ u, core.run (callsLeft s).length (s.grantTransport .fair) = .next u ∧ u.cur = .idle) ∧
    ∃ u, Completes (s.grantTransport .fair) u ∧ u.tx = s.tx ++ callsLeft s

/-- While a command is in progress the command port is not ready (R29). The core offers the transport a call exactly when the command is
INIT or FLUSH (R26, R177), the first it has left, and never a byte call and a reset call together. A transport call is a step of the core,
enabled only when the transport accepts (R176): that step appends the offered call, no other, and leaves FB, RSP, the configuration and the
port's bytes alone; a call that is not accepted is waited on. "Exactly" holds because an INIT or FLUSH in progress stands at one of its
calls (log 6, log 9), and a step that waits has a next state, the same one, by log 8. The signals are functions of the state between two
steps, in the form of log 23. -/
def Obligations.BusyCoreOffersOneCall : Prop :=
  ∀ (s : State), GoodState s →
    (s.cmdReady = false ↔ ∃ i, s.cur.command = some i) ∧
    ((s.txValid = true ∨ s.txRstReq = true) ↔ ∃ i, s.cur.command = some i ∧ drivesTransport i = true) ∧
    ¬ (s.txValid = true ∧ s.txRstReq = true) ∧
    s.txOffered = (callsLeft s).head? ∧
    ∀ c, s.txOffered = some c →
      (s.transport.accept = none → step s = .next s) ∧
      ∀ tr, s.transport.accept = some tr →
        ∃ t, step s = .next t ∧ t.tx = s.tx ++ [c] ∧ t.transport = tr ∧ callsLeft t = (callsLeft s).tail ∧
          t.fb = s.fb ∧ t.rsp = s.rsp ∧ t.cfg = s.cfg ∧ t.pkt = s.pkt ∧ t.cmdIn = s.cmdIn

/-! ## Invariants of the machine -/

/-- The state after the block reset holds the values of R31: DCS Uninitialized, STATUS 0x00, TX and RSP empty, no command in progress and the port
ready, for every configuration. The second clause is the model's: State.reset takes the default configuration (log 2) and the reset
count 0 (log 4). -/
def Obligations.ResetLeavesTheStatedValues : Prop :=
  (∀ (cfg : Config) (epoch : Nat),
    (State.afterReset cfg epoch).dcs = .uninitialized ∧ (State.afterReset cfg epoch).dcs.initialized = false ∧
    (State.afterReset cfg epoch).dcs.status = 0x00 ∧ (State.afterReset cfg epoch).tx = [] ∧
    (State.afterReset cfg epoch).rsp = [] ∧ (State.afterReset cfg epoch).cur = .idle ∧
    (State.afterReset cfg epoch).cmdReady = true ∧ (State.afterReset cfg epoch).pkt = [] ∧
    (State.afterReset cfg epoch).cfg = cfg) ∧
  State.reset = State.afterReset Config.standard 0

/-- FB after reset is unspecified (R31); the form of that free value is the model's (log 3): the byte GET_BYTE gives before any CLEAR is the free value of its index. -/
def Obligations.ResetContentIsTheFreeValue : Prop :=
  ∀ (cfg : Config) (epoch : Nat) (p : Byte) (q : Half), cfg.wf = true → p.toNat < cfg.pages → q.toNat < cfg.width →
    ∃ u, exec (.getByte p q) (State.afterReset cfg epoch) = .next u ∧
      Completes u { State.afterReset cfg epoch with rsp := [Config.powerOnByte epoch (p.toNat * cfg.width + q.toNat)] }

/-- The block reset (R200): from any state, also one in the middle of a command or hung on the transport, everything of the block is as after reset, the command in progress
and the partly received packet gone; what was held before leaves no trace. What stays is the model's form: the configuration (log 1), the
bytes the host offers and the transport agent (log 5), and the count of resets, one higher (log 4). -/
def Obligations.BlockResetForgets : Prop :=
  (∀ (s : State), s.blockReset =
    { State.afterReset s.cfg (s.fb.epoch + 1) with cmdIn := s.cmdIn, transport := s.transport }) ∧
  ∀ (s s' : State), s.cfg = s'.cfg → s.fb.epoch = s'.fb.epoch → s.cmdIn = s'.cmdIn → s.transport = s'.transport →
    s.blockReset = s'.blockReset

/-- The invariant holds after the block reset of every accepted configuration, and in the state after reset. -/
def Obligations.GoodStateAfterReset : Prop :=
  (∀ (cfg : Config) (epoch : Nat), cfg.wf = true → GoodState (State.afterReset cfg epoch)) ∧ GoodState State.reset

/-- Every step keeps the invariant. -/
def Obligations.StepKeepsGoodState : Prop :=
  ∀ (s t : State), GoodState s → step s = .next t → GoodState t

/-- What the host and the transport do between steps, and the block reset, keep the invariant. -/
def Obligations.OutsideMovesKeepGoodState : Prop :=
  ∀ (s : State), GoodState s →
    (∀ bytes, GoodState (s.hostSend bytes)) ∧ (∀ b t, s.hostTake = some (b, t) → GoodState t) ∧
    (∀ tr, GoodState (s.grantTransport tr)) ∧ GoodState s.blockReset

/-- Every step keeps the canonical form of FB, whatever the rest of the state (model's form, log 3). -/
def Obligations.StepKeepsCanonicalStore : Prop :=
  ∀ (s t : State), s.fb.wf = true → step s = .next t → t.fb.wf = true

/-- No step changes the configuration or the font tables (R27, R56), nor the count of block resets. -/
def Obligations.StepKeepsConfiguration : Prop :=
  ∀ (s t : State), step s = .next t → t.cfg = s.cfg ∧ t.fb.epoch = s.fb.epoch

/-- DCS never moves backward, only ever one place to the right, and only during INIT; nothing but the block reset moves it away from On (R22,
R150). That a step makes one move at most is the granularity of log 6. -/
def Obligations.DcsNeverMovesBackward : Prop :=
  ∀ (s t : State), GoodState s → step s = .next t →
    s.dcs.code ≤ t.dcs.code ∧ t.dcs.code ≤ s.dcs.code + 1 ∧ (t.dcs ≠ s.dcs → ∃ k, s.cur = .init k ∨ t.cur = .init k) ∧
    (s.dcs = .on → t.dcs = .on) ∧ s.blockReset.dcs = .uninitialized

/-- TX only grows (R26), by at most one call a step (R176), and it begins with its one `reset()` call: no call comes before INIT, and none after the
first is a `reset()` (R173, R178). What a step is, is the granularity of log 6. -/
def Obligations.TraceBeginsWithItsOneReset : Prop :=
  ∀ (s t : State), GoodState s → step s = .next t →
    s.tx <+: t.tx ∧ t.tx.length ≤ s.tx.length + 1 ∧ (t.tx = [] ∨ ∃ calls, t.tx = .reset :: calls ∧ TxCall.reset ∉ calls)

/-- Who touches what (R3, R20, R26, R28). A command that begins changes CUR alone, INIT DCS too. While it is in progress CUR stays with it, opcode and
operands, until it is complete (R29), and each step, like the whole command, touches no more than this: a command that is not INIT or FLUSH
changes neither DCS nor TX nor the transport; INIT and FLUSH change neither FB nor RSP, FLUSH not DCS; only GET_BYTE and GET_STATUS
change RSP, by one byte appended in all, and they do not change FB; no command touches the port's bytes. The host takes the bytes
of RSP from the front, in order (R28), and only between commands: while one is in progress the block offers it none (R49; the form of that is
log 22). What a step is, is the granularity of log 6. -/
def Obligations.CommandsTouchOnlyTheirOwnState : Prop :=
  (∀ (i : Instr) (s t : State), exec i s = .next t →
    t.cfg = s.cfg ∧ t.fb = s.fb ∧ t.tx = s.tx ∧ t.rsp = s.rsp ∧ t.pkt = s.pkt ∧ t.cmdIn = s.cmdIn ∧ t.transport = s.transport ∧
    (i ≠ .init → t.dcs = s.dcs)) ∧
  (∀ (i : Instr) (s t : State), s.cur.command = some i → step s = .next t →
    (t.cur.command = some i ∨ t.cur = .idle) ∧
    (drivesTransport i = false → t.dcs = s.dcs ∧ t.tx = s.tx ∧ t.transport = s.transport) ∧
    (drivesTransport i = true → t.fb = s.fb ∧ t.rsp = s.rsp) ∧
    (i = .flush → t.dcs = s.dcs) ∧
    (responds i = false → t.rsp = s.rsp) ∧
    (responds i = true → t.fb = s.fb) ∧
    t.cfg = s.cfg ∧ t.pkt = s.pkt ∧ t.cmdIn = s.cmdIn) ∧
  (∀ (i : Instr) (s u t : State), s.cur = .idle → exec i s = .next u → Completes u t →
    (drivesTransport i = false → t.dcs = s.dcs ∧ t.tx = s.tx ∧ t.transport = s.transport) ∧
    (drivesTransport i = true → t.fb = s.fb ∧ t.rsp = s.rsp) ∧
    (i = .flush → t.dcs = s.dcs) ∧
    (responds i = false → t.rsp = s.rsp) ∧
    (responds i = true → t.fb = s.fb ∧ ∃ b, t.rsp = s.rsp ++ [b]) ∧
    t.cfg = s.cfg ∧ t.pkt = s.pkt ∧ t.cmdIn = s.cmdIn) ∧
  ∀ (s : State),
    (s.cur ≠ .idle → s.rspOffered = none ∧ s.hostTake = none) ∧
    (s.rsp = [] → s.rspOffered = none ∧ s.hostTake = none) ∧
    ∀ b rest, s.cur = .idle → s.rsp = b :: rest → s.rspOffered = some b ∧ s.hostTake = some (b, { s with rsp := rest })

/-- What a drawing command does to FB does not depend on the controller, the trace, the responses or the transport (R159: drawing is legal in every
DCS state). -/
def Obligations.DrawingIgnoresTheController : Prop :=
  ∀ (i : Instr) (s s' u u' : State), drivesTransport i = false → s.cfg.wf = true → s.cfg = s'.cfg → s.fb = s'.fb →
    s.cur = .idle → s'.cur = .idle → exec i s = .next u → exec i s' = .next u' →
    ∃ t t', Completes u t ∧ Completes u' t' ∧ t.fb = t'.fb
end

