-- ==== Sys2Proof/Laws/State.lean ====
section
/-! SUPPORT. One lemma per field per update of the state, true by definition, so that no proof unfolds a record update. -/

namespace Sys2Proof.Machine

variable (s : State)

/-! ### `State.plot` -/

@[simp] theorem State.plot_cfg (c : Bool) (ps : List Point) : (s.plot c ps).cfg = s.cfg := rfl
@[simp] theorem State.plot_fb (c : Bool) (ps : List Point) : (s.plot c ps).fb = s.fb.plot s.cfg c ps := rfl
@[simp] theorem State.plot_dcs (c : Bool) (ps : List Point) : (s.plot c ps).dcs = s.dcs := rfl
@[simp] theorem State.plot_tx (c : Bool) (ps : List Point) : (s.plot c ps).tx = s.tx := rfl
@[simp] theorem State.plot_rsp (c : Bool) (ps : List Point) : (s.plot c ps).rsp = s.rsp := rfl
@[simp] theorem State.plot_cur (c : Bool) (ps : List Point) : (s.plot c ps).cur = s.cur := rfl
@[simp] theorem State.plot_pkt (c : Bool) (ps : List Point) : (s.plot c ps).pkt = s.pkt := rfl
@[simp] theorem State.plot_cmdIn (c : Bool) (ps : List Point) : (s.plot c ps).cmdIn = s.cmdIn := rfl
@[simp] theorem State.plot_transport (c : Bool) (ps : List Point) : (s.plot c ps).transport = s.transport := rfl

/-! ### `State.begin`, `State.pass` -/

@[simp] theorem State.begin_none : s.begin none = s := rfl
@[simp] theorem State.begin_some_cur (w : Work) : (s.begin (some w)).cur = .working w := rfl
@[simp] theorem State.begin_cfg (w : Option Work) : (s.begin w).cfg = s.cfg := by cases w <;> rfl
@[simp] theorem State.begin_fb (w : Option Work) : (s.begin w).fb = s.fb := by cases w <;> rfl
@[simp] theorem State.begin_dcs (w : Option Work) : (s.begin w).dcs = s.dcs := by cases w <;> rfl
@[simp] theorem State.begin_tx (w : Option Work) : (s.begin w).tx = s.tx := by cases w <;> rfl
@[simp] theorem State.begin_rsp (w : Option Work) : (s.begin w).rsp = s.rsp := by cases w <;> rfl
@[simp] theorem State.begin_pkt (w : Option Work) : (s.begin w).pkt = s.pkt := by cases w <;> rfl
@[simp] theorem State.begin_cmdIn (w : Option Work) : (s.begin w).cmdIn = s.cmdIn := by cases w <;> rfl
@[simp] theorem State.begin_transport (w : Option Work) : (s.begin w).transport = s.transport := by cases w <;> rfl
@[simp] theorem State.pass_cfg (c : Bool) (p : Pass) : (s.pass c p).cfg = s.cfg := rfl
@[simp] theorem State.pass_fb (c : Bool) (p : Pass) : (s.pass c p).fb = s.fb.plot s.cfg c p.point.toList := rfl
@[simp] theorem State.pass_dcs (c : Bool) (p : Pass) : (s.pass c p).dcs = s.dcs := rfl
@[simp] theorem State.pass_tx (c : Bool) (p : Pass) : (s.pass c p).tx = s.tx := rfl
@[simp] theorem State.pass_rsp (c : Bool) (p : Pass) : (s.pass c p).rsp = s.rsp := rfl
@[simp] theorem State.pass_pkt (c : Bool) (p : Pass) : (s.pass c p).pkt = s.pkt := rfl
@[simp] theorem State.pass_cmdIn (c : Bool) (p : Pass) : (s.pass c p).cmdIn = s.cmdIn := rfl
@[simp] theorem State.pass_transport (c : Bool) (p : Pass) : (s.pass c p).transport = s.transport := rfl
@[simp] theorem State.pass_cur (c : Bool) (p : Pass) : (s.pass c p).cur = Cur.ofWork p.next := rfl

/-! ### `State.respond` -/

@[simp] theorem State.respond_cfg (b : Byte) : (s.respond b).cfg = s.cfg := rfl
@[simp] theorem State.respond_fb (b : Byte) : (s.respond b).fb = s.fb := rfl
@[simp] theorem State.respond_dcs (b : Byte) : (s.respond b).dcs = s.dcs := rfl
@[simp] theorem State.respond_tx (b : Byte) : (s.respond b).tx = s.tx := rfl
@[simp] theorem State.respond_rsp (b : Byte) : (s.respond b).rsp = s.rsp ++ [b] := rfl
@[simp] theorem State.respond_cur (b : Byte) : (s.respond b).cur = s.cur := rfl
@[simp] theorem State.respond_pkt (b : Byte) : (s.respond b).pkt = s.pkt := rfl
@[simp] theorem State.respond_cmdIn (b : Byte) : (s.respond b).cmdIn = s.cmdIn := rfl
@[simp] theorem State.respond_transport (b : Byte) : (s.respond b).transport = s.transport := rfl

/-! ### `State.packetTaken` -/

@[simp] theorem State.packetTaken_cfg (rest : List Byte) : (s.packetTaken rest).cfg = s.cfg := rfl
@[simp] theorem State.packetTaken_fb (rest : List Byte) : (s.packetTaken rest).fb = s.fb := rfl
@[simp] theorem State.packetTaken_dcs (rest : List Byte) : (s.packetTaken rest).dcs = s.dcs := rfl
@[simp] theorem State.packetTaken_tx (rest : List Byte) : (s.packetTaken rest).tx = s.tx := rfl
@[simp] theorem State.packetTaken_rsp (rest : List Byte) : (s.packetTaken rest).rsp = s.rsp := rfl
@[simp] theorem State.packetTaken_cur (rest : List Byte) : (s.packetTaken rest).cur = s.cur := rfl
@[simp] theorem State.packetTaken_pkt (rest : List Byte) : (s.packetTaken rest).pkt = [] := rfl
@[simp] theorem State.packetTaken_cmdIn (rest : List Byte) : (s.packetTaken rest).cmdIn = rest := rfl
@[simp] theorem State.packetTaken_transport (rest : List Byte) : (s.packetTaken rest).transport = s.transport := rfl

/-! ### `State.awaitPacket` -/

@[simp] theorem State.awaitPacket_cfg : (s.awaitPacket).cfg = s.cfg := rfl
@[simp] theorem State.awaitPacket_fb : (s.awaitPacket).fb = s.fb := rfl
@[simp] theorem State.awaitPacket_dcs : (s.awaitPacket).dcs = s.dcs := rfl
@[simp] theorem State.awaitPacket_tx : (s.awaitPacket).tx = s.tx := rfl
@[simp] theorem State.awaitPacket_rsp : (s.awaitPacket).rsp = s.rsp := rfl
@[simp] theorem State.awaitPacket_cur : (s.awaitPacket).cur = s.cur := rfl
@[simp] theorem State.awaitPacket_pkt : (s.awaitPacket).pkt = s.incoming := rfl
@[simp] theorem State.awaitPacket_cmdIn : (s.awaitPacket).cmdIn = [] := rfl
@[simp] theorem State.awaitPacket_transport : (s.awaitPacket).transport = s.transport := rfl

/-! ### `State.withPacket` -/

@[simp] theorem State.withPacket_cfg (packet : List Byte) : (s.withPacket packet).cfg = s.cfg := rfl
@[simp] theorem State.withPacket_fb (packet : List Byte) : (s.withPacket packet).fb = s.fb := rfl
@[simp] theorem State.withPacket_dcs (packet : List Byte) : (s.withPacket packet).dcs = s.dcs := rfl
@[simp] theorem State.withPacket_tx (packet : List Byte) : (s.withPacket packet).tx = s.tx := rfl
@[simp] theorem State.withPacket_rsp (packet : List Byte) : (s.withPacket packet).rsp = s.rsp := rfl
@[simp] theorem State.withPacket_cur (packet : List Byte) : (s.withPacket packet).cur = .idle := rfl
@[simp] theorem State.withPacket_pkt (packet : List Byte) : (s.withPacket packet).pkt = [] := rfl
@[simp] theorem State.withPacket_cmdIn (packet : List Byte) : (s.withPacket packet).cmdIn = packet ++ s.cmdIn := rfl
@[simp] theorem State.withPacket_transport (packet : List Byte) : (s.withPacket packet).transport =
    s.transport := rfl

/-! ### `State.hostSend` -/

@[simp] theorem State.hostSend_cfg (bytes : List Byte) : (s.hostSend bytes).cfg = s.cfg := rfl
@[simp] theorem State.hostSend_fb (bytes : List Byte) : (s.hostSend bytes).fb = s.fb := rfl
@[simp] theorem State.hostSend_dcs (bytes : List Byte) : (s.hostSend bytes).dcs = s.dcs := rfl
@[simp] theorem State.hostSend_tx (bytes : List Byte) : (s.hostSend bytes).tx = s.tx := rfl
@[simp] theorem State.hostSend_rsp (bytes : List Byte) : (s.hostSend bytes).rsp = s.rsp := rfl
@[simp] theorem State.hostSend_cur (bytes : List Byte) : (s.hostSend bytes).cur = s.cur := rfl
@[simp] theorem State.hostSend_pkt (bytes : List Byte) : (s.hostSend bytes).pkt = s.pkt := rfl
@[simp] theorem State.hostSend_cmdIn (bytes : List Byte) : (s.hostSend bytes).cmdIn = s.cmdIn ++ bytes := rfl
@[simp] theorem State.hostSend_transport (bytes : List Byte) : (s.hostSend bytes).transport = s.transport := rfl

/-! ### `State.grantTransport` -/

@[simp] theorem State.grantTransport_cfg (t : Transport) : (s.grantTransport t).cfg = s.cfg := rfl
@[simp] theorem State.grantTransport_fb (t : Transport) : (s.grantTransport t).fb = s.fb := rfl
@[simp] theorem State.grantTransport_dcs (t : Transport) : (s.grantTransport t).dcs = s.dcs := rfl
@[simp] theorem State.grantTransport_tx (t : Transport) : (s.grantTransport t).tx = s.tx := rfl
@[simp] theorem State.grantTransport_rsp (t : Transport) : (s.grantTransport t).rsp = s.rsp := rfl
@[simp] theorem State.grantTransport_cur (t : Transport) : (s.grantTransport t).cur = s.cur := rfl
@[simp] theorem State.grantTransport_pkt (t : Transport) : (s.grantTransport t).pkt = s.pkt := rfl
@[simp] theorem State.grantTransport_cmdIn (t : Transport) : (s.grantTransport t).cmdIn = s.cmdIn := rfl
@[simp] theorem State.grantTransport_transport (t : Transport) : (s.grantTransport t).transport = t := rfl

/-! ### `State.blockReset` -/

@[simp] theorem State.blockReset_cfg : (s.blockReset).cfg = s.cfg := rfl
@[simp] theorem State.blockReset_fb : (s.blockReset).fb = Framebuffer.afterReset (s.fb.epoch + 1) := rfl
@[simp] theorem State.blockReset_dcs : (s.blockReset).dcs = .uninitialized := rfl
@[simp] theorem State.blockReset_tx : (s.blockReset).tx = [] := rfl
@[simp] theorem State.blockReset_rsp : (s.blockReset).rsp = [] := rfl
@[simp] theorem State.blockReset_cur : (s.blockReset).cur = .idle := rfl
@[simp] theorem State.blockReset_pkt : (s.blockReset).pkt = [] := rfl
@[simp] theorem State.blockReset_cmdIn : (s.blockReset).cmdIn = s.cmdIn := rfl
@[simp] theorem State.blockReset_transport : (s.blockReset).transport = s.transport := rfl

/-! ### `State.offerFrom` -/

@[simp] theorem State.offerFrom_cfg (l : List ControllerAction) (busy : Nat → Cur) (k : Nat) :
    (s.offerFrom l busy k).cfg = s.cfg := rfl
@[simp] theorem State.offerFrom_fb (l : List ControllerAction) (busy : Nat → Cur) (k : Nat) :
    (s.offerFrom l busy k).fb = s.fb := rfl
@[simp] theorem State.offerFrom_dcs (l : List ControllerAction) (busy : Nat → Cur) (k : Nat) :
    (s.offerFrom l busy k).dcs = (nextCall k s.dcs (l.drop k)).1 := rfl
@[simp] theorem State.offerFrom_tx (l : List ControllerAction) (busy : Nat → Cur) (k : Nat) :
    (s.offerFrom l busy k).tx = s.tx := rfl
@[simp] theorem State.offerFrom_rsp (l : List ControllerAction) (busy : Nat → Cur) (k : Nat) :
    (s.offerFrom l busy k).rsp = s.rsp := rfl
@[simp] theorem State.offerFrom_cur (l : List ControllerAction) (busy : Nat → Cur) (k : Nat) :
    (s.offerFrom l busy k).cur = (nextCall k s.dcs (l.drop k)).2.elim .idle busy := rfl
@[simp] theorem State.offerFrom_pkt (l : List ControllerAction) (busy : Nat → Cur) (k : Nat) :
    (s.offerFrom l busy k).pkt = s.pkt := rfl
@[simp] theorem State.offerFrom_cmdIn (l : List ControllerAction) (busy : Nat → Cur) (k : Nat) :
    (s.offerFrom l busy k).cmdIn = s.cmdIn := rfl
@[simp] theorem State.offerFrom_transport (l : List ControllerAction) (busy : Nat → Cur) (k : Nat) :
    (s.offerFrom l busy k).transport = s.transport := rfl

/-! ### `State.stepController`, the fields it never changes -/

@[simp] theorem State.stepController_cfg (l : List ControllerAction) (busy : Nat → Cur) (k : Nat) :
    (s.stepController l busy k).cfg = s.cfg := by
  unfold State.stepController; split <;> (try split) <;> rfl
@[simp] theorem State.stepController_fb (l : List ControllerAction) (busy : Nat → Cur) (k : Nat) :
    (s.stepController l busy k).fb = s.fb := by
  unfold State.stepController; split <;> (try split) <;> rfl
@[simp] theorem State.stepController_rsp (l : List ControllerAction) (busy : Nat → Cur) (k : Nat) :
    (s.stepController l busy k).rsp = s.rsp := by
  unfold State.stepController; split <;> (try split) <;> rfl
@[simp] theorem State.stepController_pkt (l : List ControllerAction) (busy : Nat → Cur) (k : Nat) :
    (s.stepController l busy k).pkt = s.pkt := by
  unfold State.stepController; split <;> (try split) <;> rfl
@[simp] theorem State.stepController_cmdIn (l : List ControllerAction) (busy : Nat → Cur) (k : Nat) :
    (s.stepController l busy k).cmdIn = s.cmdIn := by
  unfold State.stepController; split <;> (try split) <;> rfl

/-! ### `State.rspOffered`, `State.hostTake` -/

/-- Whatever the host takes, it takes between commands, from the front of RSP, and nothing else changes. -/
theorem State.hostTake_eq_some {s t : State} {b : Byte} (h : s.hostTake = some (b, t)) :
    s.cur = .idle ∧ s.rspOffered = some b ∧ s.rsp = b :: t.rsp ∧ t = { s with rsp := t.rsp } := by
  obtain ⟨c, hc, e⟩ := Option.map_eq_some_iff.1 h
  cases e
  refine ⟨?_, hc, ?_, rfl⟩ <;> (unfold State.rspOffered at hc; split at hc <;> simp_all [State.cmdReady])
  cases hr : s.rsp <;> simp_all

/-! ### `Framebuffer.write`, `Framebuffer.clear`, `Framebuffer.afterReset` -/

@[simp] theorem Framebuffer.write_epoch (m : Framebuffer) (i : Nat) (v : Byte) : (m.write i v).epoch = m.epoch := rfl
@[simp] theorem Framebuffer.write_cleared (m : Framebuffer) (i : Nat) (v : Byte) : (m.write i v).cleared = m.cleared := rfl
@[simp] theorem Framebuffer.write_unlisted (m : Framebuffer) (i : Nat) (v : Byte) :
    (m.write i v).unlisted = m.unlisted := rfl
@[simp] theorem Framebuffer.clear_epoch (m : Framebuffer) : m.clear.epoch = m.epoch := rfl
@[simp] theorem Framebuffer.clear_cleared (m : Framebuffer) : m.clear.cleared = true := rfl
@[simp] theorem Framebuffer.clear_cells (m : Framebuffer) : m.clear.cells = [] := rfl
@[simp] theorem Framebuffer.afterReset_epoch (e : Nat) : (Framebuffer.afterReset e).epoch = e := rfl
@[simp] theorem Framebuffer.afterReset_cleared (e : Nat) : (Framebuffer.afterReset e).cleared = false := rfl
@[simp] theorem Framebuffer.afterReset_cells (e : Nat) : (Framebuffer.afterReset e).cells = [] := rfl

end Sys2Proof.Machine
end

