-- ==== Sys2Proof/Laws/Transport.lean ====
section
/-! SUPPORT. Everything a controller sequence can do up to its next transport call: it offers that call, or it is complete
(spec/46_transport.md R176). -/

namespace Sys2Proof.Machine

open Sys2Proof.Safety

@[simp] theorem accept_fair : Transport.accept .fair = some .fair := rfl
@[simp] theorem accept_accepts_zero : (Transport.accepts 0).accept = none := rfl
@[simp] theorem accept_accepts_succ (n : Nat) : (Transport.accepts (n + 1)).accept = some (.accepts n) := rfl

@[simp] theorem callsOf_nil : callsOf [] = [] := rfl
@[simp] theorem callsOf_enter (d : Dcs) (l : List ControllerAction) : callsOf (.enter d :: l) = callsOf l := rfl
@[simp] theorem callsOf_send (c : TxCall) (l : List ControllerAction) : callsOf (.send c :: l) = c :: callsOf l := rfl
@[simp] theorem callsOf_append (l l' : List ControllerAction) : callsOf (l ++ l') = callsOf l ++ callsOf l' :=
  List.filterMap_append
@[simp] theorem callsOf_map_send (l : List TxCall) : callsOf (l.map .send) = l := by
  induction l with
  | nil => rfl
  | cons c l ih => simp [ih]

@[simp] theorem dcsAfter_nil (d : Dcs) : dcsAfter d [] = d := rfl
@[simp] theorem dcsAfter_enter (d d' : Dcs) (l : List ControllerAction) : dcsAfter d (.enter d' :: l) = dcsAfter d' l := rfl
@[simp] theorem dcsAfter_send (d : Dcs) (c : TxCall) (l : List ControllerAction) :
    dcsAfter d (.send c :: l) = dcsAfter d l := rfl
theorem dcsAfter_append (d : Dcs) (l l' : List ControllerAction) : dcsAfter d (l ++ l') = dcsAfter (dcsAfter d l) l' := by
  induction l generalizing d with
  | nil => rfl
  | cons a l ih => cases a <;> simp [ih]
@[simp] theorem dcsAfter_map_send (d : Dcs) (l : List TxCall) : dcsAfter d (l.map .send) = d := by
  induction l with
  | nil => rfl
  | cons c l ih => simp [ih]

@[simp] theorem nextCall_nil (k : Nat) (d : Dcs) : nextCall k d [] = (d, none) := rfl
@[simp] theorem nextCall_enter (k : Nat) (d d' : Dcs) (l : List ControllerAction) :
    nextCall k d (.enter d' :: l) = nextCall (k + 1) d' l := rfl
@[simp] theorem nextCall_send (k : Nat) (d : Dcs) (c : TxCall) (l : List ControllerAction) :
    nextCall k d (.send c :: l) = (d, some k) := rfl
@[simp] theorem nextCall_map_send (k : Nat) (d : Dcs) (l : List TxCall) :
    nextCall k d (l.map .send) = (d, if l = [] then none else some k) := by
  cases l <;> rfl

/-- A sequence without calls is carried out whole; any other up to its first call. -/
theorem nextCall_cases (k : Nat) (d : Dcs) (l : List ControllerAction) :
    (callsOf l = [] ∧ nextCall k d l = (dcsAfter d l, none)) ∨
    ∃ done c rest, l = done ++ .send c :: rest ∧ callsOf done = [] ∧
      nextCall k d l = (dcsAfter d done, some (k + done.length)) := by
  induction l generalizing k d with
  | nil => exact .inl ⟨rfl, rfl⟩
  | cons a l ih =>
    cases a with
    | enter d' =>
      rcases ih (k + 1) d' with ⟨h1, h⟩ | ⟨done, c, rest, rfl, hd, h⟩
      · exact .inl ⟨h1, h⟩
      · exact .inr ⟨.enter d' :: done, c, rest, rfl, hd, by simp [h]; omega⟩
    | send c => exact .inr ⟨[], c, l, rfl, rfl, rfl⟩

/-- The calls of INIT's sequence are `initCalls` (spec/45_display_controller.md R151). -/
theorem callsOf_initSequence (cfg : Config) : callsOf (initSequence cfg) = initCalls cfg := by
  have h (l : List Byte) : l.map (fun b => ControllerAction.send (.cmd b)) = (l.map TxCall.cmd).map .send := by
    simp [List.map_map, Function.comp_def]
  simp only [initSequence, initCalls, h, List.cons_append, List.nil_append, callsOf_enter, callsOf_send, callsOf_append,
    callsOf_map_send, callsOf_nil, List.append_nil, List.map_append]

/-- INIT's sequence leaves DCS at On. -/
theorem dcsAfter_initSequence (d : Dcs) (cfg : Config) : dcsAfter d (initSequence cfg) = .on := by
  simp [initSequence, dcsAfter_append]

/-- The calls of FLUSH's sequence are `flushCalls`, and it assigns nothing to DCS. -/
@[simp] theorem callsOf_flushSequence (cfg : Config) (m : Framebuffer) :
    callsOf (flushSequence cfg m) = flushCalls cfg m := callsOf_map_send _

@[simp] theorem dcsAfter_flushSequence (d : Dcs) (cfg : Config) (m : Framebuffer) :
    dcsAfter d (flushSequence cfg m) = d := dcsAfter_map_send _ _

end Sys2Proof.Machine
end

