-- ==== Sys2Proof/Laws/Step.lean ====
section
/-! SUPPORT. Everything a controller command, a command and a step can do, each said once. -/

namespace Sys2Proof.Machine

open Sys2Proof.Safety

/-- Going on with a sequence changes DCS and CUR alone: to the end, or to the next call, at which CUR then stands. -/
theorem offerFrom_cases (s : State) (l : List ControllerAction) (busy : Nat → Cur) (k : Nat) :
    (callsOf (l.drop k) = [] ∧ s.offerFrom l busy k = { s with dcs := dcsAfter s.dcs (l.drop k), cur := .idle }) ∨
    ∃ done c rest, l.drop k = done ++ .send c :: rest ∧ callsOf done = [] ∧
      s.offerFrom l busy k = { s with dcs := dcsAfter s.dcs done, cur := busy (k + done.length) } := by
  rcases nextCall_cases k s.dcs (l.drop k) with ⟨h1, h⟩ | ⟨done, c, rest, h1, h2, h⟩
  · exact .inl ⟨h1, by simp [State.offerFrom, h]⟩
  · exact .inr ⟨done, c, rest, h1, h2, by simp [State.offerFrom, h]⟩

/-- The call that stands at the position CUR names is completed if the transport accepts it, and waited on if not; a position without a
call is passed. -/
theorem stepController_cases (s : State) (l : List ControllerAction) (busy : Nat → Cur) (k : Nat) :
    ((∀ c, l[k]? ≠ some (.send c)) ∧ s.stepController l busy k = s.offerFrom l busy k) ∨
    (∃ c, l[k]? = some (.send c) ∧ s.transport.accept = none ∧ s.stepController l busy k = s) ∨
    ∃ c t, l[k]? = some (.send c) ∧ s.transport.accept = some t ∧
      s.stepController l busy k = { s with tx := s.tx ++ [c], transport := t }.offerFrom l busy (k + 1) := by
  unfold State.stepController
  rcases hk : l[k]? with _ | (d | c)
  · exact .inl ⟨by simp, rfl⟩
  · exact .inl ⟨by simp, rfl⟩
  · rcases ha : s.transport.accept with _ | t
    · exact .inr (.inl ⟨c, rfl, rfl, rfl⟩)
    · exact .inr (.inr ⟨c, t, rfl, rfl, rfl⟩)

/-! ### The record of a command that makes no transport call -/

@[simp] theorem recordOf_idle : recordOf .idle = none := rfl
@[simp] theorem recordOf_working (w : Work) : recordOf (.working w) = some w := rfl
@[simp] theorem recordOf_ofWork (w : Option Work) : recordOf (Cur.ofWork w) = w := by cases w <;> rfl
@[simp] theorem ofWork_none : Cur.ofWork none = .idle := rfl
@[simp] theorem ofWork_some (w : Work) : Cur.ofWork (some w) = .working w := rfl

theorem recordOf_begin {s : State} (h : s.cur = .idle) (w : Option Work) : recordOf (s.begin w).cur = w := by
  cases w <;> simp [h]

/-- What such a command does when it begins: CUR takes its first record, or it is complete (spec/10_state.md R29). -/
theorem exec_eq_begin {i : Instr} (h : drivesTransport i = false) (s : State) :
    exec i s = .next (s.begin (firstRecord s.cfg i)) := by
  cases i
  case init => cases h
  case flush => cases h
  all_goals
    simp only [firstRecord, exec, execClear, execSetPixel, execGetByte, execDrawLine, execDrawRect, execFillRect, execDrawCircle,
      execFillCircle, execDrawChar, execDrawString, execGetStatus, recordOf_begin (s := State.afterReset s.cfg 0) rfl]
    try rfl

/-- The first record is one of the command. -/
theorem command_firstRecord {cfg : Config} {i : Instr} {w : Work} (h : firstRecord cfg i = some w) : w.command = i := by
  cases i
  case init => cases h
  case flush => cases h
  all_goals
    simp only [firstRecord, exec, execClear, execSetPixel, execGetByte, execDrawLine, execDrawRect, execFillRect, execDrawCircle,
      execFillCircle, execDrawChar, execDrawString, execGetStatus, recordOf_begin (s := State.afterReset cfg 0) rfl] at h
    first
      | (cases h; rfl)
      | (simp only [drawRectAt, fillRectAt, fillCircleAt, Option.map_eq_some_iff, Option.bind_eq_some_iff] at h; grind [Work.command])

/-- What a pass of such a command can do: it goes on to the next record, and writes a byte of FB for CLEAR, plots, or
appends a response byte. -/
theorem stepWork_cases (w : Work) (s : State) :
    ∃ fb rsp, stepWork w s = { s with fb := fb, rsp := rsp, cur := Cur.ofWork (nextRecord s.cfg w) } ∧
      ((rsp = s.rsp ∧ ∃ c ps, fb = s.fb.plot s.cfg c ps) ∨
        (rsp = s.rsp ∧ ∃ i, w = .clear i ∧ fb = if i + 1 < s.cfg.size then s.fb.write i 0x00 else s.fb.clear) ∨
        (fb = s.fb ∧ responds w.command = true ∧ ∃ b, rsp = s.rsp ++ [b])) := by
  have plotting (c : Bool) (p : Pass) (h : stepWork w s = s.pass c p) (h' : nextRecord s.cfg w = p.next) :
      ∃ fb rsp, stepWork w s = { s with fb := fb, rsp := rsp, cur := Cur.ofWork (nextRecord s.cfg w) } ∧
        rsp = s.rsp ∧ ∃ c ps, fb = s.fb.plot s.cfg c ps := by
    rw [h, h']; exact ⟨_, _, rfl, rfl, c, p.point.toList, rfl⟩
  cases w
  case clear i =>
    refine ⟨_, _, ?_, .inr (.inl ⟨rfl, i, rfl, rfl⟩)⟩
    simp [nextRecord, stepWork, stepClear, State.afterReset]
  case getByte p q => exact ⟨_, _, rfl, .inr (.inr ⟨rfl, rfl, _, rfl⟩)⟩
  case getStatus => exact ⟨_, _, rfl, .inr (.inr ⟨rfl, rfl, _, rfl⟩)⟩
  all_goals
    obtain ⟨fb, rsp, h, h'⟩ := plotting _ _ rfl (by simp only [nextRecord, stepWork, State.pass_cur, recordOf_ofWork] <;> rfl)
    exact ⟨fb, rsp, h, .inl h'⟩

/-- A pass stays with its command. -/
theorem command_nextRecord {cfg : Config} {w w' : Work} (h : nextRecord cfg w = some w') : w'.command = w.command := by
  cases w
  case clear i => simp only [nextRecord, stepWork, stepClear, recordOf_ofWork, clearAt] at h; grind [Work.command]
  case getByte p q => cases h
  case getStatus => cases h
  all_goals simp only [nextRecord, stepWork, State.pass_cur, recordOf_ofWork] at h
  case setPixel => cases h
  case drawLine => unfold drawLinePass linePass at h; grind [Work.command]
  case drawRect => unfold drawRectPass linePass drawRectAt at h; grind [Work.command, Option.map_eq_some_iff, Option.bind_eq_some_iff, Option.or_eq_some_iff]
  case fillRect => unfold fillRectPass linePass fillRectAt at h; grind [Work.command]
  case drawCircle => unfold drawCirclePass at h; grind [Work.command, Option.map_eq_some_iff, Option.bind_eq_some_iff, Option.or_eq_some_iff]
  case fillCircle => unfold fillCirclePass linePass fillCircleAt at h; grind [Work.command, Option.map_eq_some_iff, Option.bind_eq_some_iff, Option.or_eq_some_iff]
  case drawChar => unfold drawCharPass at h; grind [Work.command, Option.map_eq_some_iff, Option.bind_eq_some_iff, Option.or_eq_some_iff]
  case drawString => unfold drawStringPass drawStringAdvance at h; grind [Work.command, Option.map_eq_some_iff, Option.bind_eq_some_iff, Option.or_eq_some_iff]

/-- Every command begins, or is complete at once: what `exec` can do. -/
theorem exec_cases {i : Instr} {s t : State} (h : exec i s = .next t) :
    (drivesTransport i = false ∧ t = s.begin (firstRecord s.cfg i)) ∨ (drivesTransport i = true ∧ t = s) ∨
    (i = .init ∧ s.dcs = .uninitialized ∧ t = initFrom 0 s) ∨ (i = .flush ∧ s.dcs = .on ∧ t = flushFrom 0 s) := by
  cases i
  case init => cases h; by_cases hd : s.dcs = .uninitialized <;> simp [hd, drivesTransport]
  case flush => cases h; by_cases hd : s.dcs = .on <;> simp [hd, drivesTransport]
  all_goals rw [exec_eq_begin rfl] at h; cases h; exact .inl ⟨rfl, rfl⟩

/-- What a step can do: it runs a decoded command, moves bytes of the port, or makes a step of the command in progress. -/
theorem step_cases {s t : State} (h : step s = .next t) :
    s.cfg.wf = true ∧
    ((s.cur = .idle ∧ ∃ i rest, decode s.incoming = .command i rest ∧ exec i (s.packetTaken rest) = .next t) ∨
      (s.cur = .idle ∧ ∃ b rest, decode s.incoming = .reserved b rest ∧ t = s.packetTaken rest) ∨
      (s.cur = .idle ∧ decode s.incoming = .incomplete ∧ t = s.awaitPacket) ∨
      (∃ k, s.cur = .init k ∧ t = stepInit k s) ∨ (∃ k, s.cur = .flush k ∧ t = stepFlush k s) ∨
      ∃ w, s.cur = .working w ∧ t = stepWork w s) := by
  unfold step at h
  split at h
  · refine ⟨‹_›, ?_⟩
    simp only [stepCore, fetchAndExecute] at h
    split at h
    · split at h
      · exact .inl ⟨‹_›, _, _, ‹_›, h⟩
      · cases h; exact .inr (.inl ⟨‹_›, _, _, ‹_›, rfl⟩)
      · cases h; exact .inr (.inr (.inl ⟨‹_›, ‹_›, rfl⟩))
    · cases h; exact .inr (.inr (.inr (.inl ⟨_, ‹_›, rfl⟩)))
    · cases h; exact .inr (.inr (.inr (.inr (.inl ⟨_, ‹_›, rfl⟩))))
    · cases h; exact .inr (.inr (.inr (.inr (.inr ⟨_, ‹_›, rfl⟩))))
  · cases h

/-- A step of a core with such a command in progress is a pass of it. -/
theorem step_working {s : State} {w : Work} (hw : s.cfg.wf = true) (hc : s.cur = .working w) : step s = .next (stepWork w s) := by
  simp [step, hw, stepCore, hc]

/-- A run takes its first step, then goes on from there. -/
theorem run_succ {s t : State} (h : step s = .next t) (n : Nat) : core.run (n + 1) s = core.run n t := by
  have h' : core.step s = .next t := h
  simp only [Host.Core.run]
  rw [h']

/-- A state that a step leaves as it is stays as it is. -/
theorem run_of_step_self {s : State} (h : step s = .next s) (n : Nat) : core.run n s = .next s := by
  induction n with
  | zero => rfl
  | succ n ih => rw [run_succ h]; exact ih

end Sys2Proof.Machine
end

