-- ==== Sys2Proof/Laws/Controller.lean ====
section
/-! SUPPORT. Where INIT and FLUSH stand after a number of their transport calls, and that the steps of the core go there
(spec/46_transport.md R176). -/

namespace Sys2Proof.Machine

open Sys2Proof.Safety

/-- DCS, and the position of the next call, once `n` calls of a sequence are complete; its first action stands at position `k`. -/
def callAt (k : Nat) (d : Dcs) : List ControllerAction → Nat → Dcs × Option Nat
  | [], _ => (d, none)
  | .enter d' :: rest, n => callAt (k + 1) d' rest n
  | .send _ :: _, 0 => (d, some k)
  | .send _ :: rest, n + 1 => callAt (k + 1) d rest n

theorem callAt_zero (k : Nat) (d : Dcs) (l : List ControllerAction) : callAt k d l 0 = nextCall k d l := by
  induction l generalizing k d with
  | nil => rfl
  | cons a l ih => cases a <;> simp [callAt, ih]

/-- After all its calls a sequence is complete. -/
theorem callAt_of_le (k : Nat) (d : Dcs) (l : List ControllerAction) (n : Nat) (h : (callsOf l).length ≤ n) :
    callAt k d l n = (dcsAfter d l, none) := by
  induction l generalizing k d n with
  | nil => rfl
  | cons a l ih =>
    cases a with
    | enter d' => exact ih _ _ _ (by simpa using h)
    | send c =>
      cases n with
      | zero => simp at h
      | succ n => exact ih _ _ _ (by simpa using h)

/-- Before that it stands at a call: the `n`-th, with the actions before it carried out and those after it to come. -/
theorem callAt_of_lt (k : Nat) (d : Dcs) (l : List ControllerAction) (n : Nat) (h : n < (callsOf l).length) :
    ∃ j c, l[j]? = some (.send c) ∧ (callsOf l)[n]? = some c ∧ callsOf (l.take j) = (callsOf l).take n ∧
      callsOf (l.drop j) = (callsOf l).drop n ∧ callAt k d l n = (dcsAfter d (l.take j), some (k + j)) ∧
      nextCall (k + j + 1) (dcsAfter d (l.take j)) (l.drop (j + 1)) = callAt k d l (n + 1) := by
  induction l generalizing k d n with
  | nil => simp at h
  | cons a l ih =>
    cases a with
    | enter d' =>
      obtain ⟨j, c, h1, h2, h3, h4, h5, h6⟩ := ih (k + 1) d' n (by simpa using h)
      exact ⟨j + 1, c, by simpa using h1, by simpa using h2, by simpa using h3, by simpa using h4,
        by simp [callAt, h5]; omega, by
          simp only [List.take_succ_cons, dcsAfter_enter, List.drop_succ_cons, callAt]; rw [← h6]; congr 1; omega⟩
    | send c =>
      cases n with
      | zero => exact ⟨0, c, by simp, by simp, by simp, by simp, by simp [callAt], by simp [callAt, callAt_zero]⟩
      | succ n =>
        obtain ⟨j, c', h1, h2, h3, h4, h5, h6⟩ := ih (k + 1) d n (by simpa using h)
        exact ⟨j + 1, c', by simpa using h1, by simpa using h2, by simpa using h3, by simpa using h4,
          by simp [callAt, h5]; omega, by
          simp only [List.take_succ_cons, dcsAfter_send, List.drop_succ_cons, callAt]; rw [← h6]; congr 1; omega⟩

/-- The state in which a command whose sequence is `l` stands after `n` of its calls, begun in `s`, the transport agent being `tr`. -/
def State.afterCalls (s : State) (l : List ControllerAction) (busy : Nat → Cur) (n : Nat) (tr : Transport) : State :=
  { s with
    tx := s.tx ++ (callsOf l).take n
    dcs := (callAt 0 s.dcs l n).1
    cur := (callAt 0 s.dcs l n).2.elim .idle busy
    transport := tr }

/-- A command begins with none of its calls complete. -/
theorem offerFrom_zero (s : State) (l : List ControllerAction) (busy : Nat → Cur) :
    s.offerFrom l busy 0 = s.afterCalls l busy 0 s.transport := by
  simp [State.offerFrom, State.afterCalls, callAt_zero]

/-- After all its calls the command is complete. -/
theorem afterCalls_of_le (s : State) (l : List ControllerAction) (busy : Nat → Cur) (n : Nat) (tr : Transport)
    (h : (callsOf l).length ≤ n) :
    s.afterCalls l busy n tr =
      { s with tx := s.tx ++ callsOf l, dcs := dcsAfter s.dcs l, cur := .idle, transport := tr } := by
  simp [State.afterCalls, callAt_of_le _ _ _ _ h, List.take_of_length_le h]

/-- Before that the core offers the `n`-th call, waits while the transport does not accept it, and otherwise completes it. -/
theorem afterCalls_of_lt (s : State) (l : List ControllerAction) (busy : Nat → Cur) (n : Nat) (tr : Transport)
    (h : n < (callsOf l).length) :
    ∃ j c, (s.afterCalls l busy n tr).cur = busy j ∧ l[j]? = some (.send c) ∧ (callsOf l)[n]? = some c ∧
      callsOf (l.take j) = (callsOf l).take n ∧ callsOf (l.drop j) = (callsOf l).drop n ∧
      (s.afterCalls l busy n tr).dcs = dcsAfter s.dcs (l.take j) ∧
      (tr.accept = none → (s.afterCalls l busy n tr).stepController l busy j = s.afterCalls l busy n tr) ∧
      ∀ tr', tr.accept = some tr' →
        (s.afterCalls l busy n tr).stepController l busy j = s.afterCalls l busy (n + 1) tr' := by
  obtain ⟨j, c, h1, h2, h3, h4, h5, h6⟩ := callAt_of_lt 0 s.dcs l n h
  have e : (s.afterCalls l busy n tr).transport = tr := rfl
  refine ⟨j, c, by simp [State.afterCalls, h5], h1, h2, h3, h4, by simp [State.afterCalls, h5], fun ha => ?_, fun tr' ha => ?_⟩
  · simp [State.stepController, h1, ControllerAction.call?, e, ha]
  · simp only [State.stepController, h1, Option.bind_some, ControllerAction.call?, e, ha]
    rw [Nat.zero_add] at h6
    simp only [State.offerFrom, State.afterCalls, h5]
    rw [h6, List.take_add_one, h2]; simp

/-- A run goes on from where its beginning ended. -/
theorem run_add {a : Nat} {s t : State} (h : core.run a s = .next t) (b : Nat) : core.run (a + b) s = core.run b t := by
  induction a generalizing s with
  | zero => cases h; simp
  | succ a ih =>
    rw [show a + 1 + b = (a + b) + 1 by omega]
    simp only [Host.Core.run] at h ⊢
    cases hs : core.step s with
    | next s' => rw [hs] at h; exact ih h
    | fault r => rw [hs] at h; cases h
    | refused r => rw [hs] at h; cases h

end Sys2Proof.Machine
end

