-- ==== Sys2Proof/Laws/Decode.lean ====
section
/-! SUPPORT. The small facts of the decoder and the encoder: 16-bit fields and their bytes, and the row each opcode byte selects. -/

namespace Sys2Proof

/-- The value of a 16-bit field from its bytes: `zext_16` (spec/00_scope.md R16). -/
theorem halfOf_toNat (lo hi : Byte) : (halfOf lo hi).toNat = lo.toNat + 256 * hi.toNat := by
  simp only [halfOf, BitVec.toNat_append]
  rw [← Nat.shiftLeft_add_eq_or_of_lt (by simpa using lo.isLt), Nat.shiftLeft_eq]
  omega

theorem loByte_toNat (h : Half) : (loByte h).toNat = h.toNat % 256 := by
  simp [loByte, BitVec.extractLsb'_toNat]

theorem hiByte_toNat (h : Half) : (hiByte h).toNat = h.toNat / 256 := by
  have := h.isLt
  simp only [hiByte, BitVec.extractLsb'_toNat, Nat.shiftRight_eq_div_pow]
  omega

@[simp] theorem halfOf_lo_hi (h : Half) : halfOf (loByte h) (hiByte h) = h := by
  apply BitVec.eq_of_toNat_eq
  rw [halfOf_toNat, loByte_toNat, hiByte_toNat]
  omega

@[simp] theorem loByte_halfOf (lo hi : Byte) : loByte (halfOf lo hi) = lo := by
  apply BitVec.eq_of_toNat_eq
  rw [loByte_toNat, halfOf_toNat]
  have := lo.isLt
  omega

@[simp] theorem hiByte_halfOf (lo hi : Byte) : hiByte (halfOf lo hi) = hi := by
  apply BitVec.eq_of_toNat_eq
  rw [hiByte_toNat, halfOf_toNat]
  have := lo.isLt
  omega

@[simp] theorem rowOf_clear : rowOf 0x10#8 = some ⟨.clear, .z, 0x10#8, 0xFF#8⟩ := by decide
@[simp] theorem rowOf_getByte : rowOf 0x14#8 = some ⟨.getByte, .pq, 0x14#8, 0xFF#8⟩ := by decide
@[simp] theorem rowOf_init : rowOf 0x40#8 = some ⟨.init, .z, 0x40#8, 0xFF#8⟩ := by decide
@[simp] theorem rowOf_flush : rowOf 0x42#8 = some ⟨.flush, .z, 0x42#8, 0xFF#8⟩ := by decide
@[simp] theorem rowOf_getStatus : rowOf 0x44#8 = some ⟨.getStatus, .z, 0x44#8, 0xFF#8⟩ := by decide
@[simp] theorem rowOf_setPixel (c : Bool) : rowOf (0x12#8 ||| colourBit c) = some ⟨.setPixel, .xy, 0x12#8, 0xFE#8⟩ := by
  cases c <;> decide
@[simp] theorem rowOf_drawLine (c : Bool) : rowOf (0x20#8 ||| colourBit c) = some ⟨.drawLine, .q4, 0x20#8, 0xFE#8⟩ := by
  cases c <;> decide
@[simp] theorem rowOf_drawRect (c : Bool) : rowOf (0x22#8 ||| colourBit c) = some ⟨.drawRect, .q4, 0x22#8, 0xFE#8⟩ := by
  cases c <;> decide
@[simp] theorem rowOf_fillRect (c : Bool) : rowOf (0x24#8 ||| colourBit c) = some ⟨.fillRect, .q4, 0x24#8, 0xFE#8⟩ := by
  cases c <;> decide
@[simp] theorem rowOf_drawCircle (c : Bool) : rowOf (0x26#8 ||| colourBit c) = some ⟨.drawCircle, .q3, 0x26#8, 0xFE#8⟩ := by
  cases c <;> decide
@[simp] theorem rowOf_fillCircle (c : Bool) : rowOf (0x28#8 ||| colourBit c) = some ⟨.fillCircle, .q3, 0x28#8, 0xFE#8⟩ := by
  cases c <;> decide
@[simp] theorem rowOf_drawChar (c : Bool) : rowOf (0x30#8 ||| colourBit c) = some ⟨.drawChar, .ch, 0x30#8, 0xFE#8⟩ := by
  cases c <;> decide
@[simp] theorem rowOf_drawString (c : Bool) : rowOf (0x32#8 ||| colourBit c) = some ⟨.drawString, .str, 0x32#8, 0xFE#8⟩ := by
  cases c <;> decide

/-- Bit 0 of an even opcode byte with the colour bit is the colour (spec/30_encoding.md R64). -/
theorem colour_of_opcode (b : Byte) (hb : b.getLsbD 0 = false) (c : Bool) : (b ||| colourBit c).getLsbD 0 = c := by
  cases c <;> simp only [colourBit, BitVec.getLsbD_or, hb] <;> rfl

/-- Every byte the opcode map selects is the opcode byte of one row, with or without the colour bit. -/
theorem byte_of_rowOf {b : Byte} {row : OpcodeRow} (h : rowOf b = some row) :
    row ∈ opcodeTable ∧ b &&& row.mask = row.pattern := by
  refine ⟨List.mem_of_find?_eq_some h, ?_⟩
  simpa using List.find?_some h

end Sys2Proof
end

