-- ==== Sys2Proof/Laws/Memory.lean ====
section
/-! SUPPORT. The laws of the framebuffer store: read after write, what a pixel write does to each bit, what a list of pixel writes does to
each bit, and that every operation keeps the canonical form. -/

namespace Sys2Proof.Machine

/-! ## The list of cells -/

/-- Indices strictly rising. -/
abbrev Rising (l : List Host.Cell) : Prop := l.Pairwise fun p q => p.1 < q.1

theorem findCell_none_of_lt {i : Nat} {l : List Host.Cell} (h : ∀ p ∈ l, i < p.1) : findCell i l = none := by
  induction l with
  | nil => rfl
  | cons p l ih =>
    have hp := h p (by simp)
    simp only [findCell]
    rw [if_neg (by omega)]
    exact ih fun q hq => h q (by simp [hq])

theorem findCell_putCell_same {i : Nat} (v? : Option Byte) {l : List Host.Cell} (h : Rising l) :
    findCell i (putCell i v? l) = v? := by
  induction l with
  | nil => cases v? <;> simp [putCell, findCell]
  | cons p l ih =>
    obtain ⟨j, w⟩ := p
    rw [Rising, List.pairwise_cons] at h
    unfold putCell
    split_ifs with h1 h2
    · simp only [findCell]
      rw [if_neg (by omega)]
      exact ih h.2
    · subst h2
      cases v? with
      | none => simpa using findCell_none_of_lt h.1
      | some v => simp [findCell]
    · cases v? with
      | none =>
        refine findCell_none_of_lt fun q hq => ?_
        rcases List.mem_cons.1 (by simpa using hq) with rfl | hq
        · simp only; omega
        · have := h.1 q hq; simp only at this; omega
      | some v => simp [findCell]

theorem findCell_putCell_other {i a : Nat} (hne : a ≠ i) (v? : Option Byte) (l : List Host.Cell) :
    findCell a (putCell i v? l) = findCell a l := by
  induction l with
  | nil => cases v? <;> simp [putCell, findCell, Ne.symm hne]
  | cons p l ih =>
    obtain ⟨j, w⟩ := p
    unfold putCell
    split_ifs with h1 h2
    · simp only [findCell, ih]
    · subst h2
      cases v? <;> simp [findCell, Ne.symm hne]
    · cases v? <;> simp [findCell, Ne.symm hne]

/-- Every cell of the list after a put is the new one or was there. -/
theorem mem_putCell {i : Nat} {v? : Option Byte} {l : List Host.Cell} {p : Host.Cell} (h : p ∈ putCell i v? l) :
    (p.1 = i ∧ v? = some p.2) ∨ p ∈ l := by
  induction l with
  | nil =>
    cases v? with
    | none => simp [putCell] at h
    | some v => simp [putCell] at h; left; simp [h]
  | cons q l ih =>
    obtain ⟨j, w⟩ := q
    unfold putCell at h
    split_ifs at h with h1 h2
    · rcases List.mem_cons.1 h with rfl | h
      · right; simp
      · rcases ih h with h | h
        · exact .inl h
        · right; simp [h]
    · cases v? with
      | none => right; simp at h; simp [h]
      | some v =>
        rcases List.mem_cons.1 (by simpa using h) with rfl | h
        · left; simp
        · right; simp [h]
    · cases v? with
      | none => right; simpa using h
      | some v =>
        have h : p = (i, v) ∨ p ∈ (j, w) :: l := by simpa using h
        rcases h with rfl | h
        · left; simp
        · right; exact h

theorem rising_putCell (i : Nat) (v? : Option Byte) {l : List Host.Cell} (h : Rising l) : Rising (putCell i v? l) := by
  induction l with
  | nil => cases v? <;> simp [putCell, Rising]
  | cons p l ih =>
    obtain ⟨j, w⟩ := p
    rw [Rising, List.pairwise_cons] at h
    unfold putCell
    split_ifs with h1 h2
    · rw [Rising, List.pairwise_cons]
      refine ⟨fun q hq => ?_, ih h.2⟩
      rcases mem_putCell hq with hq | hq
      · simp only; omega
      · exact h.1 q hq
    · subst h2
      cases v? with
      | none => simpa using h.2
      | some v => simpa [Rising, List.pairwise_cons] using h
    · cases v? with
      | none => simpa [Rising, List.pairwise_cons] using h
      | some v =>
        simp only [Option.toList_some, List.map_cons, List.map_nil, List.cons_append, List.nil_append]
        rw [Rising, List.pairwise_cons]
        refine ⟨fun q hq => ?_, List.pairwise_cons.2 h⟩
        rcases List.mem_cons.1 hq with rfl | hq
        · simp only; omega
        · have := h.1 q hq; simp only at this ⊢; omega

/-- A listed cell of a rising list is the one found at its index. -/
theorem findCell_of_mem {l : List Host.Cell} (h : Rising l) {p : Host.Cell} (hp : p ∈ l) :
    findCell p.1 l = some p.2 := by
  induction l with
  | nil => simp at hp
  | cons q l ih =>
    rw [Rising, List.pairwise_cons] at h
    rcases List.mem_cons.1 hp with rfl | hp
    · simp [findCell]
    · have := h.1 p hp
      simp only [findCell]
      rw [if_neg (by omega)]
      exact ih h.2 hp

/-- What is found is listed. -/
theorem mem_of_findCell {l : List Host.Cell} {i : Nat} {v : Byte} (h : findCell i l = some v) : (i, v) ∈ l := by
  induction l with
  | nil => simp [findCell] at h
  | cons q l ih =>
    obtain ⟨j, w⟩ := q
    simp only [findCell] at h
    split_ifs at h with hj
    · subst hj; cases h; simp
    · simp [ih h]

/-! ## The store -/

theorem Framebuffer.wf_iff (m : Framebuffer) :
    m.wf = true ↔ Rising m.cells ∧ ∀ p ∈ m.cells, p.2 ≠ m.unlisted p.1 := by
  simp [Framebuffer.wf, Rising]

theorem Framebuffer.rising_of_wf {m : Framebuffer} (h : m.wf = true) : Rising m.cells := (m.wf_iff.1 h).1

theorem Framebuffer.read_write_same {m : Framebuffer} (h : m.wf = true) (i : Nat) (v : Byte) :
    (m.write i v).read i = v := by
  unfold Framebuffer.read
  simp only [Framebuffer.write_unlisted]
  unfold Framebuffer.write
  rw [findCell_putCell_same _ (Framebuffer.rising_of_wf h)]
  split_ifs with hv
  · simp [hv]
  · simp

theorem Framebuffer.read_write_other (m : Framebuffer) {i a : Nat} (hne : a ≠ i) (v : Byte) :
    (m.write i v).read a = m.read a := by
  unfold Framebuffer.read
  simp only [Framebuffer.write_unlisted]
  unfold Framebuffer.write
  rw [findCell_putCell_other hne]

theorem Framebuffer.wf_write {m : Framebuffer} (h : m.wf = true) (i : Nat) (v : Byte) : (m.write i v).wf = true := by
  rw [Framebuffer.wf_iff] at h ⊢
  refine ⟨rising_putCell _ _ h.1, fun p hp => ?_⟩
  simp only [Framebuffer.write_unlisted]
  rcases mem_putCell hp with ⟨rfl, hv⟩ | hp
  · split_ifs at hv with hu
    cases hv
    exact hu
  · exact h.2 p hp

theorem Framebuffer.within_write {m : Framebuffer} {size i : Nat} (h : m.within size = true) (hi : i < size) (v : Byte) :
    (m.write i v).within size = true := by
  simp only [Framebuffer.within, List.all_eq_true, decide_eq_true_eq] at h ⊢
  intro p hp
  rcases mem_putCell hp with ⟨rfl, _⟩ | hp
  · exact hi
  · exact h p hp

@[simp] theorem Framebuffer.wf_clear (m : Framebuffer) : m.clear.wf = true := by
  simp [Framebuffer.wf_iff, Rising]

@[simp] theorem Framebuffer.within_clear (m : Framebuffer) (size : Nat) : m.clear.within size = true := by
  simp [Framebuffer.within]

@[simp] theorem Framebuffer.read_clear (m : Framebuffer) (i : Nat) : m.clear.read i = 0 := by
  simp [Framebuffer.read, Framebuffer.unlisted, findCell]

@[simp] theorem Framebuffer.wf_afterReset (e : Nat) : (Framebuffer.afterReset e).wf = true := by
  simp [Framebuffer.wf_iff, Rising]

@[simp] theorem Framebuffer.within_afterReset (e size : Nat) : (Framebuffer.afterReset e).within size = true := by
  simp [Framebuffer.within]

@[simp] theorem Framebuffer.read_afterReset (e i : Nat) : (Framebuffer.afterReset e).read i = Config.powerOnByte e i := by
  simp [Framebuffer.read, Framebuffer.unlisted, findCell]

/-! ## Pixels -/

theorem bitMask_getLsbD {k j : Nat} (hj : j < 8) : (bitMask k).getLsbD j = decide (j = k) := by
  by_cases hk : k < 8
  · interval_cases k <;> interval_cases j <;> rfl
  · have : (bitMask k).getLsbD j = false := by
      simp only [bitMask, BitVec.getLsbD_shiftLeft, Bool.and_eq_false_iff]
      left; right; simp; omega
    rw [this]; symm; simp; omega

@[simp] theorem setPixel_epoch (cfg : Config) (c : Bool) (m : Framebuffer) (p : Point) :
    (m.setPixel cfg c p).epoch = m.epoch := by
  unfold Framebuffer.setPixel; split_ifs <;> rfl

@[simp] theorem setPixel_cleared (cfg : Config) (c : Bool) (m : Framebuffer) (p : Point) :
    (m.setPixel cfg c p).cleared = m.cleared := by
  unfold Framebuffer.setPixel; split_ifs <;> rfl

theorem setPixel_out {cfg : Config} {c : Bool} {m : Framebuffer} {p : Point} (h : inBounds cfg p = false) :
    m.setPixel cfg c p = m := by
  simp [Framebuffer.setPixel, h]

theorem wf_setPixel {cfg : Config} {c : Bool} {m : Framebuffer} {p : Point} (h : m.wf = true) :
    (m.setPixel cfg c p).wf = true := by
  unfold Framebuffer.setPixel
  split_ifs
  · exact Framebuffer.wf_write h _ _
  · exact Framebuffer.wf_write h _ _
  · exact h

/-- A byte other than the pixel's own is not touched. -/
theorem setPixel_read_other {cfg : Config} {c : Bool} {m : Framebuffer} {p : Point} {i : Nat} (hi : i ≠ pixelIndex cfg p) :
    (m.setPixel cfg c p).read i = m.read i := by
  unfold Framebuffer.setPixel
  split_ifs
  · exact Framebuffer.read_write_other _ hi _
  · exact Framebuffer.read_write_other _ hi _
  · rfl

/-- SetPixel, bit by bit: the pixel's bit takes the colour, every other bit of FB is what it was (R91, R95). -/
theorem setPixel_bit {cfg : Config} {c : Bool} {m : Framebuffer} {p : Point} (h : m.wf = true) (i : Nat) {k : Nat}
    (hk : k < 8) :
    ((m.setPixel cfg c p).read i).getLsbD k =
      if inBounds cfg p = true ∧ i = pixelIndex cfg p ∧ k = pixelBit p then c else (m.read i).getLsbD k := by
  by_cases hb : inBounds cfg p = true
  · by_cases hi : i = pixelIndex cfg p
    · subst hi
      unfold Framebuffer.setPixel
      simp only [hb, if_true, true_and]
      cases c
      · simp only [Bool.false_eq_true, if_false, Framebuffer.read_write_same h, BitVec.getLsbD_and, BitVec.getLsbD_not,
          bitMask_getLsbD hk, hk, decide_true, Bool.true_and]
        split_ifs with hkb <;> simp [hkb]
      · simp only [if_true, Framebuffer.read_write_same h, BitVec.getLsbD_or, bitMask_getLsbD hk]
        split_ifs with hkb <;> simp [hkb]
    · rw [setPixel_read_other hi]; simp [hi]
  · rw [setPixel_out (by simpa using hb)]; simp [hb]

/-! ## Lists of pixels -/

@[simp] theorem plot_nil (cfg : Config) (c : Bool) (m : Framebuffer) : m.plot cfg c [] = m := rfl

@[simp] theorem plot_cons (cfg : Config) (c : Bool) (m : Framebuffer) (p : Point) (ps : List Point) :
    m.plot cfg c (p :: ps) = (m.setPixel cfg c p).plot cfg c ps := rfl

theorem plot_append (cfg : Config) (c : Bool) (m : Framebuffer) (ps qs : List Point) :
    m.plot cfg c (ps ++ qs) = (m.plot cfg c ps).plot cfg c qs := by
  simp [Framebuffer.plot, List.foldl_append]

@[simp] theorem plot_epoch (cfg : Config) (c : Bool) (m : Framebuffer) (ps : List Point) :
    (m.plot cfg c ps).epoch = m.epoch := by
  induction ps generalizing m with
  | nil => rfl
  | cons p ps ih => simp [ih]

@[simp] theorem plot_cleared (cfg : Config) (c : Bool) (m : Framebuffer) (ps : List Point) :
    (m.plot cfg c ps).cleared = m.cleared := by
  induction ps generalizing m with
  | nil => rfl
  | cons p ps ih => simp [ih]

theorem wf_plot {cfg : Config} {c : Bool} {m : Framebuffer} {ps : List Point} (h : m.wf = true) :
    (m.plot cfg c ps).wf = true := by
  induction ps generalizing m with
  | nil => exact h
  | cons p ps ih => exact ih (wf_setPixel h)

/-- Everything SetPixel on a list of points can do: a bit of FB takes the colour when one of the points in bounds is its pixel,
and is what it was otherwise. The order of the points does not matter (spec/20_memory.md R48). -/
theorem plot_bit {cfg : Config} {c : Bool} {m : Framebuffer} {ps : List Point} (h : m.wf = true) (i : Nat) {k : Nat}
    (hk : k < 8) :
    ((m.plot cfg c ps).read i).getLsbD k =
      if ∃ p ∈ ps, inBounds cfg p = true ∧ i = pixelIndex cfg p ∧ k = pixelBit p then c else (m.read i).getLsbD k := by
  induction ps generalizing m with
  | nil => simp
  | cons p ps ih =>
    rw [plot_cons, ih (wf_setPixel h), setPixel_bit h i hk]
    by_cases h1 : ∃ q ∈ ps, inBounds cfg q = true ∧ i = pixelIndex cfg q ∧ k = pixelBit q
    · rw [if_pos h1, if_pos]
      obtain ⟨q, hq, hh⟩ := h1
      exact ⟨q, by simp [hq], hh⟩
    · rw [if_neg h1]
      by_cases h2 : inBounds cfg p = true ∧ i = pixelIndex cfg p ∧ k = pixelBit p
      · rw [if_pos h2, if_pos ⟨p, by simp, h2⟩]
      · rw [if_neg h2, if_neg]
        rintro ⟨q, hq, hh⟩
        rcases List.mem_cons.1 hq with rfl | hq
        · exact h2 hh
        · exact h1 ⟨q, hq, hh⟩

/-- A byte that holds no point in bounds is not touched. -/
theorem plot_read_other {cfg : Config} {c : Bool} {m : Framebuffer} {ps : List Point} {i : Nat}
    (hi : ∀ p ∈ ps, inBounds cfg p = true → i ≠ pixelIndex cfg p) : (m.plot cfg c ps).read i = m.read i := by
  induction ps generalizing m with
  | nil => rfl
  | cons p ps ih =>
    rw [plot_cons, ih fun q hq => hi q (by simp [hq])]
    by_cases hb : inBounds cfg p = true
    · exact setPixel_read_other (hi p (by simp) hb)
    · rw [setPixel_out (by simpa using hb)]

end Sys2Proof.Machine
end

