-- ==== Sys2Proof/Laws/Operands.lean ====
section
/-! SUPPORT. What the operand forms and the status byte can be (spec/30_encoding.md R64, spec/00_scope.md R16, spec/10_state.md
R22, R25). -/

namespace Sys2Proof.Machine

/-- The two's complement value of a signed field (R16). -/
theorem signedOperand_eq (h : Half) :
    signedOperand h = if h.toNat < 32768 then (h.toNat : Int) else (h.toNat : Int) - 65536 := by
  simp only [signedOperand, BitVec.toInt_eq_toNat_cond]
  split_ifs <;> omega

theorem signedOperand_le (h : Half) : -32768 ≤ signedOperand h ∧ signedOperand h ≤ 32767 := by
  have := h.isLt
  rw [signedOperand_eq]
  split_ifs <;> omega

/-- A number below 32768 as a signed field has that value. -/
theorem signedOperand_ofNat {n : Nat} (h : n ≤ 32767) : signedOperand (BitVec.ofNat 16 n) = n := by
  have : (BitVec.ofNat 16 n).toNat = n := by simp; omega
  rw [signedOperand_eq, this, if_pos (by omega)]

theorem unsignedOperand_lt (h : Half) : unsignedOperand h < 65536 := h.isLt

theorem byteOperand_lt (b : Byte) : byteOperand b < 256 := b.isLt

theorem initialized_iff (d : Dcs) : d.initialized = true ↔ d = .on := by cases d <;> decide

/-- The five codes are different. -/
theorem code_injective {d d' : Dcs} (h : d.code = d'.code) : d = d' := by
  cases d <;> cases d' <;> first | rfl | cases h

/-- STATUS as a number. -/
theorem status_toNat (d : Dcs) : d.status.toNat = 128 * (if d.initialized then 1 else 0) + d.code := by
  cases d <;> rfl

end Sys2Proof.Machine
end

