-- ==== Sys2Proof/Laws/Paint.lean ====
section
/-! SUPPORT. What SetPixel called on a list of points can do, said once: the whole effect of every drawing command is one such call. -/

namespace Sys2Proof.Machine

open Sys2Proof.Safety

/-- In bounds, as four inequalities (spec/00_scope.md R18). -/
theorem inBounds_iff {cfg : Config} {p : Point} :
    inBounds cfg p = true ↔ 0 ≤ p.1 ∧ p.1 < cfg.width ∧ 0 ≤ p.2 ∧ p.2 < cfg.height := by
  simp [inBounds, and_assoc]

/-- The sizes of an accepted configuration (spec/00_scope.md R6). -/
theorem sizes_of_wf {cfg : Config} (h : cfg.wf = true) :
    1 ≤ cfg.width ∧ cfg.width ≤ 32767 ∧ 8 ≤ cfg.height ∧ cfg.height ≤ 2048 ∧ cfg.height = 8 * cfg.pages := by
  simp only [Config.wf, Bool.and_eq_true, decide_eq_true_eq] at h
  unfold Config.pages
  omega

theorem fmtCap_of_wf {cfg : Config} (h : cfg.wf = true) : cfg.fmtCap ≤ 255 := by
  simp only [Config.wf, Bool.and_eq_true, decide_eq_true_eq] at h
  exact h.2

/-- Plotting a list of points paints exactly the points in bounds that are listed. -/
theorem painted_plot {cfg : Config} {c : Bool} {m : Framebuffer} {ps : List Point} {S : Point → Prop} (h : m.wf = true)
    (hS : ∀ p, inBounds cfg p = true → (p ∈ ps ↔ S p)) : PaintedExactly cfg c m (m.plot cfg c ps) S where
  painted i k hk hp := by
    obtain ⟨p, hs, hb, hi, hkk⟩ := hp
    unfold bitAt
    rw [plot_bit h i hk, if_pos ⟨p, (hS p hb).2 hs, hb, hi, hkk⟩]
  kept i k hk hp := by
    unfold bitAt
    rw [plot_bit h i hk, if_neg]
    rintro ⟨p, hs, hb, hi, hkk⟩
    exact hp ⟨p, (hS p hb).1 hs, hb, hi, hkk⟩
  bytes_kept i hi := plot_read_other fun p hp hb => hi p ((hS p hb).1 hp) hb
  canonical := wf_plot h
  epoch_kept := plot_epoch ..
  cleared_kept := plot_cleared ..

end Sys2Proof.Machine
end

