-- ==== Sys2Proof/Laws/PerInstr.lean ====
section
/-! SUPPORT. Facts about each instruction as syntax, one lemma per constructor. -/

namespace Sys2Proof.Laws.OpcodeByte

/-- The row of the opcode map an instruction belongs to. -/
def opcodeOf : Instr → Opcode
  | .clear => .clear
  | .setPixel _ _ _ => .setPixel
  | .getByte _ _ => .getByte
  | .drawLine _ _ _ _ _ => .drawLine
  | .drawRect _ _ _ _ _ => .drawRect
  | .fillRect _ _ _ _ _ => .fillRect
  | .drawCircle _ _ _ _ => .drawCircle
  | .fillCircle _ _ _ _ => .fillCircle
  | .drawChar _ _ _ _ _ => .drawChar
  | .drawString _ _ _ _ _ => .drawString
  | .init => .init
  | .flush => .flush
  | .getStatus => .getStatus

/-- Byte 0 of an instruction's packet selects the instruction's own row of the opcode map. -/
def Statement (i : Instr) : Prop :=
  ∃ b operands row, encode i = b :: operands ∧ rowOf b = some row ∧ row.opcode = opcodeOf i

theorem clear : Statement .clear := ⟨_, _, _, rfl, rowOf_clear, rfl⟩
theorem setPixel (c : Bool) (x y : Half) : Statement (.setPixel c x y) := ⟨_, _, _, rfl, rowOf_setPixel c, rfl⟩
theorem getByte (p : Byte) (q : Half) : Statement (.getByte p q) := ⟨_, _, _, rfl, rowOf_getByte, rfl⟩
theorem drawLine (c : Bool) (x0 y0 x1 y1 : Half) : Statement (.drawLine c x0 y0 x1 y1) :=
  ⟨_, _, _, rfl, rowOf_drawLine c, rfl⟩
theorem drawRect (c : Bool) (x y w h : Half) : Statement (.drawRect c x y w h) := ⟨_, _, _, rfl, rowOf_drawRect c, rfl⟩
theorem fillRect (c : Bool) (x y w h : Half) : Statement (.fillRect c x y w h) := ⟨_, _, _, rfl, rowOf_fillRect c, rfl⟩
theorem drawCircle (c : Bool) (x0 y0 r : Half) : Statement (.drawCircle c x0 y0 r) :=
  ⟨_, _, _, rfl, rowOf_drawCircle c, rfl⟩
theorem fillCircle (c : Bool) (x0 y0 r : Half) : Statement (.fillCircle c x0 y0 r) :=
  ⟨_, _, _, rfl, rowOf_fillCircle c, rfl⟩
theorem drawChar (c : Bool) (x y : Half) (font code : Byte) : Statement (.drawChar c x y font code) :=
  ⟨_, _, _, rfl, rowOf_drawChar c, rfl⟩
theorem drawString (c : Bool) (x y : Half) (font : Byte) (text : List Byte) : Statement (.drawString c x y font text) :=
  ⟨_, _, _, rfl, rowOf_drawString c, rfl⟩
theorem init : Statement .init := ⟨_, _, _, rfl, rowOf_init, rfl⟩
theorem flush : Statement .flush := ⟨_, _, _, rfl, rowOf_flush, rfl⟩
theorem getStatus : Statement .getStatus := ⟨_, _, _, rfl, rowOf_getStatus, rfl⟩

end Sys2Proof.Laws.OpcodeByte
end

