-- ==== Sys2Proof/Laws/Raster.lean ====
section
/-! SUPPORT. The first facts of the rasterizers and the glyph blitter: the points of the shortest line, of a glyph byte and of a glyph. -/

namespace Sys2Proof.Machine

/-- A line from a point to itself is that point (spec/41_line.md R101). -/
theorem linePoints_self (x y : Int) : linePoints x y x y = [(x, y)] := by
  simp [linePoints, lineStart, lineFrom, LineLocals.points, LineLocals.next, LineLocals.point]

/-- A glyph byte has a point for each set bit, bit 0 at the top (spec/44_glyph_text.md R132, spec/20_memory.md R45). -/
theorem mem_columnPoints {x y : Int} {v : Byte} {p : Point} :
    p ∈ columnPoints x y v ↔ ∃ k : Nat, k < 8 ∧ v.getLsbD k = true ∧ p = (x, y + k) := by
  simp only [columnPoints, List.mem_map, List.mem_filter, List.mem_range]
  constructor
  · rintro ⟨k, ⟨hk, hv⟩, rfl⟩; exact ⟨k, hk, hv, rfl⟩
  · rintro ⟨k, hk, hv, rfl⟩; exact ⟨k, ⟨hk, hv⟩, rfl⟩

/-- The points of a glyph, from the bytes of its record (R132). -/
theorem mem_glyphPoints {F : Font} {code : Byte} {x y : Int} {p : Point} :
    p ∈ glyphPoints F code x y ↔
      ∃ j b k : Nat, j < F.glyphWidth code ∧ b < F.bytesPerColumn ∧ k < 8 ∧
        (F.glyphByte code j b).getLsbD k = true ∧ p = (x + j, y + b * 8 + k) := by
  simp only [glyphPoints, List.mem_flatMap, List.mem_range, mem_columnPoints]
  constructor
  · rintro ⟨j, hj, b, hb, k, hk, hv, rfl⟩; exact ⟨j, b, k, hj, hb, hk, hv, rfl⟩
  · rintro ⟨j, b, k, hj, hb, hk, hv, rfl⟩; exact ⟨j, hj, b, hb, k, hk, hv, rfl⟩

/-- DrawChar selects a glyph exactly when the font number is known and the code supported. -/
theorem selectGlyph_eq_some {cfg : Config} {f code : Byte} {F : Font} :
    selectGlyph cfg f code = some F ↔ cfg.font f = some F ∧ F.supports code = true := by
  unfold selectGlyph
  cases h : cfg.font f with
  | none => simp
  | some G =>
    simp only [Option.some.injEq]
    split_ifs with hs
    · constructor
      · intro e; cases e; exact ⟨rfl, hs⟩
      · rintro ⟨e, -⟩; rw [e]
    · constructor
      · intro e; cases e
      · rintro ⟨rfl, hs'⟩; exact absurd hs' hs

end Sys2Proof.Machine
end

