-- ==== Sys2Proof/Laws/Work.lean ====
section
/-! SUPPORT. That the passes of a command, from its beginning until it is complete, make the SetPixel calls of the whole command, in order,
and that they come to an end: one lemma per command, over one lemma for a Line inside a command and one for a glyph. -/

namespace Sys2Proof.Safety

open Sys2Proof.Machine

/-! ## Completion -/

theorem Completes.refl {s : State} (h : s.cur = .idle) : Completes s s :=
  ⟨by simp [State.cmdReady, h], 0, rfl, fun _ h => absurd h (Nat.not_lt_zero _)⟩

/-- A step of a busy core is a step of the way. -/
theorem Completes.step {s t u : State} (hc : s.cmdReady = false) (hs : Machine.step s = .next t) (h : Completes t u) : Completes s u := by
  obtain ⟨hu, n, hn, hb⟩ := h
  refine ⟨hu, n + 1, by rw [run_succ hs]; exact hn, fun m hm => ?_⟩
  cases m with
  | zero => exact ⟨s, rfl, hc⟩
  | succ m => obtain ⟨v, hv, h⟩ := hb m (by omega); exact ⟨v, by rw [run_succ hs]; exact hv, h⟩

/-- The state in which a command is complete is the only one. -/
theorem Completes.unique {s t u : State} (h : Completes s t) (h' : Completes s u) : t = u := by
  obtain ⟨ht, n, hn, hb⟩ := h
  obtain ⟨hu, m, hm, hb'⟩ := h'
  rcases Nat.lt_trichotomy n m with h | rfl | h
  · obtain ⟨v, hv, e⟩ := hb' n h
    rw [hn] at hv; cases hv; rw [ht] at e; cases e
  · rw [hn] at hm; cases hm; rfl
  · obtain ⟨v, hv, e⟩ := hb m h
    rw [hm] at hv; cases hv; rw [hu] at e; cases e

end Sys2Proof.Safety

namespace Sys2Proof.Machine

open Sys2Proof.Safety

theorem cmdReady_working {s : State} {w : Work} (h : s.cur = .working w) : s.cmdReady = false := by
  simp [State.cmdReady, h]

/-! ## Records that plot -/

/-- From the record on (none: the command is complete) the passes plot in colour `c` the listed points, in order, and come to the record
`fin`. -/
inductive Plots (cfg : Config) (c : Bool) (fin : Option Work) : Option Work → List Point → Prop where
  | done : Plots cfg c fin fin []
  | pass {w : Work} {p : Pass} {ps : List Point} (h : ∀ s : State, s.cfg = cfg → stepWork w s = s.pass c p)
      (rest : Plots cfg c fin p.next ps) : Plots cfg c fin (some w) (p.point.toList ++ ps)

theorem Plots.trans {cfg : Config} {c : Bool} {fin mid w : Option Work} {ps qs : List Point} (h : Plots cfg c mid w ps)
    (h' : Plots cfg c fin mid qs) : Plots cfg c fin w (ps ++ qs) := by
  induction h with
  | done => exact h'
  | pass hp _ ih => rw [List.append_assoc]; exact .pass hp ih

/-- A pass, then the rest, as a state. -/
theorem State.begin_pass {s : State} (hi : s.cur = .idle) (c : Bool) (w : Work) (p : Pass) :
    (s.begin (some w)).pass c p = (s.plot c p.point.toList).begin p.next := by
  cases hn : p.next <;> simp [State.begin, State.pass, State.plot, hn, Cur.ofWork, hi]

theorem State.plot_append (s : State) (c : Bool) (ps qs : List Point) : s.plot c (ps ++ qs) = (s.plot c ps).plot c qs := by
  simp [State.plot, Machine.plot_append]

/-- A run through those passes: the points plotted, CUR at the record `fin`, nothing else changed, and a command in progress on the way. -/
theorem Plots.run {cfg : Config} {c : Bool} {fin w : Option Work} {ps : List Point} (h : Plots cfg c fin w ps)
    (hw : cfg.wf = true) : ∀ {s : State}, s.cfg = cfg → s.cur = .idle →
      ∃ n, core.run n (s.begin w) = .next ((s.plot c ps).begin fin) ∧
        ∀ m < n, ∃ v, core.run m (s.begin w) = .next v ∧ v.cmdReady = false := by
  induction h with
  | done => intro s _ _; exact ⟨0, rfl, fun _ h => absurd h (Nat.not_lt_zero _)⟩
  | @pass w p ps h rest ih =>
    intro s hs hi
    obtain ⟨n, hn, hb⟩ := ih (s := s.plot c p.point.toList) (by simpa using hs) (by simpa using hi)
    have e : Sys2Proof.Machine.step (s.begin (some w)) = .next ((s.plot c p.point.toList).begin p.next) := by
      rw [step_working (by simpa [hs] using hw) rfl, h _ (by simpa using hs), State.begin_pass hi]
    refine ⟨n + 1, by rw [run_succ e, State.plot_append]; exact hn, fun m hm => ?_⟩
    cases m with
    | zero => exact ⟨_, rfl, cmdReady_working rfl⟩
    | succ m => rw [run_succ e]; exact hb m (by omega)

/-- A command that plots to its end completes, all its points plotted and nothing else changed. -/
theorem Plots.completes {cfg : Config} {c : Bool} {w : Option Work} {ps : List Point} (h : Plots cfg c none w ps)
    (hw : cfg.wf = true) {s : State} (hs : s.cfg = cfg) (hi : s.cur = .idle) : Completes (s.begin w) (s.plot c ps) := by
  obtain ⟨n, hn, hb⟩ := h.run hw hs hi
  exact ⟨by simpa [State.cmdReady] using hi, n, hn, hb⟩

/-- One pass on, the record is the next one, and plots what is left. -/
theorem Plots.next {cfg : Config} {c : Bool} {w : Work} {ps : List Point} (h : Plots cfg c none (some w) ps) :
    ∃ qs, Plots cfg c none (nextRecord cfg w) qs := by
  cases h with
  | pass hp rest => exact ⟨_, by rw [nextRecord, hp _ rfl, State.pass_cur, recordOf_ofWork]; exact rest⟩

/-! ## A Line inside a command -/

/-- The loop of a Line leaves by its own test within so many passes. -/
def LineLocals.EndsIn : Nat → LineLocals → Prop
  | 0, _ => False
  | n + 1, l => ∀ l', l.next = some l' → LineLocals.EndsIn n l'

/-- The locals with the roles of x and y exchanged. -/
def LineLocals.transpose (l : LineLocals) : LineLocals where
  x0 := l.y0
  y0 := l.x0
  x1 := l.y1
  y1 := l.x1
  dx := l.dy
  dy := l.dx
  sx := l.sy
  sy := l.sx
  err := -l.err

/-- The loop treats x and y alike. -/
theorem LineLocals.next_transpose (l : LineLocals) : l.transpose.next = l.next.map LineLocals.transpose := by
  have h1 : 2 * -l.err > -l.dx ↔ 2 * l.err < l.dx := by omega
  have h2 : 2 * -l.err < l.dy ↔ 2 * l.err > -l.dy := by omega
  by_cases h : l.x0 = l.x1 ∧ l.y0 = l.y1
  · simp [LineLocals.next, LineLocals.transpose, h]
  · have h' : ¬ (l.y0 = l.y1 ∧ l.x0 = l.x1) := fun e => h e.symm
    simp only [LineLocals.next, LineLocals.transpose, if_neg h, if_neg h', h1, h2, Option.map_some, Option.some.injEq,
      LineLocals.mk.injEq, true_and]
    split_ifs <;> omega

theorem LineLocals.endsIn_transpose {n : Nat} {l : LineLocals} (h : l.transpose.EndsIn n) : l.EndsIn n := by
  induction n generalizing l with
  | zero => exact h
  | succ n ih => exact fun l' hl => ih (h _ (by rw [LineLocals.next_transpose, hl]; rfl))

/-- A line with dy ≤ dx, dx − n columns along and j rows along, ends in n + 1 passes. -/
theorem LineLocals.endsIn_of_wide {dx dy sx sy X Y : Int} (hd : dy ≤ dx) (hdy : 0 ≤ dy) (h0 : 0 < dx) :
    ∀ (n : Nat) (j err : Int), (n : Int) ≤ dx → err = dx * (1 + j) - dy * (1 + (dx - n)) → -dy < 2 * err →
      2 * err < 3 * dx - 2 * dy + 1 →
      LineLocals.EndsIn (n + 1) ⟨X + sx * (dx - n), Y + sy * j, X + sx * dx, Y + sy * dy, dx, dy, sx, sy, err⟩ := by
  intro n
  induction n with
  | zero =>
    intro j err hn he hb1 hb2 l' hl
    have h1 : dx * (1 + j - dy) = err + dy := by rw [he]; push_cast; ring
    have h2 : 0 < dx * (1 + j - dy) * 2 := by rw [h1]; linarith
    have h3 : dx * (1 + j - dy) * 2 < 4 * dx := by rw [h1]; linarith
    have h4 : 0 < 1 + j - dy := by
      by_contra hc
      have : dx * (1 + j - dy) ≤ 0 := mul_nonpos_of_nonneg_of_nonpos (by omega) (by omega)
      omega
    have h5 : 1 + j - dy < 2 := by
      by_contra hc
      have : dx * 2 ≤ dx * (1 + j - dy) := mul_le_mul_of_nonneg_left (by omega) (by omega)
      omega
    have hj : j = dy := by omega
    simp [LineLocals.next, hj] at hl
  | succ n ih =>
    intro j err hn he hb1 hb2 l' hl
    by_cases he' : X + sx * (dx - (n + 1 : Nat)) = X + sx * dx ∧ Y + sy * j = Y + sy * dy
    · rw [LineLocals.next, if_pos he'] at hl; cases hl
    by_cases hc : 2 * err < dx <;> (simp only [LineLocals.next, if_neg he', gt_iff_lt, hb1, hc, if_true, if_false] at hl; cases hl)
    · have := ih (j + 1) (err - dy + dx) (by push_cast at hn; omega) (by rw [he]; push_cast; ring) (by omega) (by omega)
      convert this using 2 <;> (push_cast; ring)
    · have hne : dy < 2 * err := by
        by_contra h
        obtain rfl : dy = dx := by omega
        have h7 : dy * (2 * (j - (dy - (n + 1 : Nat))) - 1) = 0 := by
          have : dy * (2 * (j - (dy - (n + 1 : Nat)))) = 2 * err := by rw [he]; ring
          linarith
        rcases mul_eq_zero.1 h7 with h | h <;> omega
      have := ih j (err - dy) (by push_cast at hn; omega) (by rw [he]; push_cast; ring) (by omega) (by omega)
      convert this using 2; push_cast; ring

/-- The loop of Line leaves by its own test within the count of spec/41_line.md R102. -/
theorem lineFrom_endsIn (x0 y0 x1 y1 : Int) :
    (lineFrom x0 y0 x1 y1).EndsIn (max (x1 - x0).natAbs (y1 - y0).natAbs + 1) := by
  have step (a b : Int) : b = a + (if a < b then 1 else -1) * ((b - a).natAbs : Int) := by split_ifs <;> omega
  by_cases h : x0 = x1 ∧ y0 = y1
  · obtain ⟨rfl, rfl⟩ := h
    intro l' hl; simp [lineFrom, LineLocals.next] at hl
  · rcases le_total (y1 - y0).natAbs (x1 - x0).natAbs with hd | hd
    · have := LineLocals.endsIn_of_wide (dx := (x1 - x0).natAbs) (dy := (y1 - y0).natAbs) (sx := if x0 < x1 then 1 else -1)
        (sy := if y0 < y1 then 1 else -1) (X := x0) (Y := y0) (by omega) (by omega) (by omega) (x1 - x0).natAbs 0 _ le_rfl rfl
        (by ring_nf; omega) (by ring_nf; omega)
      rw [max_eq_left hd]
      convert this using 1
      simp only [lineFrom, LineLocals.mk.injEq, ← step]
      refine ⟨by ring, by ring, trivial, trivial, trivial, trivial, trivial, trivial, by ring⟩
    · have := LineLocals.endsIn_of_wide (dx := (y1 - y0).natAbs) (dy := (x1 - x0).natAbs) (sx := if y0 < y1 then 1 else -1)
        (sy := if x0 < x1 then 1 else -1) (X := y0) (Y := x0) (by omega) (by omega) (by omega) (y1 - y0).natAbs 0 _ le_rfl rfl
        (by ring_nf; omega) (by ring_nf; omega)
      rw [max_eq_right hd]
      refine LineLocals.endsIn_transpose ?_
      convert this using 1
      simp only [lineFrom, LineLocals.transpose, LineLocals.mk.injEq, ← step]
      refine ⟨by ring, by ring, trivial, trivial, trivial, trivial, trivial, trivial, by ring⟩

theorem lineStart_endsIn (x0 y0 x1 y1 : Int) :
    (lineStart x0 y0 x1 y1).EndsIn (max (x1 - x0).natAbs (y1 - y0).natAbs + 1) := by
  unfold lineStart
  split_ifs
  · have := lineFrom_endsIn x1 y1 x0 y0
    rwa [show (x0 - x1).natAbs = (x1 - x0).natAbs by omega, show (y0 - y1).natAbs = (y1 - y0).natAbs by omega] at this
  · exact lineFrom_endsIn x0 y0 x1 y1

/-- The passes of a Line inside a command plot its points, and then the command goes on. -/
theorem Plots.line {cfg : Config} {c : Bool} {inside : LineLocals → Work} {fin after : Option Work} {qs : List Point}
    (hs : ∀ l (s : State), s.cfg = cfg → stepWork (inside l) s = s.pass c (linePass inside after l)) (ha : Plots cfg c fin after qs) :
    ∀ (n : Nat) (l : LineLocals), l.EndsIn n → Plots cfg c fin (some (inside l)) (l.points n ++ qs) := by
  intro n
  induction n with
  | zero => intro l h; exact h.elim
  | succ n ih =>
    intro l h
    cases hn : l.next with
    | none =>
      have := Plots.pass (hs l) (by simpa [linePass, hn] using ha)
      simpa [linePass, LineLocals.points, hn] using this
    | some l' =>
      have := Plots.pass (hs l) (by simpa [linePass, hn] using ih l' (h l' hn))
      simpa [linePass, LineLocals.points, hn] using this

theorem Plots.lineStart {cfg : Config} {c : Bool} {inside : LineLocals → Work} {fin after : Option Work} {qs : List Point}
    (hs : ∀ l (s : State), s.cfg = cfg → stepWork (inside l) s = s.pass c (linePass inside after l)) (ha : Plots cfg c fin after qs)
    (x0 y0 x1 y1 : Int) : Plots cfg c fin (some (inside (lineStart x0 y0 x1 y1))) (linePoints x0 y0 x1 y1 ++ qs) :=
  Plots.line hs ha _ _ (lineStart_endsIn x0 y0 x1 y1)

/-- A command that makes one Line after another, those of a list, and then goes on. -/
theorem Plots.lines {cfg : Config} {c : Bool} {E : List (Point × Point)} {inside : Nat → LineLocals → Work} {fin after : Option Work}
    {qs : List Point} (at' : Nat → Option Work)
    (hat : ∀ k, at' k = E[k]?.map fun e => inside k (Machine.lineStart e.1.1 e.1.2 e.2.1 e.2.2))
    (hs : ∀ k l (s : State), s.cfg = cfg → stepWork (inside k l) s = s.pass c (linePass (inside k) ((at' (k + 1)).or after) l))
    (ha : Plots cfg c fin after qs) (k : Nat) :
    Plots cfg c fin ((at' k).or after) ((E.drop k).flatMap (fun e => linePoints e.1.1 e.1.2 e.2.1 e.2.2) ++ qs) := by
  induction hn : E.length - k generalizing k with
  | zero =>
    have h : E.length ≤ k := by omega
    simpa [hat, h, List.drop_eq_nil_of_le h] using ha
  | succ n ih =>
    have h : k < E.length := by omega
    rw [List.drop_eq_getElem_cons h, List.flatMap_cons, List.append_assoc]
    simp only [hat k, List.getElem?_eq_getElem h, Option.map_some, Option.some_or]
    exact Plots.lineStart (hs k) (ih (k + 1) (by omega)) ..

/-! ## Rectangles -/

theorem plots_drawRect (cfg : Config) (c : Bool) (x y w h : Half) (w' h' : Int) :
    Plots cfg c none (drawRectAt c x y w h w' h' 0)
      ((outlineEdges (signedOperand x) (signedOperand y) w' h').flatMap fun e => linePoints e.1.1 e.1.2 e.2.1 e.2.2) := by
  have := Plots.lines (inside := fun edge l => .drawRect c x y w h w' h' edge l) (drawRectAt c x y w h w' h')
    (fun _ => rfl) (fun k l s _ => by rw [Option.or_none]; rfl) (.done (cfg := cfg) (c := c) (fin := none)) 0
  simpa using this

theorem plots_fillRect (cfg : Config) (c : Bool) (x y w h : Half) (w' : Int) {h' : Int} (hh : 0 ≤ h') :
    Plots cfg c none (fillRectAt c x y w h w' h' 0)
      ((List.range (h'.toNat + 1)).flatMap fun (i : Nat) =>
        linePoints (signedOperand x) (signedOperand y + i) (signedOperand x + w') (signedOperand y + i)) := by
  have hat (k : Nat) : fillRectAt c x y w h w' h' k =
      ((List.range (h'.toNat + 1)).map fun (i : Nat) =>
        ((signedOperand x, signedOperand y + i), (signedOperand x + w', signedOperand y + i)))[k]?.map fun e =>
          .fillRect c x y w h w' h' k (lineStart e.1.1 e.1.2 e.2.1 e.2.2) := by
    unfold fillRectAt
    by_cases hk : (k : Int) ≤ h'
    · simp [hk, List.getElem?_range (show k < h'.toNat + 1 by omega)]
    · simp [hk, show ¬ k < h'.toNat + 1 by omega]
  have := Plots.lines (inside := fun i l => .fillRect c x y w h w' h' i l) (fillRectAt c x y w h w' h') hat
    (fun k l s _ => by rw [Option.or_none]; rfl) (.done (cfg := cfg) (c := c) (fin := none)) 0
  simpa [List.flatMap_map] using this

/-! ## Circles -/

/-- The pairs are those of the locals, then those of the locals after a pass. -/
theorem circlePairs_some (n : Nat) (l : CircleLocals) : circlePairs (n + 1) (some l) = l.pair :: circlePairs n l.next := rfl

theorem circlePairs_none (n : Nat) : circlePairs n none = [] := by cases n <;> rfl

/-- The loop of spec/43_circle.md R120 goes one column on, at most one row down, and only while x ≤ y. -/
theorem CircleLocals.next_bound {l l' : CircleLocals} (h : l.next = some l') : l'.x = l.x + 1 ∧ l'.y ≤ l.y ∧ l'.x ≤ l'.y := by
  unfold CircleLocals.next CircleLocals.tested at h
  split_ifs at h <;> cases h <;> simp_all

theorem circleStart_some {r : Int} {l : CircleLocals} (h : circleStart r = some l) : 0 ≤ r ∧ l = ⟨0, r, 1 - r⟩ := by
  unfold circleStart CircleLocals.tested at h
  split_ifs at h
  cases h; exact ⟨‹_›, rfl⟩

/-- The eight calls of a pair, from number `k` on. -/
theorem plots_octant {cfg : Config} {c : Bool} {x0 y0 r : Half} {l : CircleLocals} {qs : List Point}
    (h : Plots cfg c none (l.next.map fun l' => .drawCircle c x0 y0 r l' 0) qs) (n k : Nat) (hk : k + n = 7) :
    Plots cfg c none (some (.drawCircle c x0 y0 r l k))
      ((octantPoints (signedOperand x0) (signedOperand y0) l.pair).drop k ++ qs) := by
  have hl : (octantPoints (signedOperand x0) (signedOperand y0) l.pair).length = 8 := rfl
  induction n generalizing k with
  | zero =>
    obtain rfl : k = 7 := by omega
    exact Plots.pass (p := drawCirclePass c x0 y0 r l 7) (fun s _ => rfl) h
  | succ n ih =>
    have := Plots.pass (w := .drawCircle c x0 y0 r l k) (p := drawCirclePass c x0 y0 r l k) (fun s _ => rfl)
      (by simpa [drawCirclePass, show k + 1 < 8 by omega] using ih (k + 1) (by omega))
    have hk' : k < (octantPoints (signedOperand x0) (signedOperand y0) l.pair).length := by omega
    rw [List.drop_eq_getElem_cons hk']
    rw [List.cons_append]
    simpa [drawCirclePass, List.getElem?_eq_getElem hk', -List.getElem_cons_drop] using this

/-- A command that does something at each pair of CircleIter. -/
theorem plots_circle {cfg : Config} {c : Bool} {first : CircleLocals → Option Work} {f : Point → List Point}
    (h : ∀ (l : CircleLocals) qs, Plots cfg c none (l.next.bind first) qs → Plots cfg c none (first l) (f l.pair ++ qs)) :
    ∀ (n : Nat) (l : CircleLocals), l.y + 1 - l.x ≤ n → l.x ≤ l.y →
      Plots cfg c none (first l) ((circlePairs n (some l)).flatMap f) := by
  intro n
  induction n with
  | zero => intro l hn hl; omega
  | succ n ih =>
    intro l hn hl
    rw [circlePairs_some, List.flatMap_cons]
    refine h l _ ?_
    cases hl' : l.next with
    | none => rw [circlePairs_none]; exact .done
    | some l' =>
      obtain ⟨h1, h2, h3⟩ := CircleLocals.next_bound hl'
      exact ih l' (by push_cast at hn; omega) h3

theorem plots_circleIter {cfg : Config} {c : Bool} {first : CircleLocals → Option Work} {f : Point → List Point}
    (h : ∀ (l : CircleLocals) qs, Plots cfg c none (l.next.bind first) qs → Plots cfg c none (first l) (f l.pair ++ qs)) (r : Int) :
    Plots cfg c none ((circleStart r).bind first) ((circleIter r).flatMap f) := by
  unfold circleIter
  cases hs : circleStart r with
  | none => rw [circlePairs_none]; exact .done
  | some l =>
    obtain ⟨h0, rfl⟩ := circleStart_some hs
    exact plots_circle h _ _ (by simp) h0

theorem plots_drawCircle (cfg : Config) (c : Bool) (x0 y0 r : Half) :
    Plots cfg c none ((circleStart (signedOperand r)).map fun l => .drawCircle c x0 y0 r l 0)
      (ringPoints (signedOperand x0) (signedOperand y0) (signedOperand r)) := by
  have e (l : Option CircleLocals) : (l.map fun l => Work.drawCircle c x0 y0 r l 0) =
      l.bind fun l => some (.drawCircle c x0 y0 r l 0) := by cases l <;> rfl
  rw [e]
  refine plots_circleIter (fun l qs hq => ?_) _
  simpa using plots_octant (by rwa [e]) 7 0 rfl

theorem plots_fillCircle (cfg : Config) (c : Bool) (x0 y0 r : Half) :
    Plots cfg c none ((circleStart (signedOperand r)).bind fun l => fillCircleAt c x0 y0 r l 0)
      (discPoints (signedOperand x0) (signedOperand y0) (signedOperand r)) := by
  refine plots_circleIter (fun l qs hq => ?_) _
  have := Plots.lines (inside := fun chord l' => .fillCircle c x0 y0 r l chord l') (fillCircleAt c x0 y0 r l)
    (fun _ => rfl) (fun k l s _ => rfl) hq 0
  simpa [fillCircleAt, chordEnds, chordPoints] using this

/-! ## Glyphs -/

/-- The record after a pass inside a glyph. -/
def glyphAfter (F : Font) (code : Byte) (inside : GlyphLocals → Work) (after : Option Work) (g : GlyphLocals) : Option Work :=
  match g.next F code with
  | none => after
  | some g' => some (inside g')

/-- The points of a glyph byte's bits `k`, `k + 1`, … -/
def bitsFrom (x y : Int) (v : Byte) (k : Nat) : List Point :=
  ((List.range' k (8 - k)).filter fun k => v.getLsbD k).map fun (k : Nat) => (x, y + k)

theorem bitsFrom_eq (F : Font) (code : Byte) (x y : Int) (g : GlyphLocals) (hk : g.k < 8) :
    bitsFrom (x + g.j) (y + g.b * 8) (F.glyphByte code g.j g.b) g.k =
      (g.point F code x y).toList ++ bitsFrom (x + g.j) (y + g.b * 8) (F.glyphByte code g.j g.b) (g.k + 1) := by
  unfold bitsFrom
  rw [show 8 - g.k = (8 - (g.k + 1)) + 1 by omega, List.range'_succ, List.filter_cons]
  unfold GlyphLocals.point
  split_ifs <;> simp

section
variable {cfg : Config} {c : Bool} {F : Font} {code : Byte} {x y : Int} {inside : GlyphLocals → Work} {fin after : Option Work}
  (hs : ∀ g (s : State), s.cfg = cfg →
    stepWork (inside g) s = s.pass c ⟨g.point F code x y, glyphAfter F code inside after g⟩)
include hs

/-- The bits of a byte, from number `k` on. -/
theorem plots_bits {qs : List Point} (j b n k : Nat) (hk : k + n = 7)
    (h : Plots cfg c fin (glyphAfter F code inside after ⟨j, b, 7⟩) qs) :
    Plots cfg c fin (some (inside ⟨j, b, k⟩)) (bitsFrom (x + j) (y + b * 8) (F.glyphByte code j b) k ++ qs) := by
  rw [bitsFrom_eq F code x y ⟨j, b, k⟩ (by simp; omega), List.append_assoc]
  refine Plots.pass (hs _) ?_
  induction n generalizing k with
  | zero =>
    obtain rfl : k = 7 := by omega
    simpa [bitsFrom] using h
  | succ n ih =>
    have e : glyphAfter F code inside after ⟨j, b, k⟩ = some (inside ⟨j, b, k + 1⟩) := by
      simp [glyphAfter, GlyphLocals.next, show k + 1 < 8 by omega]
    simp only [e]
    rw [bitsFrom_eq F code x y ⟨j, b, k + 1⟩ (by simp; omega), List.append_assoc]
    exact Plots.pass (hs _) (ih (k + 1) (by omega))

/-- The bytes of a column, from number `b` on. -/
theorem plots_bytes {qs : List Point} (j n b : Nat) (hb : b + n + 1 = F.bytesPerColumn)
    (h : Plots cfg c fin (glyphAfter F code inside after ⟨j, F.bytesPerColumn - 1, 7⟩) qs) :
    Plots cfg c fin (some (inside ⟨j, b, 0⟩)) (((List.range' b (F.bytesPerColumn - b)).flatMap fun (b : Nat) =>
      columnPoints (x + j) (y + b * 8) (F.glyphByte code j b)) ++ qs) := by
  have hc (v : Byte) (x y : Int) : columnPoints x y v = bitsFrom x y v 0 := by simp [columnPoints, bitsFrom, List.range_eq_range']
  induction n generalizing b with
  | zero =>
    have := plots_bits hs j b 7 0 rfl (by rwa [show b = F.bytesPerColumn - 1 by omega])
    simpa [show F.bytesPerColumn - b = 1 by omega, hc] using this
  | succ n ih =>
    rw [show F.bytesPerColumn - b = F.bytesPerColumn - (b + 1) + 1 by omega, List.range'_succ, List.flatMap_cons, List.append_assoc, hc]
    refine plots_bits hs j b 7 0 rfl ?_
    have e : glyphAfter F code inside after ⟨j, b, 7⟩ = some (inside ⟨j, b + 1, 0⟩) := by
      simp [glyphAfter, GlyphLocals.next, show b + 1 < F.bytesPerColumn by omega]
    rw [e]
    exact ih (b + 1) (by omega)

/-- The columns of a glyph, from number `j` on. -/
theorem plots_columns {qs : List Point} (hb : 0 < F.bytesPerColumn) (h : Plots cfg c fin after qs) (n j : Nat)
    (hj : j + n + 1 = F.glyphWidth code) :
    Plots cfg c fin (some (inside ⟨j, 0, 0⟩)) (((List.range' j (F.glyphWidth code - j)).flatMap fun (j : Nat) =>
      (List.range F.bytesPerColumn).flatMap fun (b : Nat) => columnPoints (x + j) (y + b * 8) (F.glyphByte code j b)) ++ qs) := by
  induction n generalizing j with
  | zero =>
    have e : glyphAfter F code inside after ⟨j, F.bytesPerColumn - 1, 7⟩ = after := by
      simp [glyphAfter, GlyphLocals.next, show ¬ F.bytesPerColumn - 1 + 1 < F.bytesPerColumn by omega,
        show ¬ j + 1 < F.glyphWidth code by omega]
    have := plots_bytes hs j (F.bytesPerColumn - 1) 0 (by omega) (by rwa [e])
    simpa [show F.glyphWidth code - j = 1 by omega, List.range_eq_range'] using this
  | succ n ih =>
    have e : glyphAfter F code inside after ⟨j, F.bytesPerColumn - 1, 7⟩ = some (inside ⟨j + 1, 0, 0⟩) := by
      simp [glyphAfter, GlyphLocals.next, show ¬ F.bytesPerColumn - 1 + 1 < F.bytesPerColumn by omega,
        show j + 1 < F.glyphWidth code by omega]
    rw [show F.glyphWidth code - j = F.glyphWidth code - (j + 1) + 1 by omega, List.range'_succ, List.flatMap_cons, List.append_assoc,
      List.range_eq_range']
    refine plots_bytes hs j (F.bytesPerColumn - 1) 0 (by omega) ?_
    rw [e, ← List.range_eq_range']
    exact ih (j + 1) (by omega)

/-- A whole glyph inside a command: its points are plotted, and then the command goes on. -/
theorem plots_glyph {qs : List Point} (h : Plots cfg c fin after qs) {g : GlyphLocals} (hg : glyphStart F code = some g) :
    Plots cfg c fin (some (inside g)) (glyphPoints F code x y ++ qs) := by
  unfold glyphStart at hg
  split_ifs at hg with hg'
  cases hg
  have := plots_columns hs hg'.2 h (F.glyphWidth code - 1) 0 (by omega)
  simpa [glyphPoints, List.range_eq_range'] using this

end

/-- A glyph without columns has no points. -/
theorem glyphPoints_eq_nil {F : Font} {code : Byte} (h : glyphStart F code = none) (x y : Int) : glyphPoints F code x y = [] := by
  unfold glyphStart at h
  split_ifs at h with hg
  unfold glyphPoints
  rcases Nat.eq_zero_or_pos (F.glyphWidth code) with h0 | h0
  · simp [h0]
  · simp [show F.bytesPerColumn = 0 by omega]

theorem plots_drawChar (cfg : Config) (c : Bool) (x y : Half) (font code : Byte) :
    Plots cfg c none ((selectGlyph cfg font code).bind fun F => (glyphStart F code).map fun g => .drawChar c x y font code g)
      (charPoints cfg (signedOperand x) (signedOperand y) font code) := by
  unfold charPoints
  cases hF : selectGlyph cfg font code with
  | none => exact .done
  | some F =>
    simp only [Option.bind_some]
    cases hg : glyphStart F code with
    | none => rw [glyphPoints_eq_nil hg]; exact .done
    | some g =>
      have := plots_glyph (F := F) (code := code) (inside := fun g => .drawChar c x y font code g) (after := none)
        (x := signedOperand x) (y := signedOperand y) (cfg := cfg) (c := c)
        (fun g s hs => by
          subst hs
          simp only [stepWork, drawCharPass, hF, glyphAfter, Option.bind_some]
          cases g.next F code <;> rfl) .done hg
      simpa using this

/-- One character of a string: its glyph is plotted, and the record is that of the next character, the cursor moved. -/
theorem plots_character (cfg : Config) (c : Bool) (x y : Half) (font : Byte) (text : List Byte) (i : Nat) (cx : Int) {code : Byte}
    (hc : text[i]? = some code) (hstop : ¬ (cx ≥ cfg.width ∨ signedOperand y ≥ cfg.height)) :
    Plots cfg c (some (drawStringAdvance cfg c x y font text i cx code)) (some (.drawString c x y font text i cx none))
      (charPoints cfg cx (signedOperand y) font code) := by
  cases hg : (selectGlyph cfg font code).bind fun F => glyphStart F code with
  | none =>
    have := Plots.pass (cfg := cfg) (c := c) (w := .drawString c x y font text i cx none)
      (p := ⟨none, some (drawStringAdvance cfg c x y font text i cx code)⟩)
      (fun s hs => by subst hs; simp [stepWork, drawStringPass, hc, hstop, hg]) .done
    unfold charPoints
    cases hF : selectGlyph cfg font code with
    | none => exact this
    | some F => simp only [hF, Option.bind_some] at hg; simpa [glyphPoints_eq_nil hg] using this
  | some g =>
    obtain ⟨F, hF, hg'⟩ := Option.bind_eq_some_iff.1 hg
    have := plots_glyph (F := F) (code := code) (inside := fun g => .drawString c x y font text i cx (some g))
      (after := some (drawStringAdvance cfg c x y font text i cx code)) (x := cx) (y := signedOperand y) (cfg := cfg) (c := c)
      (fun g s hs => by
        subst hs
        simp only [stepWork, drawStringPass, hc, hF, glyphAfter, Option.bind_some, Option.map_some]
        cases g.next F code <;> rfl) .done hg'
    have := Plots.pass (cfg := cfg) (c := c) (w := .drawString c x y font text i cx none)
      (p := ⟨none, some (.drawString c x y font text i cx (some g))⟩)
      (fun s hs => by subst hs; simp [stepWork, drawStringPass, hc, hstop, hg]) this
    simpa [charPoints, hF] using this

theorem plots_string (cfg : Config) (c : Bool) (x y : Half) (font : Byte) (text : List Byte) :
    ∀ (n i : Nat) (cx : Int), text.length = i + n → Plots cfg c none (some (.drawString c x y font text i cx none))
      (stringPoints cfg font (signedOperand y) cx (text.drop i)) := by
  intro n
  induction n with
  | zero =>
    intro i cx hi
    have := Plots.pass (cfg := cfg) (c := c) (w := .drawString c x y font text i cx none) (p := ⟨none, none⟩)
      (fun s _ => by simp [stepWork, drawStringPass, List.getElem?_eq_none (show text.length ≤ i by omega)]) .done
    simpa [List.drop_eq_nil_of_le (show text.length ≤ i by omega), stringPoints] using this
  | succ n ih =>
    intro i cx hi
    have hlt : i < text.length := by omega
    rw [List.drop_eq_getElem_cons hlt, stringPoints]
    split_ifs with hstop
    · exact Plots.pass (cfg := cfg) (c := c) (p := ⟨none, none⟩)
        (fun s hs => by subst hs; simp [stepWork, drawStringPass, List.getElem?_eq_getElem hlt, hstop]) .done
    · exact (plots_character cfg c x y font text i cx (List.getElem?_eq_getElem hlt) hstop).trans (ih (i + 1) _ (by omega))

/-! ## Every command -/

/-- The passes of a drawing command make its SetPixel calls, in order, and come to an end. -/
theorem plots_firstRecord {cfg : Config} {i : Instr} {c : Bool} {ps : List Point} (h : pixelCalls cfg i = some (c, ps)) :
    Plots cfg c none (firstRecord cfg i) ps := by
  have hb (w : Option Work) : recordOf ((State.afterReset cfg 0).begin w).cur = w := recordOf_begin rfl w
  have hc : (State.afterReset cfg 0).cfg = cfg := rfl
  cases i <;> cases h <;>
    simp only [firstRecord, exec, execSetPixel, execDrawLine, execDrawRect, execFillRect, execDrawCircle, execFillCircle, execDrawChar,
      execDrawString, hb, hc]
  case setPixel.refl x y => exact Plots.pass (p := setPixelPass x y) (fun _ _ => rfl) .done
  case drawLine.refl x0 y0 x1 y1 =>
    simpa using Plots.lineStart (inside := .drawLine c x0 y0 x1 y1) (fun _ _ _ => rfl) (.done (cfg := cfg) (c := c) (fin := none)) ..
  case drawRect.refl x y w h =>
    unfold drawRectPoints
    split_ifs
    · exact .done
    · exact plots_drawRect ..
  case fillRect.refl x y w h =>
    unfold fillRectPoints
    split_ifs
    · exact .done
    · exact plots_fillRect _ _ _ _ _ _ _ (by omega)
  case drawCircle.refl => exact plots_drawCircle ..
  case fillCircle.refl => exact plots_fillCircle ..
  case drawChar.refl => exact plots_drawChar ..
  case drawString.refl x y font text =>
    unfold drawStringPoints
    cases cfg.font font with
    | none => exact .done
    | some F => simpa using plots_string cfg c x y font text text.length 0 (signedOperand x) (by simp)

/-- From every record a drawing command comes to, its passes plot and come to an end. -/
theorem plots_recordAfter {cfg : Config} {i : Instr} {c : Bool} {ps : List Point} (h : pixelCalls cfg i = some (c, ps)) (n : Nat) :
    ∃ qs, Plots cfg c none (recordAfter cfg i n) qs := by
  induction n with
  | zero => exact ⟨ps, plots_firstRecord h⟩
  | succ n ih =>
    obtain ⟨qs, ih⟩ := ih
    rw [recordAfter]
    cases hr : recordAfter cfg i n with
    | none => exact ⟨[], .done⟩
    | some w => rw [hr] at ih; exact ih.next

/-- A drawing command, begun in an idle core, completes: its SetPixel calls are made and nothing else has changed. -/
theorem drawing_completes {i : Instr} {s : State} {c : Bool} {ps : List Point} (h : pixelCalls s.cfg i = some (c, ps))
    (hw : s.cfg.wf = true) (hi : s.cur = .idle) : ∃ u, exec i s = .next u ∧ Completes u (s.plot c ps) := by
  have hd : drivesTransport i = false := by cases i <;> first | rfl | cases h
  exact ⟨_, exec_eq_begin hd s, (plots_firstRecord h).completes hw rfl hi⟩

/-- The passes of CLEAR, from byte `i` on. -/
theorem clear_completes_from {n i : Nat} {s : State} (hw : s.cfg.wf = true) (hi : i + n + 1 = s.cfg.size) (hc : s.cur = .working (.clear i)) :
    Completes s { s with fb := s.fb.clear, cur := .idle } := by
  induction n generalizing i s with
  | zero =>
    refine Completes.step (cmdReady_working hc) (step_working hw hc) ?_
    simp only [stepWork, stepClear, clearAt, show ¬ i + 1 < s.cfg.size by omega, if_false, ofWork_none]
    exact Completes.refl rfl
  | succ n ih =>
    refine Completes.step (cmdReady_working hc) (step_working hw hc) ?_
    simp only [stepWork, stepClear, clearAt, show i + 1 < s.cfg.size by omega, if_true, ofWork_some]
    exact ih (s := { s with fb := s.fb.write i 0x00, cur := .working (.clear (i + 1)) }) (i := i + 1) hw (by simp only; omega) rfl

/-- An accepted configuration has bytes. -/
theorem size_pos_of_wf {cfg : Config} (h : cfg.wf = true) : 0 < cfg.size := by
  simp only [Config.wf, Bool.and_eq_true, decide_eq_true_eq] at h
  have : 1 * 8 ≤ cfg.width * cfg.height := Nat.mul_le_mul (by omega) (by omega)
  unfold Config.size
  omega

theorem clear_completes {s : State} (hw : s.cfg.wf = true) (hi : s.cur = .idle) :
    ∃ u, exec .clear s = .next u ∧ Completes u { s with fb := s.fb.clear } := by
  refine ⟨_, rfl, ?_⟩
  have h := size_pos_of_wf hw
  have := clear_completes_from (n := s.cfg.size - 1) (i := 0) (s := s.begin (some (.clear 0))) (by simpa using hw) (by simp; omega) rfl
  simp only [hi]
  exact this

/-- GET_BYTE and GET_STATUS complete in one pass. -/
theorem getByte_completes {s : State} (hw : s.cfg.wf = true) (hi : s.cur = .idle) (p : Byte) (q : Half) :
    ∃ u, exec (.getByte p q) s = .next u ∧ Completes u (s.respond (getByteResponse s (byteOperand p) (unsignedOperand q))) := by
  refine ⟨_, rfl, Completes.step (cmdReady_working rfl) (step_working (by simpa using hw) rfl) ?_⟩
  rw [show stepWork (.getByte p q) (s.begin (some (.getByte p q))) =
    s.respond (getByteResponse s (byteOperand p) (unsignedOperand q)) by
    simp only [stepWork, stepGetByte, State.respond, hi]; rfl]
  exact Completes.refl hi

theorem getStatus_completes {s : State} (hw : s.cfg.wf = true) (hi : s.cur = .idle) :
    ∃ u, exec .getStatus s = .next u ∧ Completes u (s.respond s.dcs.status) := by
  refine ⟨_, rfl, Completes.step (cmdReady_working rfl) (step_working (by simpa using hw) rfl) ?_⟩
  rw [show stepWork .getStatus (s.begin (some .getStatus)) = s.respond s.dcs.status by
    simp only [stepWork, stepGetStatus, State.respond, hi]; rfl]
  exact Completes.refl hi

end Sys2Proof.Machine
end

