-- ==== Sys2Proof/Tests/Slice0.lean ====
section
/-! SUPPORT. Our own tests. Expected values are the vectors V<n> of spec/95_test_vectors.md, or worked by hand from the rule named. The
last part shows, for each statement with hypotheses, states and operands that meet them. -/

namespace Sys2Proof.Tests

-- One theorem at a time: each kernel evaluation would otherwise hold a thread of its own.
set_option Elab.async false

open Sys2Proof Sys2Proof.Machine Sys2Proof.Safety

/-! ## Well-formedness: an ill-formed term for each check -/

theorem test_wf_refuses_long_string : (Instr.drawString true 0 0 0 (List.replicate 256 0x41)).wf = false := by decide +kernel
theorem test_wf_admits_longest_string : (Instr.drawString true 0 0 0 (List.replicate 255 0x41)).wf = true := by decide +kernel

theorem test_fonts_wf : Font.t5x7.wf = true ∧ Font.t12.wf = true := by decide +kernel
/-- R131 (a), both halves. -/
theorem test_wf_refuses_font_range :
    ({ Font.t12 with asciiOffset := 0x42 } : Font).wf = false ∧ ({ Font.t12 with asciiEnd := 0x40 } : Font).wf = false := by
  decide +kernel
/-- R131 (b), its three bounds. -/
theorem test_wf_refuses_font_zeros :
    ({ Font.t12 with bytesPerColumn := 0 } : Font).wf = false ∧ ({ Font.t12 with glyphStride := 0 } : Font).wf = false ∧
    ({ Font.t12 with interLetterSpacingDivisor := 0 } : Font).wf = false := by decide +kernel
/-- R131 (c): one byte short. -/
theorem test_wf_refuses_short_table : ({ Font.t12 with table := Font.t12.table.dropLast } : Font).wf = false := by
  decide +kernel
/-- R131 (d): 'A' of width 4 needs nine bytes of a record of seven. -/
theorem test_wf_refuses_wide_glyph : ({ Font.t12 with table := Font.t12.table.set 7 0x04 } : Font).wf = false := by
  decide +kernel

theorem test_standard_wf : Config.standard.wf = true := by decide +kernel
theorem test_wf_refuses_sizes :
    (Config.ofSize 0 64).wf = false ∧ (Config.ofSize 32768 64).wf = false ∧ (Config.ofSize 128 0).wf = false ∧
    (Config.ofSize 128 60).wf = false ∧ (Config.ofSize 128 2056).wf = false := by decide +kernel
theorem test_wf_refuses_parameters :
    ({ Config.standard with fmtCap := 256 } : Config).wf = false ∧ ({ Config.standard with pageSelect := [] } : Config).wf = false ∧
    ({ Config.standard with fonts := List.replicate 257 Font.t12 } : Config).wf = false ∧
    ({ Config.standard with fonts := [{ Font.t12 with glyphStride := 0 }] } : Config).wf = false := by decide +kernel

/-! ## Decoding: packets written out from R62 and R63, byte 0 first -/

theorem test_decode_clear : decode [0x10] = .command .clear [] := by decide
/-- V60. -/
theorem test_decode_setPixel : decode [0x12, 0xFF, 0xFF, 0x05, 0x00] = .command (.setPixel false 0xFFFF 0x0005) [] := by decide
/-- V67, and a column whose two bytes differ. -/
theorem test_decode_getByte :
    decode [0x14, 0x01, 0x05, 0x00] = .command (.getByte 0x01 0x0005) [] ∧
    decode [0x14, 0xFF, 0x34, 0x12] = .command (.getByte 0xFF 0x1234) [] := by decide
/-- V61, and eight operand bytes that all differ. -/
theorem test_decode_drawLine :
    decode [0x21, 0x00, 0x80, 0xFF, 0x7F, 0x00, 0x00, 0x00, 0x00] = .command (.drawLine true 0x8000 0x7FFF 0 0) [] ∧
    decode [0x20, 0x01, 0x02, 0x03, 0x04, 0x05, 0x06, 0x07, 0x08] =
      .command (.drawLine false 0x0201 0x0403 0x0605 0x0807) [] := by decide
theorem test_decode_drawRect :
    decode [0x23, 0x01, 0x02, 0x03, 0x04, 0x05, 0x06, 0x07, 0x08] =
      .command (.drawRect true 0x0201 0x0403 0x0605 0x0807) [] := by decide
theorem test_decode_fillRect :
    decode [0x25, 0x7E, 0x00, 0x3C, 0x00, 0x0A, 0x00, 0x0B, 0x00] =
      .command (.fillRect true 0x007E 0x003C 0x000A 0x000B) [] := by decide
theorem test_decode_drawCircle :
    decode [0x27, 0x0A, 0x00, 0x0B, 0x00, 0xFF, 0xFF] = .command (.drawCircle true 0x000A 0x000B 0xFFFF) [] := by decide
theorem test_decode_fillCircle :
    decode [0x28, 0x0A, 0x00, 0x0B, 0x00, 0x03, 0x00] = .command (.fillCircle false 0x000A 0x000B 0x0003) [] := by decide
theorem test_decode_drawChar :
    decode [0x31, 0x03, 0x00, 0x06, 0x00, 0x01, 0x3A] = .command (.drawChar true 0x0003 0x0006 0x01 0x3A) [] := by decide
/-- V62 with a byte behind it, and the 7-byte packet of V49b. -/
theorem test_decode_drawString :
    decode [0x33, 0x0A, 0x00, 0x14, 0x00, 0x00, 0x08, 0x31, 0x32, 0x3A, 0x33, 0x30, 0x3A, 0x30, 0x30, 0x42] =
      .command (.drawString true 0x000A 0x0014 0 [0x31, 0x32, 0x3A, 0x33, 0x30, 0x3A, 0x30, 0x30]) [0x42] ∧
    decode [0x33, 0x00, 0x00, 0x00, 0x00, 0x00, 0x00] = .command (.drawString true 0 0 0 []) [] := by decide
/-- V63: what stands behind a packet is left. -/
theorem test_decode_controller :
    decode [0x40, 0x42, 0x44] = .command .init [0x42, 0x44] ∧ decode [0x42, 0x44] = .command .flush [0x44] ∧
    decode [0x44] = .command .getStatus [] := by decide
/-- V64, V65. -/
theorem test_decode_reserved :
    [0x11, 0x00, 0x2A, 0x41, 0x43, 0x45, 0xFF, 0x15, 0x34].all (fun b => decide (decode [b, 0x10] = .reserved b [0x10])) =
      true := by decide
/-- V66. -/
theorem test_decode_cut : decode [0x13, 0x05, 0x00, 0x0A] = .incomplete := by decide

/-- The number whose bytes, least significant first, are V3's packet; and a reserved byte. -/
theorem test_decodeTableWord :
    decodeTableWord 40 0x000A000513 = some (.setPixel true 5 10) ∧ decodeTableWord 8 0x11 = none ∧
    decodeTableWord 56 0x32 = some (.drawString false 0 0 0 []) := by decide +kernel

/-! ## One step, and whole commands -/

/-- The machine as after CLEAR, DCS Uninitialized: the start state of the spec's vectors. -/
def clean : State := { State.reset with fb := { epoch := 0, cleared := true, cells := [] } }

/-- `clean` with some bytes of FB already written. -/
def withCells (cells : List Host.Cell) : State := { State.reset with fb := { epoch := 0, cleared := true, cells := cells } }

/-- `clean` after INIT, without its trace. -/
def cleanOn : State := { clean with dcs := .on }

theorem clean_wf : clean.cfg.wf = true ∧ clean.fb.wf = true := by decide +kernel

/-- The state after one step. -/
def stepped (s : State) : Option State :=
  match step s with
  | .next t => some t
  | .fault _ => none
  | .refused _ => none

/-- The state after one step with the packet at the port. -/
def after (s : State) (packet : List Byte) : Option State := stepped { s with cmdIn := packet }

/-- The opcode and operands CUR holds after that step, and whether the port is ready. -/
def begun (s : State) (packet : List Byte) : Option (Option Instr × Bool) :=
  (after s packet).map fun t => (t.cur.command, t.cmdReady)

/-- One pass of a command whose record CUR holds: the bytes of FB that are not zero, and CUR after it. -/
def passed (cells : List Host.Cell) (w : Work) : Option (List Host.Cell × Cur) :=
  (stepped { withCells cells with cur := .working w }).map fun t => (t.fb.cells, t.cur)

/-- The command of the packet begins and completes: the first list holds the bytes of FB that were not zero, the second one those that are not
zero then. -/
def Draws (packet : List Byte) (before after : List Host.Cell) : Prop :=
  ∃ i u, decode packet = .command i [] ∧ exec i (withCells before) = .next u ∧ Completes u (withCells after)

/-- Its SetPixel calls, made on FB. -/
def drawn (packet : List Byte) (before : List Host.Cell) : Option Framebuffer :=
  match decode packet with
  | .command i [] => (pixelCalls Config.standard i).map fun p => (withCells before).fb.plot Config.standard p.1 p.2
  | .command _ (_ :: _) => none
  | .reserved _ _ => none
  | .incomplete => none

theorem draws_of {packet : List Byte} {before after : List Host.Cell} (h : drawn packet before = some (withCells after).fb) :
    Draws packet before after := by
  unfold drawn at h
  split at h
  next i hd =>
    obtain ⟨p, hp, hm⟩ := Option.map_eq_some_iff.1 h
    obtain ⟨u, hu, hc⟩ := drawing_completes (s := withCells before) hp clean_wf.1 rfl
    refine ⟨i, u, hd, hu, ?_⟩
    rw [State.plot, show (withCells before).fb.plot (withCells before).cfg p.1 p.2 = _ from hm] at hc
    exact hc
  all_goals cases h

/-- V9e: FB[3] is written, then the last byte; and the last pass in a buffer no CLEAR has touched yet. -/
theorem test_clear :
    begun (withCells [(3, 0xFF), (1023, 0x01)]) [0x10] = some (some .clear, false) ∧
    passed [(3, 0xFF), (1023, 0x01)] (.clear 3) = some ([(1023, 0x01)], .working (.clear 4)) ∧
    passed [(1023, 0x01)] (.clear 1023) = some ([], .idle) ∧
    (stepped { State.reset with cur := .working (.clear 1023) }).map (fun t => (t.fb.cleared, t.fb.cells, t.cur)) =
      some (true, [], .idle) := by decide +kernel
/-- V3, as a packet that begins and as its pass. -/
theorem test_setPixel_pass :
    begun clean [0x13, 0x05, 0x00, 0x0A, 0x00] = some (some (.setPixel true 5 10), false) ∧
    passed [] (.setPixel true 5 10) = some ([(133, 0x04)], .idle) := by decide +kernel
/-- V2, V4 (the neighbouring bit is kept); V5, V6, V7, V8. -/
theorem test_setPixel :
    Draws [0x13, 0x7F, 0x00, 0x3F, 0x00] [] [(1023, 0x80)] ∧
    Draws [0x13, 0x05, 0x00, 0x0B, 0x00] [(133, 0x04)] [(133, 0x0C)] ∧
    Draws [0x12, 0x05, 0x00, 0x0A, 0x00] [(133, 0x0C)] [(133, 0x08)] ∧
    Draws [0x13, 0x80, 0x00, 0x00, 0x00] [] [] ∧
    Draws [0x12, 0xFF, 0xFF, 0x05, 0x00] [(5, 0xFF), (127, 0xFF)] [(5, 0xFF), (127, 0xFF)] ∧
    Draws [0x13, 0x03, 0x00, 0x40, 0x00] [] [] := by
  refine ⟨draws_of ?_, draws_of ?_, draws_of ?_, draws_of ?_, draws_of ?_, draws_of ?_⟩ <;> decide +kernel
/-- V9a, as a packet that begins and as its pass, nothing written. -/
theorem test_getByte :
    begun clean [0x14, 0x01, 0x05, 0x00] = some (some (.getByte 0x01 0x0005), false) ∧
    (stepped { withCells [(133, 0x04)] with cur := .working (.getByte 0x01 0x0005) }).map (fun t => (t.rsp, t.fb.cells, t.cur)) =
      some ([0x04], [(133, 0x04)], .idle) := by decide +kernel
/-- V9b; V9c, V9d, with a byte already owed. -/
theorem test_getByte_range :
    getByteResponse (withCells [(1023, 0x80)]) 7 127 = 0x80 ∧
    (stepped { withCells [(128, 0x55)] with rsp := [0x77], cur := .working (.getByte 0x08 0x0000) }).map (fun t => t.rsp) =
      some [0x77, 0x00] ∧
    (stepped { withCells [(128, 0x55)] with cur := .working (.getByte 0x00 0x0080) }).map (fun t => t.rsp) = some [0x00] := by
  decide +kernel
/-- Passes of V10, the error terms those of the trace the spec gives of it (section 4): the first two, and the last. -/
theorem test_drawLine_pass :
    (after clean [0x21, 0x00, 0x00, 0x00, 0x00, 0x05, 0x00, 0x02, 0x00]).map (fun t => (t.cur, t.cmdReady)) =
      some (.working (.drawLine true 0 0 5 2 ⟨0, 0, 5, 2, 5, 2, 1, 1, 3⟩), false) ∧
    passed [] (.drawLine true 0 0 5 2 ⟨0, 0, 5, 2, 5, 2, 1, 1, 3⟩) =
      some ([(0, 0x01)], .working (.drawLine true 0 0 5 2 ⟨1, 0, 5, 2, 5, 2, 1, 1, 1⟩)) ∧
    passed [(0, 0x01)] (.drawLine true 0 0 5 2 ⟨1, 0, 5, 2, 5, 2, 1, 1, 1⟩) =
      some ([(0, 0x01), (1, 0x01)], .working (.drawLine true 0 0 5 2 ⟨2, 1, 5, 2, 5, 2, 1, 1, 4⟩)) ∧
    passed [] (.drawLine true 0 0 5 2 ⟨5, 2, 5, 2, 5, 2, 1, 1, 3⟩) = some ([(5, 0x04)], .idle) := by decide +kernel
/-- V10 and V19b (the endpoints are put in order first), as calls; V14 (negative coordinates), V18 (no wrap). -/
theorem test_drawLine :
    linePoints 0 0 5 2 = [(0, 0), (1, 0), (2, 1), (3, 1), (4, 2), (5, 2)] ∧ linePoints 2 1 0 0 = [(0, 0), (1, 0), (2, 1)] ∧
    Draws [0x21, 0xFE, 0xFF, 0xFF, 0xFF, 0x02, 0x00, 0x01, 0x00] [] [(0, 0x01), (1, 0x01), (2, 0x02)] ∧
    Draws [0x21, 0x7E, 0x00, 0x00, 0x00, 0x82, 0x00, 0x00, 0x00] [] [(126, 0x01), (127, 0x01)] := by
  refine ⟨?_, ?_, draws_of ?_, draws_of ?_⟩ <;> decide +kernel
/-- V20 at the end of its top edge, the bottom edge then next; the last point of its right edge (R111). -/
theorem test_drawRect_pass :
    begun clean [0x23, 0x02, 0x00, 0x01, 0x00, 0x03, 0x00, 0x02, 0x00] = some (some (.drawRect true 2 1 3 2), false) ∧
    passed [] (.drawRect true 2 1 3 2 3 2 0 ⟨5, 1, 5, 1, 3, 0, 1, -1, 3⟩) =
      some ([(5, 0x02)], .working (.drawRect true 2 1 3 2 3 2 1 ⟨2, 3, 5, 3, 3, 0, 1, -1, 3⟩)) ∧
    passed [] (.drawRect true 2 1 3 2 3 2 3 ⟨5, 3, 5, 3, 0, 2, -1, 1, -2⟩) = some ([(5, 0x08)], .idle) := by decide +kernel
/-- V20, V24 (no clamp on the left or top); V26, V23: negative after clamping, complete at once. -/
theorem test_drawRect :
    Draws [0x23, 0x02, 0x00, 0x01, 0x00, 0x03, 0x00, 0x02, 0x00] [] [(2, 0x0E), (3, 0x0A), (4, 0x0A), (5, 0x0E)] ∧
    Draws [0x23, 0xFD, 0xFF, 0xFD, 0xFF, 0x05, 0x00, 0x05, 0x00] [] [(0, 0x04), (1, 0x04), (2, 0x07)] ∧
    after clean [0x23, 0x04, 0x00, 0x04, 0x00, 0xFF, 0xFF, 0x03, 0x00] = some clean ∧
    after clean [0x23, 0x82, 0x00, 0x0A, 0x00, 0x05, 0x00, 0x05, 0x00] = some clean := by
  refine ⟨draws_of ?_, draws_of ?_, ?_, ?_⟩ <;> decide +kernel
/-- V29: the end of row 0, row 1 then next; the end of the last row (R112). -/
theorem test_fillRect_pass :
    begun clean [0x25, 0x01, 0x00, 0x02, 0x00, 0x02, 0x00, 0x01, 0x00] = some (some (.fillRect true 1 2 2 1), false) ∧
    passed [] (.fillRect true 1 2 2 1 2 1 0 ⟨3, 2, 3, 2, 2, 0, 1, -1, 2⟩) =
      some ([(3, 0x04)], .working (.fillRect true 1 2 2 1 2 1 1 ⟨1, 3, 3, 3, 2, 0, 1, -1, 2⟩)) ∧
    passed [] (.fillRect true 1 2 2 1 2 1 1 ⟨3, 3, 3, 3, 2, 0, 1, -1, 2⟩) = some ([(3, 0x08)], .idle) := by decide +kernel
/-- V28 (clamped), V29, V29c. -/
theorem test_fillRect :
    Draws [0x25, 0x7E, 0x00, 0x3C, 0x00, 0x0A, 0x00, 0x0A, 0x00] [] [(1022, 0xF0), (1023, 0xF0)] ∧
    Draws [0x25, 0x01, 0x00, 0x02, 0x00, 0x02, 0x00, 0x01, 0x00] [] [(1, 0x0C), (2, 0x0C), (3, 0x0C)] ∧
    Draws [0x25, 0xFE, 0xFF, 0xFE, 0xFF, 0x03, 0x00, 0x03, 0x00] [] [(0, 0x03), (1, 0x03)] := by
  refine ⟨draws_of ?_, draws_of ?_, draws_of ?_⟩ <;> decide +kernel
/-- V30 as it begins; its eighth call, the next pair then; the eighth call of its last pair. The pairs and their d are the trace the spec gives
of r = 3 (section 6). -/
theorem test_drawCircle_pass :
    (after clean [0x27, 0x0A, 0x00, 0x0A, 0x00, 0x03, 0x00]).map (fun t => (t.cur, t.cmdReady)) =
      some (.working (.drawCircle true 10 10 3 ⟨0, 3, -2⟩ 0), false) ∧
    passed [] (.drawCircle true 10 10 3 ⟨0, 3, -2⟩ 7) = some ([(135, 0x04)], .working (.drawCircle true 10 10 3 ⟨1, 3, 1⟩ 0)) ∧
    passed [] (.drawCircle true 10 10 3 ⟨2, 2, 2⟩ 7) = some ([(136, 0x01)], .idle) := by decide +kernel
/-- The iterates of r = 8 (spec/95_test_vectors.md section 6); V30, V31; V34 is complete at once. -/
theorem test_drawCircle :
    circleIter 8 = [(0, 8), (1, 8), (2, 8), (3, 7), (4, 7), (5, 6)] ∧
    Draws [0x27, 0x0A, 0x00, 0x0A, 0x00, 0x03, 0x00] []
      [(9, 0x80), (10, 0x80), (11, 0x80), (135, 0x0E), (136, 0x11), (137, 0x20), (138, 0x20), (139, 0x20), (140, 0x11),
        (141, 0x0E)] ∧
    Draws [0x27, 0x0A, 0x00, 0x0A, 0x00, 0x00, 0x00] [] [(138, 0x04)] ∧
    after clean [0x27, 0x0A, 0x00, 0x0A, 0x00, 0xFF, 0xFF] = some clean := by
  refine ⟨?_, draws_of ?_, draws_of ?_, ?_⟩ <;> decide +kernel
/-- V36 as it begins: a chord of the pair (0, 3) is one point, in row 13; after the fourth chord comes the next pair (R122). -/
theorem test_fillCircle_pass :
    begun clean [0x29, 0x0A, 0x00, 0x0A, 0x00, 0x03, 0x00] = some (some (.fillCircle true 10 10 3), false) ∧
    passed [] (.fillCircle true 10 10 3 ⟨0, 3, -2⟩ 0 ⟨10, 13, 10, 13, 0, 0, -1, -1, 0⟩) =
      some ([(138, 0x20)], .working (.fillCircle true 10 10 3 ⟨0, 3, -2⟩ 1 ⟨10, 7, 10, 7, 0, 0, -1, -1, 0⟩)) ∧
    passed [] (.fillCircle true 10 10 3 ⟨0, 3, -2⟩ 3 ⟨13, 10, 13, 10, 6, 0, 1, -1, 6⟩) =
      some ([(141, 0x04)], .working (.fillCircle true 10 10 3 ⟨1, 3, 1⟩ 0 ⟨9, 13, 11, 13, 2, 0, 1, -1, 2⟩)) := by decide +kernel
/-- V36, V39a. -/
theorem test_fillCircle :
    Draws [0x29, 0x0A, 0x00, 0x0A, 0x00, 0x03, 0x00] []
      [(9, 0x80), (10, 0x80), (11, 0x80), (135, 0x0E), (136, 0x1F), (137, 0x3F), (138, 0x3F), (139, 0x3F), (140, 0x1F),
        (141, 0x0E)] ∧
    Draws [0x29, 0x00, 0x00, 0x00, 0x00, 0x02, 0x00] [] [(0, 0x07), (1, 0x07), (2, 0x03)] := by
  refine ⟨draws_of ?_, draws_of ?_⟩ <;> decide +kernel
/-- V42 as it begins; 'A' of font 1 is 3 columns of 2 bytes, its first byte FE: bit 0 plots nothing, bit 7 plots, and the second byte of the
column is next; the last bit of the last column (R132). -/
theorem test_drawChar_pass :
    begun clean [0x31, 0x00, 0x00, 0x00, 0x00, 0x01, 0x41] = some (some (.drawChar true 0 0 1 0x41), false) ∧
    passed [] (.drawChar true 0 0 1 0x41 ⟨0, 0, 0⟩) = some ([], .working (.drawChar true 0 0 1 0x41 ⟨0, 0, 1⟩)) ∧
    passed [] (.drawChar true 0 0 1 0x41 ⟨0, 0, 7⟩) = some ([(0, 0x80)], .working (.drawChar true 0 0 1 0x41 ⟨0, 1, 0⟩)) ∧
    passed [] (.drawChar true 0 0 1 0x41 ⟨2, 1, 7⟩) = some ([], .idle) := by decide +kernel
/-- V41 (across a page boundary), V42 (two bytes per column); V43: unsupported codes, and a font number equal to N_FONTS, are complete
at once. -/
theorem test_drawChar :
    Draws [0x31, 0x03, 0x00, 0x06, 0x00, 0x00, 0x3A] [] [(3, 0x80), (4, 0x80), (131, 0x0D), (132, 0x0D)] ∧
    Draws [0x31, 0x00, 0x00, 0x00, 0x00, 0x01, 0x41] [] [(0, 0xFE), (1, 0x11), (2, 0xFE), (128, 0x0F), (130, 0x0F)] ∧
    after clean [0x31, 0x00, 0x00, 0x00, 0x00, 0x01, 0x40] = some clean ∧
    after clean [0x31, 0x00, 0x00, 0x00, 0x00, 0x00, 0x3B] = some clean ∧
    after clean [0x31, 0x00, 0x00, 0x00, 0x00, 0x02, 0x31] = some clean := by
  refine ⟨draws_of ?_, draws_of ?_, ?_, ?_, ?_⟩ <;> decide +kernel
/-- V46 as it begins, the cursor at x: then inside the DrawChar of 'A'; after its last bit the cursor stands 3 + 1 columns on; the
unsupported 'x' moves it nowhere; past the end of the text the command is complete (R135). -/
theorem test_drawString_pass :
    (after clean [0x33, 0x00, 0x00, 0x00, 0x00, 0x01, 0x03, 0x41, 0x78, 0x42]).map (fun t => (t.cur, t.cmdReady)) =
      some (.working (.drawString true 0 0 1 [0x41, 0x78, 0x42] 0 0 none), false) ∧
    passed [] (.drawString true 0 0 1 [0x41, 0x78, 0x42] 0 0 none) =
      some ([], .working (.drawString true 0 0 1 [0x41, 0x78, 0x42] 0 0 (some ⟨0, 0, 0⟩))) ∧
    passed [] (.drawString true 0 0 1 [0x41, 0x78, 0x42] 0 0 (some ⟨2, 1, 7⟩)) =
      some ([], .working (.drawString true 0 0 1 [0x41, 0x78, 0x42] 1 4 none)) ∧
    passed [] (.drawString true 0 0 1 [0x41, 0x78, 0x42] 1 4 none) =
      some ([], .working (.drawString true 0 0 1 [0x41, 0x78, 0x42] 2 4 none)) ∧
    passed [] (.drawString true 0 0 1 [0x41, 0x78, 0x42] 3 7 none) = some ([], .idle) := by decide +kernel
/-- V46 (gap, unsupported character), V47 (early stop at the right edge), V49 (y ≥ H); V49c: an unknown font is complete at once. -/
theorem test_drawString :
    Draws [0x33, 0x00, 0x00, 0x00, 0x00, 0x01, 0x03, 0x41, 0x78, 0x42] []
      [(0, 0xFE), (1, 0x11), (2, 0xFE), (4, 0xFF), (5, 0x99), (128, 0x0F), (130, 0x0F), (132, 0x0F), (133, 0x09)] ∧
    Draws [0x33, 0x78, 0x00, 0x00, 0x00, 0x00, 0x04, 0x30, 0x31, 0x32, 0x33] []
      [(120, 0x3E), (121, 0x51), (122, 0x49), (123, 0x45), (124, 0x3E), (126, 0x42), (127, 0x7F)] ∧
    Draws [0x33, 0x00, 0x00, 0x40, 0x00, 0x00, 0x01, 0x31] [] [] ∧
    after clean [0x33, 0x00, 0x00, 0x00, 0x00, 0x02, 0x01, 0x31] = some clean := by
  refine ⟨draws_of ?_, draws_of ?_, draws_of ?_, ?_⟩ <;> decide +kernel
/-- V51: the calls of INIT, in full, and the step that takes its packet: the first of them is offered. -/
theorem test_init :
    initCalls Config.standard = .reset :: [0xAE, 0xD5, 0x80, 0xA8, 0x3F, 0xD3, 0x00, 0x40, 0x8D, 0x14, 0xA1, 0xC8, 0xDA, 0x12, 0x81,
      0xCF, 0xD9, 0xF1, 0xA6, 0xA4, 0xAF].map .cmd ∧
    (after State.reset [0x40]).map (fun t => (t.dcs, t.tx, t.txOffered, t.cmdReady)) =
      some (.transportReady, [], some .reset, false) := by decide +kernel
/-- The last call completes INIT (R151); V51b (again: nothing). -/
theorem test_init_ends_and_again :
    (after { clean with dcs := .configurationScripted, cur := .init 24 } []).map (fun t => (t.dcs, t.tx, t.cur)) =
      some (.on, [.cmd 0xAF], .idle) ∧
    (after cleanOn [0x40]).map (fun t => (t.dcs, t.tx, t.cur)) = some (.on, [], .idle) := by decide +kernel
/-- A 2 × 16 buffer, DCS at On. -/
def small : State := { cleanOn with cfg := Config.ofSize 2 16, fb := { epoch := 0, cleared := true, cells := [(0, 0xFF), (3, 0x80)] } }

/-- By R155 (page 0 first, column fastest), and the step that takes the packet; V53. -/
theorem test_flush :
    flushCalls small.cfg small.fb =
      [.cmd 0xB0, .cmd 0x00, .cmd 0x10, .data 0xFF, .data 0x00, .cmd 0xB1, .cmd 0x00, .cmd 0x10, .data 0x00, .data 0x80] ∧
    (after small [0x42]).map (fun t => (t.tx, t.txOffered)) = some ([], some (.cmd 0xB0)) ∧
    (after State.reset [0x42]).map (fun t => (t.tx, t.cur)) = some ([], .idle) := by decide +kernel
/-- A step of FLUSH completes one call (R176): the fourth, and the last. -/
theorem test_flush_step :
    (after { small with cur := .flush 3, transport := .accepts 1 } []).map (fun t => (t.tx, t.txOffered, t.transport)) =
      some ([.data 0xFF], some (.data 0x00), .accepts 0) ∧
    (after { small with cur := .flush 9 } []).map (fun t => (t.tx, t.cur)) = some ([.data 0x80], .idle) := by decide +kernel
/-- V50, V51a, as a packet that begins and as its pass. -/
theorem test_getStatus :
    begun clean [0x44] = some (some .getStatus, false) ∧
    (stepped { clean with cur := .working .getStatus }).map (fun t => (t.rsp, t.cur)) = some ([0x00], .idle) ∧
    (stepped { cleanOn with rsp := [0x00], cur := .working .getStatus }).map (fun t => t.rsp) = some [0x00, 0x84] := by
  decide +kernel
/-- By R49, a byte of RSP can be taken between commands, not while FLUSH or CLEAR is in progress. -/
theorem test_hostTake :
    ({ small with rsp := [0x01, 0x02] } : State).hostTake = some (0x01, { small with rsp := [0x02] }) ∧
    ({ small with rsp := [0x01, 0x02], cur := .flush 3 } : State).hostTake = none ∧
    ({ small with rsp := [0x01, 0x02], cur := .working (.clear 3) } : State).hostTake = none := by decide +kernel
/-- V64: consumed, no effect. V66: the core waits, and the fifth byte completes the packet. -/
theorem test_port :
    after clean [0x11, 0x44] = some { clean with cmdIn := [0x44] } ∧
    after clean [0x13, 0x05, 0x00, 0x0A] = some { clean with pkt := [0x13, 0x05, 0x00, 0x0A] } ∧
    begun { clean with pkt := [0x13, 0x05, 0x00, 0x0A] } [0x00] = some (some (.setPixel true 5 10), false) := by decide +kernel
/-- The host's two questions on V1's packet as a number: the first instruction after reset. -/
theorem test_withFetchWord :
    decode (State.reset.withFetchWord 40 0x13).incoming = .command (.setPixel true 0 0) [] ∧
    (stepped (State.reset.withFetchWord 40 0x13)).map (fun t => t.cur) = some (.working (.setPixel true 0 0)) := by decide +kernel

/-! ## States and operands that meet the hypotheses of the statements

One theorem for each statement of Sys2Proof/Certificates/Slice0/Obligations.lean that has hypotheses, clause by clause where it has
several, at the ends of the ranges. -/

theorem witness_DecodeOfEncode :
    (Instr.drawString false 0xFFFF 0x8000 0xFF (List.replicate 255 0xFF)).wf = true ∧ (Instr.getByte 0xFF 0xFFFF).wf = true := by
  decide +kernel
theorem witness_EncodeOfDecode :
    decode [0x33, 0xFF, 0xFF, 0x00, 0x80, 0x01, 0x01, 0x41, 0x10] = .command (.drawString true 0xFFFF 0x8000 0x01 [0x41]) [0x10] := by
  decide
theorem witness_ReservedBytesAreTheListedOnes :
    [0x00, 0x0F, 0x11, 0x15, 0x1F, 0x2A, 0x2F, 0x34, 0x3F, 0x41, 0x43, 0x45, 0xFF].all
      (fun b => decide (decode [b] = .reserved b [])) = true ∧
    [0x10, 0x12, 0x13, 0x14, 0x20, 0x29, 0x30, 0x33, 0x40, 0x42, 0x44].all
      (fun b => decide (decode [b] = .reserved b [])) = false := by decide
theorem witness_CutPacketIsIncomplete :
    (Instr.setPixel true 5 10).wf = true ∧ encode (.setPixel true 5 10) = [] ++ [0x13, 0x05, 0x00, 0x0A, 0x00] ∧
    encode (.setPixel true 5 10) = [0x13, 0x05, 0x00, 0x0A] ++ [0x00] ∧ ([0x00] : List Byte) ≠ [] := by decide
theorem witness_PacketLengthFromByteZero :
    (Instr.drawChar true 0 0 0 0).wf = true ∧ 0x31#8 &&& 0xFE#8 ≠ 0x32#8 ∧ 0x34#8 &&& 0xFE#8 ≠ 0x32#8 ∧
    0x32#8 &&& 0xFE#8 = 0x32#8 ∧ 0x33#8 &&& 0xFE#8 = 0x32#8 := by decide

theorem witness_StepRunsDecodedCommand :
    clean.cfg.wf = true ∧ clean.cur = .idle ∧
    decode ({ clean with pkt := [0x13, 0x05], cmdIn := [0x00, 0x0A, 0x00, 0x44] }.pkt ++
      { clean with pkt := [0x13, 0x05], cmdIn := [0x00, 0x0A, 0x00, 0x44] }.cmdIn) =
      .command (.setPixel true 5 10) [0x44] := by decide +kernel
theorem witness_ReservedByteIsConsumed :
    clean.cfg.wf = true ∧ clean.cur = .idle ∧
    decode ({ clean with cmdIn := [0xFF, 0x10] }.pkt ++ { clean with cmdIn := [0xFF, 0x10] }.cmdIn) = .reserved 0xFF [0x10] := by
  decide +kernel
theorem witness_CutPacketWaitsForItsRest :
    clean.cfg.wf = true ∧ clean.cur = .idle ∧ decode (clean.pkt ++ clean.cmdIn) = .incomplete ∧
    decode ({ clean with pkt := [0x13], cmdIn := [0x05, 0x00, 0x0A] }.pkt ++
      { clean with pkt := [0x13], cmdIn := [0x05, 0x00, 0x0A] }.cmdIn) = .incomplete := by decide +kernel
theorem witness_AcceptedConfigurationNeverStops : State.reset.cfg.wf = true ∧ (Config.ofSize 1 8).wf = true := by decide +kernel
theorem witness_IllFormedConfigurationIsRefused : { clean with cfg := Config.ofSize 128 60 }.cfg.wf = false := by decide +kernel
/-- A first command that is complete after one pass, and one that is complete at once. -/
theorem witness_CommandsRunInArrivalOrder :
    clean.cfg.wf = true ∧ clean.cur = .idle ∧ clean.pkt = [] ∧ (Instr.setPixel true 5 10).wf = true ∧
    (Instr.getByte 1 5).wf = true ∧ Instr.flush.wf = true ∧
    { clean with cmdIn := [0x13, 0x05, 0x00, 0x0A, 0x00, 0x14, 0x01, 0x05, 0x00] }.cmdIn =
      encode (.setPixel true 5 10) ++ encode (.getByte 1 5) ++ [] ∧
    (∃ t u, exec (.setPixel true 5 10) { clean with cmdIn := encode (.getByte 1 5) ++ [] } = .next t ∧ core.run 1 t = .next u ∧
      u.cur = .idle ∧ ∀ m < 1, ∀ v, core.run m t = .next v → v.cur ≠ .idle) ∧
    ∃ t, exec .flush { clean with cmdIn := encode (.getByte 1 5) ++ [] } = .next t ∧ core.run 0 t = .next t ∧ t.cur = .idle ∧
      ∀ m < 0, ∀ v, core.run m t = .next v → v.cur ≠ .idle := by
  have hrun (s : State) (w : Work) (hw : s.cfg.wf = true) (hc : s.cur = .working w) : core.run 1 s = .next (stepWork w s) :=
    run_succ (step_working hw hc) 0
  refine ⟨clean_wf.1, rfl, rfl, rfl, rfl, rfl, by decide,
    ⟨_, _, rfl, hrun _ (.setPixel true 5 10) clean_wf.1 rfl, rfl, fun m hm v hv => ?_⟩,
    _, rfl, rfl, rfl, fun m h => absurd h (Nat.not_lt_zero m)⟩
  obtain rfl : m = 0 := by omega
  cases hv
  exact fun h => by cases h

theorem witness_ClearZeroesEveryByte :
    clean.cfg.wf = true ∧ clean.cur = .idle ∧ State.reset.cfg.wf = true ∧ State.reset.cur = .idle ∧ cleanOn.cfg.wf = true ∧
    cleanOn.cur = .idle := ⟨clean_wf.1, rfl, clean_wf.1, rfl, clean_wf.1, rfl⟩
/-- In bounds at two corners; out of bounds on each of the four sides. -/
theorem witness_SetPixelWritesOneBit :
    clean.cfg.wf = true ∧ clean.fb.wf = true ∧ clean.cur = .idle ∧ inBounds clean.cfg (signedOperand 0, signedOperand 0) = true ∧
    inBounds clean.cfg (signedOperand 127, signedOperand 63) = true ∧
    inBounds clean.cfg (signedOperand 128, signedOperand 0) = false ∧
    inBounds clean.cfg (signedOperand 0, signedOperand 64) = false ∧
    inBounds clean.cfg (signedOperand 0xFFFF, signedOperand 0) = false ∧
    inBounds clean.cfg (signedOperand 0, signedOperand 0xFFFF) = false := by decide +kernel
theorem witness_GetByteAppendsTheByte :
    clean.cfg.wf = true ∧ clean.cur = .idle ∧ ((7#8).toNat < clean.cfg.pages ∧ (127#16).toNat < clean.cfg.width) ∧
    ¬ ((8#8).toNat < clean.cfg.pages ∧ (0#16).toNat < clean.cfg.width) ∧
    ¬ ((0#8).toNat < clean.cfg.pages ∧ (128#16).toNat < clean.cfg.width) := by decide +kernel
/-- In bounds at the last corner, and just outside it. -/
theorem witness_SetPixelThenGetByteShowsTheBit :
    clean.cfg.wf = true ∧ clean.fb.wf = true ∧ clean.cur = .idle ∧
    ((∃ u t, exec (.setPixel true 127 63) clean = .next u ∧ Completes u t) ∧
      inBounds clean.cfg (signedOperand 127, signedOperand 63) = true) ∧
    (∃ u t, exec (.setPixel true 128 63) clean = .next u ∧ Completes u t) ∧
      inBounds clean.cfg (signedOperand 128, signedOperand 63) = false := by
  have h (x : Half) : ∃ u t, exec (.setPixel true x 63) clean = .next u ∧ Completes u t :=
    have ⟨u, hu, hc⟩ := drawing_completes (i := .setPixel true x 63) (s := clean) rfl clean_wf.1 rfl
    ⟨u, _, hu, hc⟩
  exact ⟨clean_wf.1, clean_wf.2, rfl, ⟨h 127, by decide +kernel⟩, h 128, by decide +kernel⟩
theorem witness_PixelAddressIsInRange :
    Config.standard.wf = true ∧ inBounds Config.standard (0, 0) = true ∧ inBounds Config.standard (127, 63) = true := by
  decide +kernel
theorem witness_EveryBitIsOnePixel :
    Config.standard.wf = true ∧ 0 < Config.standard.size ∧ 1023 < Config.standard.size ∧ 7 < 8 := by decide +kernel
theorem witness_EqualReadsAreEqualStores :
    (withCells [(3, 0x01)]).fb.wf = true ∧ ((clean.fb.write 3 0x01).write 5 0x02).wf = true ∧
    (((clean.fb.write 3 0x01).write 5 0x02).write 5 0x00).wf = true ∧
    (withCells [(3, 0x01)]).fb.epoch = (((clean.fb.write 3 0x01).write 5 0x02).write 5 0x00).epoch ∧
    (withCells [(3, 0x01)]).fb.cleared = (((clean.fb.write 3 0x01).write 5 0x02).write 5 0x00).cleared ∧
    ∀ i, (withCells [(3, 0x01)]).fb.read i = (((clean.fb.write 3 0x01).write 5 0x02).write 5 0x00).read i := by
  refine ⟨by decide, by decide, by decide, rfl, rfl, fun i => ?_⟩
  have h : withCells [(3, 0x01)] = { clean with fb := ((clean.fb.write 3 0x01).write 5 0x02).write 5 0x00 } := by decide +kernel
  rw [h]

/-- The first and the last point of V10. -/
theorem witness_DrawLinePaintsTheLine :
    clean.cfg.wf = true ∧ clean.fb.wf = true ∧ clean.cur = .idle ∧
    (linePoints (signedOperand 0) (signedOperand 0) (signedOperand 5) (signedOperand 2))[0]? = some (0, 0) ∧
    (linePoints (signedOperand 0) (signedOperand 0) (signedOperand 5) (signedOperand 2))[5]? = some (5, 2) := by decide +kernel
theorem witness_LineIsSymmetric : clean.cfg.wf = true ∧ clean.cur = .idle := ⟨clean_wf.1, rfl⟩
/-- A wide line that falls, at its first and last step; a vertical line; a tall line at its last step. -/
theorem witness_LineSpansItsEndpoints :
    ((0 : Int) < 5 ∧ (5 : Int) = ((5 : Int) - 0).natAbs ∧ (2 : Int) = ((-2 : Int) - 0).natAbs ∧
      (-1 : Int) = (if (0 : Int) < -2 then 1 else -1) ∧ (2 : Int) ≤ 5 ∧ ((0 : Nat) : Int) ≤ 5 ∧ ((5 : Nat) : Int) ≤ 5) ∧
    ((3 : Int) = 3 ∧ (0 : Int) < 1 ∧ (0 : Int) = ((3 : Int) - 3).natAbs ∧ (1 : Int) = ((1 : Int) - 0).natAbs ∧ (0 : Int) < 1 ∧
      ((1 : Nat) : Int) ≤ 1) ∧
    ((0 : Int) < 2 ∧ (2 : Int) = ((2 : Int) - 0).natAbs ∧ (5 : Int) = ((5 : Int) - 0).natAbs ∧
      (1 : Int) = (if (0 : Int) < 5 then 1 else -1) ∧ (2 : Int) < 5 ∧ ((5 : Nat) : Int) ≤ 5) := by decide
/-- A wide line at its first and last column, a tall one at its first and last row. -/
theorem witness_TieFreeLinesAreTheObviousOnes :
    ((2 : Int) - 0).natAbs ≤ ((5 : Int) - 0).natAbs ∧ (min 0 5 : Int) ≤ 0 ∧ (5 : Int) ≤ max 0 5 ∧
    ((3 : Int) - 0).natAbs ≤ ((3 : Int) - 0).natAbs ∧
    ((2 : Int) - 0).natAbs < ((5 : Int) - 0).natAbs ∧ (min 0 5 : Int) ≤ 5 := by decide

/-- A negative width with a height that is not, a negative height with a width that is not; both sizes zero; both as large as can be. -/
theorem witness_DrawRectPaintsTheCroppedOutline :
    clean.cfg.wf = true ∧ clean.fb.wf = true ∧ clean.cur = .idle ∧ (signedOperand 0xFFFF < 0 ∧ 0 ≤ signedOperand 3) ∧ (0 ≤ signedOperand 3 ∧ signedOperand 0x8000 < 0) ∧
    0 ≤ signedOperand 0 ∧ 0 ≤ signedOperand 0x7FFF := by decide +kernel
theorem witness_FillRectPaintsTheCroppedArea :
    clean.cfg.wf = true ∧ clean.fb.wf = true ∧ clean.cur = .idle ∧ (signedOperand 0xFFFF < 0 ∧ 0 ≤ signedOperand 3) ∧ (0 ≤ signedOperand 3 ∧ signedOperand 0x8000 < 0) ∧
    0 ≤ signedOperand 0 ∧ 0 ≤ signedOperand 0x7FFF := by decide +kernel
theorem witness_FillThenClearIsClear :
    clean.cfg.wf = true ∧ clean.fb.wf = true ∧ clean.cur = .idle ∧
    ∃ u t, exec (.fillRect true 0 0 (BitVec.ofNat 16 clean.cfg.width) (BitVec.ofNat 16 clean.cfg.height)) clean = .next u ∧
      Completes u t :=
  have ⟨u, hu, hc⟩ := drawing_completes (i := .fillRect true 0 0 (BitVec.ofNat 16 clean.cfg.width) (BitVec.ofNat 16 clean.cfg.height))
    (s := clean) rfl clean_wf.1 rfl
  ⟨clean_wf.1, clean_wf.2, rfl, u, _, hu, hc⟩

/-- Negative, zero, the least radius with a ring; a last pair on the diagonal and one beside it. -/
theorem witness_OctantIterationIsAWalk :
    (-1 : Int) < 0 ∧ (0 : Int) ≤ 0 ∧ (circleIter 0).getLast? = some (0, 0) ∧ (1 : Int) ≤ 1 ∧ (0, 1) ∈ circleIter 1 ∧
    (circleIter 4).getLast? = some (3, 3) ∧ (circleIter 5).getLast? = some (3, 4) := by decide
theorem witness_DrawCirclePaintsTheRing :
    clean.cfg.wf = true ∧ clean.fb.wf = true ∧ clean.cur = .idle ∧ signedOperand 0xFFFF < 0 := by decide +kernel
theorem witness_FillCirclePaintsTheDisc :
    clean.cfg.wf = true ∧ clean.fb.wf = true ∧ clean.cur = .idle ∧ signedOperand 0xFFFF < 0 := by decide +kernel
theorem witness_CirclesStayWithinTheirRadius : (1, 3) ∈ ringPoints 0 0 3 ∧ (0, 0) ∈ discPoints 0 0 3 := by decide +kernel
/-- The least ring; a last pair on the diagonal and one beside it. -/
theorem witness_RingIsClosed :
    (1 : Int) ≤ 1 ∧ (0, 1) ∈ ringPoints 0 0 1 ∧ (-1, 0) ∈ ringPoints 0 0 1 ∧ (circleIter 1).getLast? = some (0, 1) ∧
    (circleIter 3).getLast? = some (2, 2) ∧ (2, 2) ∈ ringPoints 0 0 3 := by decide
/-- Row 2 of the disc of radius 3 ends at column 2. -/
theorem witness_DiscRowsAreUnbroken :
    (0 : Int) ≤ 3 ∧ (2, 2) ∈ ringPoints 0 0 3 ∧ (2, 2) ∈ discPoints 0 0 3 ∧ (3, 2) ∉ discPoints 0 0 3 ∧
    (-1 : Int).natAbs ≤ (2 : Int).natAbs ∧ (0, 3) ∈ discPoints 0 0 3 := by decide +kernel

theorem witness_FontReadsStayInTheirRecord :
    Font.t12.wf = true ∧ Font.t12.supports 0x42 = true ∧ 1 < Font.t12.glyphWidth 0x42 ∧ 1 < Font.t12.bytesPerColumn := by
  decide +kernel
/-- A font number equal to N_FONTS; codes just outside the range; its first and last code. -/
theorem witness_DrawCharPaintsTheGlyph :
    clean.cfg.wf = true ∧ clean.fb.wf = true ∧ clean.cur = .idle ∧ clean.cfg.fonts.length ≤ (2#8).toNat ∧ clean.cfg.fonts[(1#8).toNat]? = some Font.t12 ∧
    0x40#8 < Font.t12.asciiBegin ∧ Font.t12.asciiEnd < 0x43#8 ∧
    (Font.t12.asciiBegin ≤ 0x41#8 ∧ 0x41#8 ≤ Font.t12.asciiEnd) ∧ Font.t12.asciiBegin ≤ 0x42#8 ∧ 0x42#8 ≤ Font.t12.asciiEnd := by
  decide +kernel
/-- An unknown font; V46's string, before its first character and past its last one, no stop on the way. -/
theorem witness_DrawStringPaintsEachGlyph :
    (List.replicate 255 0x31#8).length ≤ 255 ∧ clean.cfg.wf = true ∧ clean.fb.wf = true ∧ clean.cur = .idle ∧
    clean.cfg.font 2 = none ∧ clean.cfg.font 1 = some Font.t12 ∧ 0 ≤ [0x41#8, 0x78#8, 0x42#8].length ∧
    3 ≤ [0x41#8, 0x78#8, 0x42#8].length ∧
    ∀ j < 3, signedOperand 0 < clean.cfg.height ∧
      cursorBefore clean.cfg 1 (signedOperand 0) [0x41#8, 0x78#8, 0x42#8] j < clean.cfg.width := by decide +kernel
theorem witness_UnsupportedCharactersAreSkipped :
    clean.cfg.wf = true ∧ clean.cur = .idle ∧ clean.cfg.font 1 = some Font.t12 ∧ Font.t12.supports 0x40 = false ∧
    Font.t12.supports 0x43 = false := by decide +kernel
theorem witness_FormatPrintIsOneCappedString :
    Config.standard.wf = true ∧ ({ Config.standard with fmtCap := 255 } : Config).wf = true := by decide +kernel

/-- A fair transport, one that accepts exactly INIT's calls, and the no-op with one that accepts nothing. -/
theorem witness_InitSendsTheScript :
    clean.dcs = .uninitialized ∧ clean.cfg.wf = true ∧ clean.transport = .fair ∧
    ({ clean with transport := .accepts 22 } : State).transport = .accepts 22 ∧ (initCalls clean.cfg).length = 22 ∧
    ({ cleanOn with transport := .accepts 0 } : State).dcs ≠ .uninitialized := by decide +kernel
/-- The same for FLUSH. -/
theorem witness_FlushSendsEveryPage :
    cleanOn.dcs = .on ∧ cleanOn.cfg.wf = true ∧ cleanOn.transport = .fair ∧
    ({ cleanOn with transport := .accepts 1048 } : State).transport = .accepts 1048 ∧
    cleanOn.cfg.pages * (3 + cleanOn.cfg.width) = 1048 ∧ ({ clean with transport := .accepts 0 } : State).dcs ≠ .on ∧
    ∃ t, exec .flush clean = .next t := ⟨rfl, clean_wf.1, rfl, rfl, by decide, by decide, _, rfl⟩
theorem witness_FlushPositionNamesTheCall :
    0 < Config.standard.pages ∧ 7 < Config.standard.pages ∧ 0 < 3 + Config.standard.width ∧ 130 < 3 + Config.standard.width := by
  decide +kernel
theorem witness_FlushDataIsTheFramebuffer :
    cleanOn.cfg.wf = true ∧ cleanOn.transport = .fair ∧ cleanOn.cur = .idle ∧ cleanOn.dcs = .on := by decide +kernel

/-- The state after reset meets the invariant. -/
theorem clean_good : GoodState clean where
  cfg_wf := clean_wf.1
  fb_wf := clean_wf.2
  fb_within := by decide +kernel
  pkt_incomplete := rfl
  controller := .inl ⟨rfl, rfl⟩
  work := fun _ h => nomatch h
  one_reset := by decide +kernel

/-- V54's state: INIT waits on its seventh call. -/
def stuck : State :=
  { clean with
    dcs := .reset
    tx := [.reset, .cmd 0xAE, .cmd 0xD5, .cmd 0x80, .cmd 0xA8, .cmd 0x3F]
    cur := .init 8
    transport := .accepts 0 }

theorem stuck_good : GoodState stuck where
  cfg_wf := clean_wf.1
  fb_wf := clean_wf.2
  fb_within := by decide +kernel
  pkt_incomplete := rfl
  controller := ⟨⟨.cmd 0xD3, by decide +kernel⟩, by decide +kernel, by decide +kernel⟩
  work := fun _ h => nomatch h
  one_reset := by decide +kernel

/-- After INIT, with its trace. -/
def initialized : State := { cleanOn with tx := initCalls Config.standard }

theorem initialized_good : GoodState initialized where
  cfg_wf := clean_wf.1
  fb_wf := clean_wf.2
  fb_within := by decide +kernel
  pkt_incomplete := rfl
  controller := .inr ⟨rfl, List.prefix_rfl⟩
  work := fun _ h => nomatch h
  one_reset := by decide +kernel

/-- V10's line in progress, its first point plotted. -/
def drawing : State :=
  { withCells [(0, 0x01)] with cur := .working (.drawLine true 0 0 5 2 ⟨1, 0, 5, 2, 5, 2, 1, 1, 1⟩) }

theorem drawing_good : GoodState drawing where
  cfg_wf := clean_wf.1
  fb_wf := by decide +kernel
  fb_within := by decide +kernel
  pkt_incomplete := rfl
  controller := .inl ⟨rfl, rfl⟩
  work := by rintro w ⟨⟩; exact ⟨⟨1, rfl⟩, fun _ h => nomatch h⟩
  one_reset := by decide +kernel

/-- A CLEAR in progress, its first byte written, and one that still stands. -/
def clearing : State := { withCells [(1, 0xFF)] with cur := .working (.clear 1) }

theorem clearing_good : GoodState clearing where
  cfg_wf := clean_wf.1
  fb_wf := by decide +kernel
  fb_within := by decide +kernel
  pkt_incomplete := rfl
  controller := .inl ⟨rfl, rfl⟩
  work := by
    rintro w ⟨⟩
    refine ⟨⟨1, by decide +kernel⟩, fun i h j hj => ?_⟩
    cases h
    obtain rfl : j = 0 := by omega
    decide +kernel
  one_reset := by decide +kernel

theorem witness_GetStatusAppendsTheStatus :
    (clean.cfg.wf = true ∧ clean.cur = .idle) ∧
    (GoodState clean ∧ clean.cur = .idle ∧ ∃ u, exec .getStatus clean = .next u) ∧
    GoodState initialized ∧ initialized.cur = .idle ∧ ∃ u, exec .getStatus initialized = .next u :=
  ⟨⟨clean_wf.1, rfl⟩, ⟨clean_good, rfl, _, rfl⟩, initialized_good, rfl, _, rfl⟩
/-- No call complete, or all but the last; a transport that accepts so many, and one that accepts every call. -/
theorem witness_UnreadyTransportHoldsInit :
    clean.cfg.wf = true ∧ clean.dcs = .uninitialized ∧ clean.transport = .fair ∧
    ({ clean with transport := .accepts 0 } : State).transport = .accepts 0 ∧ 0 < (initCalls clean.cfg).length ∧
    ({ clean with transport := .accepts 21 } : State).transport = .accepts 21 ∧ 21 < (initCalls clean.cfg).length := by
  decide +kernel
theorem witness_UnreadyTransportHoldsFlush :
    cleanOn.cfg.wf = true ∧ cleanOn.dcs = .on ∧ cleanOn.transport = .fair ∧
    ({ cleanOn with transport := .accepts 0 } : State).transport = .accepts 0 ∧
    0 < (flushCalls cleanOn.cfg cleanOn.fb).length ∧
    ({ cleanOn with transport := .accepts 1047 } : State).transport = .accepts 1047 ∧
    1047 < (flushCalls cleanOn.cfg cleanOn.fb).length := by decide +kernel
theorem witness_HungCoreStaysAsItIs : GoodState stuck ∧ hung stuck = true := ⟨stuck_good, rfl⟩
/-- FLUSH waits on its first call, INIT's calls made. -/
def stuckFlush : State := { cleanOn with tx := initCalls Config.standard, cur := .flush 0, transport := .accepts 0 }

theorem stuckFlush_good : GoodState stuckFlush where
  cfg_wf := clean_wf.1
  fb_wf := clean_wf.2
  fb_within := by decide +kernel
  pkt_incomplete := rfl
  controller := ⟨by decide +kernel, rfl, initCalls Config.standard, List.prefix_rfl, by simp [stuckFlush]⟩
  work := fun _ h => nomatch h
  one_reset := by decide +kernel

/-- INIT and FLUSH in progress, no more calls accepted, or all they have left but one; commands that make no call in progress; an idle core. -/
theorem witness_WaitingLeavesNoTrace :
    (GoodState stuck ∧ stuck.cur ≠ .idle ∧ 0 < (callsLeft stuck).length ∧ 15 < (callsLeft stuck).length) ∧
    (GoodState stuckFlush ∧ stuckFlush.cur ≠ .idle ∧ 0 < (callsLeft stuckFlush).length ∧ 1047 < (callsLeft stuckFlush).length) ∧
    GoodState drawing ∧ GoodState clearing ∧ GoodState clean :=
  ⟨⟨stuck_good, by decide +kernel⟩, ⟨stuckFlush_good, by decide +kernel⟩, drawing_good, clearing_good, clean_good⟩
/-- An offered call, with a transport that does not accept it and with one that does; a command that makes none; an idle core. -/
theorem witness_BusyCoreOffersOneCall :
    GoodState stuck ∧ stuck.txOffered = some (.cmd 0xD3) ∧ initPosition stuck.cfg 8 = 5 ∧ stuck.transport.accept = none ∧
    GoodState (stuck.grantTransport .fair) ∧ (stuck.grantTransport .fair).txOffered = some (.cmd 0xD3) ∧
    (stuck.grantTransport .fair).transport.accept = some .fair ∧ GoodState drawing ∧ GoodState clean :=
  ⟨stuck_good, by decide +kernel, by decide +kernel, rfl,
    ⟨stuck_good.1, stuck_good.2, stuck_good.3, stuck_good.4, stuck_good.5, stuck_good.6, stuck_good.7⟩, by decide +kernel, rfl,
    drawing_good, clean_good⟩

theorem witness_ResetContentIsTheFreeValue :
    Config.standard.wf = true ∧ (7#8).toNat < Config.standard.pages ∧ (127#16).toNat < Config.standard.width := by
  decide +kernel
theorem witness_BlockResetForgets :
    clean ≠ stuck ∧ ({ stuck with transport := .fair } : State).cfg = clean.cfg ∧
    ({ stuck with transport := .fair } : State).fb.epoch = clean.fb.epoch ∧
    ({ stuck with transport := .fair } : State).cmdIn = clean.cmdIn ∧
    ({ stuck with transport := .fair } : State).transport = clean.transport := by decide +kernel
theorem witness_GoodStateAfterReset : Config.standard.wf = true := test_standard_wf
/-- A step of an idle core with nothing at its port, one of the waiting core, and a pass each of a line and of a CLEAR. -/
theorem witness_StepKeepsGoodState :
    GoodState clean ∧ step clean = .next clean ∧ GoodState stuck ∧ step stuck = .next stuck ∧
    (GoodState drawing ∧ ∃ t, step drawing = .next t) ∧ GoodState clearing ∧ ∃ t, step clearing = .next t := by
  refine ⟨clean_good, ?_, stuck_good, ?_, ⟨drawing_good, _, step_working clean_wf.1 rfl⟩, clearing_good, _, step_working clean_wf.1 rfl⟩
  · unfold step; rw [if_pos clean_wf.1]; rfl
  · unfold step; rw [if_pos (show stuck.cfg.wf = true from clean_wf.1)]; rfl
/-- A response byte stands for the host to take. -/
theorem witness_OutsideMovesKeepGoodState :
    GoodState (clean.respond 0x84) ∧ (clean.respond 0x84).hostTake = some (0x84, clean) :=
  ⟨⟨clean_wf.1, clean_wf.2, clean_good.fb_within, rfl, .inl ⟨rfl, rfl⟩, (fun _ h => nomatch h), clean_good.one_reset⟩, rfl⟩
theorem witness_StepKeepsCanonicalStore : clean.fb.wf = true ∧ step clean = .next clean :=
  ⟨clean_wf.2, witness_StepKeepsGoodState.2.1⟩
theorem witness_StepKeepsConfiguration : step clean = .next clean := witness_StepKeepsGoodState.2.1
theorem witness_DcsNeverMovesBackward : GoodState stuck ∧ step stuck = .next stuck ∧ stuck.dcs ≠ .on :=
  ⟨stuck_good, witness_StepKeepsGoodState.2.2.2.1, by decide⟩
theorem witness_TraceBeginsWithItsOneReset : GoodState stuck ∧ step stuck = .next stuck ∧ stuck.tx ≠ [] :=
  ⟨stuck_good, witness_StepKeepsGoodState.2.2.2.1, by decide⟩
/-- A command of each kind that begins; a step of each kind of command in progress; a command of each kind that completes; a queue with
nothing, one with a byte for the host between commands, and the same byte while an INIT waits. -/
theorem witness_CommandsTouchOnlyTheirOwnState :
    ((∃ t, exec (.setPixel true 5 10) clean = .next t) ∧ (∃ t, exec .init clean = .next t)) ∧
    ((drawing.cur.command = some (.drawLine true 0 0 5 2) ∧ (∃ t, step drawing = .next t) ∧
        drivesTransport (.drawLine true 0 0 5 2) = false ∧ responds (.drawLine true 0 0 5 2) = false) ∧
      (({ clean with cur := .working .getStatus } : State).cur.command = some .getStatus ∧
        (∃ t, step { clean with cur := .working .getStatus } = .next t) ∧ responds .getStatus = true) ∧
      (stuck.cur.command = some .init ∧ step stuck = .next stuck ∧ drivesTransport .init = true) ∧
      stuckFlush.cur.command = some .flush ∧ step stuckFlush = .next stuckFlush) ∧
    (clean.cur = .idle ∧ (∃ u t, exec (.setPixel true 5 10) clean = .next u ∧ Completes u t) ∧
      (∃ u t, exec .getStatus clean = .next u ∧ Completes u t) ∧ (∃ u t, exec .flush clean = .next u ∧ Completes u t)) ∧
    (clean.rsp = [] ∧ clean.cur = .idle ∧ (clean.respond 0x84).cur = .idle ∧ (clean.respond 0x84).rsp = [0x84] ∧
      (stuck.respond 0x84).cur ≠ .idle ∧ (stuck.respond 0x84).rsp = [0x84]) := by
  have ⟨u, hu, hc⟩ := drawing_completes (i := .setPixel true 5 10) (s := clean) rfl clean_wf.1 rfl
  have ⟨u', hu', hc'⟩ := getStatus_completes (s := clean) clean_wf.1 rfl
  refine ⟨⟨⟨_, rfl⟩, _, rfl⟩, ⟨⟨rfl, ⟨_, step_working clean_wf.1 rfl⟩, rfl, rfl⟩, ⟨rfl, ⟨_, step_working clean_wf.1 rfl⟩, rfl⟩,
    ⟨rfl, witness_StepKeepsGoodState.2.2.2.1, rfl⟩, rfl, ?_⟩, ⟨rfl, ⟨u, _, hu, hc⟩, ⟨u', _, hu', hc'⟩, _, _, rfl, Completes.refl rfl⟩,
    rfl, rfl, rfl, rfl, by decide, rfl⟩
  unfold step; rw [if_pos (show stuckFlush.cfg.wf = true from clean_wf.1)]; rfl
/-- Before INIT, and after it with a transport that accepts nothing. -/
theorem witness_DrawingIgnoresTheController :
    drivesTransport (.setPixel true 5 10) = false ∧ clean.cfg.wf = true ∧
    clean.cfg = ({ initialized with transport := .accepts 0 } : State).cfg ∧
    clean.fb = ({ initialized with transport := .accepts 0 } : State).fb ∧ clean.cur = .idle ∧
    ({ initialized with transport := .accepts 0 } : State).cur = .idle ∧ (∃ u, exec (.setPixel true 5 10) clean = .next u) ∧
    ∃ u, exec (.setPixel true 5 10) { initialized with transport := .accepts 0 } = .next u :=
  ⟨rfl, clean_wf.1, rfl, rfl, rfl, rfl, ⟨_, rfl⟩, _, rfl⟩

end Sys2Proof.Tests
end

/-! # Proofs: who touches what (spec/00_scope.md R3, R14, spec/10_state.md R20)

The moves from outside keep the invariant, and every command touches only its own part of the state. -/

section
/-! ## The invariant does not read the ports -/

namespace Sys2Proof.Safety

open Sys2Proof.Machine

/-- The response queue, the bytes at the command port and the transport agent are no part of the invariant. -/
theorem GoodState.with_ports {s : State} (h : GoodState s) (rsp cmdIn : List Byte) (tr : Transport) :
    GoodState { s with rsp := rsp, cmdIn := cmdIn, transport := tr } where
  cfg_wf := h.cfg_wf
  fb_wf := h.fb_wf
  fb_within := h.fb_within
  pkt_incomplete := h.pkt_incomplete
  controller := h.controller
  work := h.work
  one_reset := h.one_reset

/-- The invariant holds after the block reset of an accepted configuration (spec/10_state.md R31). -/
theorem goodState_afterReset {cfg : Config} (h : cfg.wf = true) (epoch : Nat) : GoodState (State.afterReset cfg epoch) where
  cfg_wf := h
  fb_wf := Framebuffer.wf_afterReset epoch
  fb_within := Framebuffer.within_afterReset epoch _
  pkt_incomplete := rfl
  controller := .inl ⟨rfl, rfl⟩
  work := fun _ hw => nomatch hw
  one_reset := List.not_mem_nil

theorem GoodState.hostTake {s t : State} {b : Byte} (h : GoodState s) (ht : s.hostTake = some (b, t)) : GoodState t := by
  obtain ⟨-, -, -, ht⟩ := State.hostTake_eq_some ht
  rw [ht]
  exact h.with_ports t.rsp s.cmdIn s.transport

theorem GoodState.blockReset {s : State} (h : GoodState s) : GoodState s.blockReset :=
  (goodState_afterReset h.cfg_wf (s.fb.epoch + 1)).with_ports [] s.cmdIn s.transport

/-- Settles O54: the host and the transport move only what the invariant does not read, and the block reset leads to where the
invariant begins. -/
theorem outsideMovesKeepGoodState : Obligations.OutsideMovesKeepGoodState := fun s h =>
  ⟨fun bytes => h.with_ports s.rsp (s.cmdIn ++ bytes) s.transport, fun _ _ ht => h.hostTake ht,
    fun tr => h.with_ports s.rsp s.cmdIn tr, h.blockReset⟩

end Sys2Proof.Safety
end

section
/-! ## Runs to completion -/

namespace Sys2Proof.Machine

/-- A run of one step more begins with a step that answers a state. -/
theorem run_succ_iff {n : Nat} {s t : State} : core.run (n + 1) s = .next t ↔ ∃ v, step s = .next v ∧ core.run n v = .next t := by
  refine ⟨fun h => ?_, fun ⟨v, hv, h⟩ => (run_succ hv n).trans h⟩
  cases hs : step s with
  | next v => exact ⟨v, rfl, (run_succ hs n).symm.trans h⟩
  | fault r => cases r
  | refused r =>
    have hs : core.step s = .refused r := hs
    simp only [Host.Core.run] at h
    rw [hs] at h
    cases h

end Sys2Proof.Machine

namespace Sys2Proof.Safety

open Sys2Proof.Machine

/-- Induction along the way to completion, from its end: what holds of the state in which the command is complete, and of a busy core
when it holds after its step, holds where the way begins. -/
theorem Completes.induction {P : State → Prop} {s t : State} (h : Completes s t) (done : t.cmdReady = true → P t)
    (step : ∀ u v, u.cmdReady = false → Machine.step u = .next v → Completes v t → P v → P u) : P s := by
  obtain ⟨ht, n, hn, hb⟩ := h
  induction n generalizing s with
  | zero => cases hn; exact done ht
  | succ n ih =>
    obtain ⟨v, hv, hn⟩ := run_succ_iff.1 hn
    obtain ⟨_, hs, hr⟩ := hb 0 n.succ_pos
    cases hs
    have hb' : ∀ m < n, ∃ w, core.run m v = .next w ∧ w.cmdReady = false := fun m hm =>
      run_succ hv m ▸ hb (m + 1) (Nat.succ_lt_succ hm)
    exact step s v hr hv ⟨ht, n, hn, hb'⟩ (ih hn hb')

/-- A command in progress completes by a step and then the rest of the way; an idle core has completed. -/
theorem Completes.cases {s t : State} (h : Completes s t) :
    (s.cmdReady = true ∧ t = s) ∨ ∃ v, s.cmdReady = false ∧ Machine.step s = .next v ∧ Completes v t :=
  h.induction (P := fun s => (s.cmdReady = true ∧ t = s) ∨ ∃ v, s.cmdReady = false ∧ Machine.step s = .next v ∧ Completes v t)
    (fun ht => .inl ⟨ht, rfl⟩) fun _ v hr hv hvt _ => .inr ⟨v, hr, hv, hvt⟩

/-- What every step of a busy core keeps holds when the command is complete, if it holds as the command begins. -/
theorem Completes.keeps {P : State → Prop} {s t : State} (h : Completes s t)
    (hstep : ∀ u v, u.cmdReady = false → Machine.step u = .next v → P u → P v) : P s → P t :=
  h.induction (P := fun s => P s → P t) (fun _ ht => ht) fun u v hr hv _ ih hu => ih (hstep u v hr hv hu)

/-- An idle core has nothing left to do. -/
theorem Completes.eq_of_idle {s t : State} (h : Completes s t) (hs : s.cur = .idle) : t = s := h.unique (.refl hs)

end Sys2Proof.Safety
end

section
/-! ## What the controller commands leave alone -/

namespace Sys2Proof.Machine

open Sys2Proof.Safety

/-- FLUSH assigns nothing to DCS (spec/45_display_controller.md R155). -/
theorem offerFrom_flushSequence_dcs (s : State) (cfg : Config) (m : Framebuffer) (busy : Nat → Cur) (k : Nat) :
    (s.offerFrom (flushSequence cfg m) busy k).dcs = s.dcs := by
  rw [State.offerFrom_dcs, flushSequence, ← List.map_drop, nextCall_map_send]

theorem stepFlush_dcs (k : Nat) (s : State) : (stepFlush k s).dcs = s.dcs := by
  unfold stepFlush
  rcases stepController_cases s (flushSequence s.cfg s.fb) .flush k with ⟨-, h⟩ | ⟨_, -, -, h⟩ | ⟨_, _, -, -, h⟩ <;> rw [h]
  · exact offerFrom_flushSequence_dcs ..
  · exact offerFrom_flushSequence_dcs ..

/-- A sequence that goes on to its next call stays with its command, until it is complete. -/
theorem offerFrom_cur_cases (s : State) (l : List ControllerAction) (busy : Nat → Cur) (k : Nat) :
    (∃ j, (s.offerFrom l busy k).cur = busy j) ∨ (s.offerFrom l busy k).cur = .idle := by
  rw [State.offerFrom_cur]
  cases (nextCall k s.dcs (l.drop k)).2 with
  | none => exact .inr rfl
  | some j => exact .inl ⟨j, rfl⟩

theorem stepController_cur_cases {s : State} {busy : Nat → Cur} {k : Nat} (hc : s.cur = busy k) (l : List ControllerAction) :
    (∃ j, (s.stepController l busy k).cur = busy j) ∨ (s.stepController l busy k).cur = .idle := by
  rcases stepController_cases s l busy k with ⟨-, h⟩ | ⟨_, -, -, h⟩ | ⟨_, _, -, -, h⟩ <;> rw [h]
  · exact offerFrom_cur_cases ..
  · exact .inl ⟨k, hc⟩
  · exact offerFrom_cur_cases ..

end Sys2Proof.Machine
end

section
/-! ## What a command touches -/

namespace Sys2Proof.Machine

open Sys2Proof.Safety

/-- A command that begins changes CUR alone, INIT DCS too. -/
theorem exec_frame {i : Instr} {s t : State} (h : exec i s = .next t) :
    t = { s with dcs := t.dcs, cur := t.cur } ∧ (i ≠ .init → t.dcs = s.dcs) := by
  rcases exec_cases h with ⟨-, rfl⟩ | ⟨-, rfl⟩ | ⟨rfl, -, rfl⟩ | ⟨rfl, -, rfl⟩
  · exact ⟨by cases firstRecord s.cfg i <;> rfl, fun _ => State.begin_dcs ..⟩
  · exact ⟨rfl, fun _ => rfl⟩
  · exact ⟨rfl, fun hi => absurd rfl hi⟩
  · exact ⟨rfl, fun _ => offerFrom_flushSequence_dcs ..⟩

/-- A command that begins in an idle core is the one in CUR, or it is complete at once (spec/10_state.md R29). -/
theorem exec_cur_cases {i : Instr} {s t : State} (hs : s.cur = .idle) (h : exec i s = .next t) :
    t.cur.command = some i ∨ t.cur = .idle := by
  rcases exec_cases h with ⟨-, rfl⟩ | ⟨-, rfl⟩ | ⟨rfl, -, rfl⟩ | ⟨rfl, -, rfl⟩
  · cases hw : firstRecord s.cfg i with
    | none => exact .inr hs
    | some w => exact .inl (congrArg some (command_firstRecord hw))
  · exact .inr hs
  · exact (offerFrom_cur_cases ..).imp_left fun ⟨_, hj⟩ => congrArg Cur.command hj
  · exact (offerFrom_cur_cases ..).imp_left fun ⟨_, hj⟩ => congrArg Cur.command hj

/-- What a step of a command in progress can be. -/
theorem step_command_cases {i : Instr} {s t : State} (hc : s.cur.command = some i) (h : step s = .next t) :
    (∃ k, i = .init ∧ s.cur = .init k ∧ t = stepInit k s) ∨ (∃ k, i = .flush ∧ s.cur = .flush k ∧ t = stepFlush k s) ∨
      ∃ w, i = w.command ∧ s.cur = .working w ∧ t = stepWork w s := by
  have hidle : s.cur ≠ .idle := fun e => by rw [e] at hc; cases hc
  obtain ⟨-, ⟨e, -⟩ | ⟨e, -⟩ | ⟨e, -⟩ | ⟨k, e, ht⟩ | ⟨k, e, ht⟩ | ⟨w, e, ht⟩⟩ := step_cases h
  · exact absurd e hidle
  · exact absurd e hidle
  · exact absurd e hidle
  all_goals rw [e] at hc; cases hc
  · exact .inl ⟨k, rfl, e, ht⟩
  · exact .inr (.inl ⟨k, rfl, e, ht⟩)
  · exact .inr (.inr ⟨w, rfl, e, ht⟩)

/-- CUR stays with a command, opcode and operands, until it is complete (spec/10_state.md R29). -/
theorem step_cur_cases {i : Instr} {s t : State} (hc : s.cur.command = some i) (h : step s = .next t) :
    t.cur.command = some i ∨ t.cur = .idle := by
  rcases step_command_cases hc h with ⟨k, rfl, e, rfl⟩ | ⟨k, rfl, e, rfl⟩ | ⟨w, rfl, -, rfl⟩
  · exact (stepController_cur_cases e _).imp_left fun ⟨_, hj⟩ => congrArg Cur.command hj
  · exact (stepController_cur_cases e _).imp_left fun ⟨_, hj⟩ => congrArg Cur.command hj
  · obtain ⟨fb, rsp, h, -⟩ := stepWork_cases w s
    rw [h]
    cases hw : nextRecord s.cfg w with
    | none => exact .inr rfl
    | some w' => exact .inl (congrArg some (command_nextRecord hw))

/-- A command that the record of CUR can hold makes no transport call. -/
@[simp] theorem drivesTransport_command (w : Work) : drivesTransport w.command = false := by cases w <;> rfl

/-- INIT and FLUSH append nothing to RSP. -/
theorem responds_eq_false {i : Instr} (h : drivesTransport i = true) : responds i = false := by cases i <;> first | rfl | cases h

/-- The one pass of a command that responds appends a byte to RSP, and the command is complete. -/
theorem stepWork_of_responds {w : Work} (h : responds w.command = true) (s : State) :
    ∃ b, stepWork w s = { s.respond b with cur := .idle } := by
  cases w
  case getByte p q => exact ⟨_, rfl⟩
  case getStatus => exact ⟨_, rfl⟩
  all_goals cases h

/-- A command that responds begins with a pass to make. -/
theorem exec_of_responds {i : Instr} (h : responds i = true) (s : State) :
    ∃ w, w.command = i ∧ exec i s = .next (s.begin (some w)) := by
  cases i
  case getByte p q => exact ⟨.getByte p q, rfl, rfl⟩
  case getStatus => exact ⟨.getStatus, rfl, rfl⟩
  all_goals cases h

/-- From `s` to `t` nothing has changed but what the command `i` may touch (spec/00_scope.md R3, spec/10_state.md R20, R26, R28). -/
structure TouchesOnly (i : Instr) (s t : State) : Prop where
  controller_kept : drivesTransport i = false → t.dcs = s.dcs ∧ t.tx = s.tx ∧ t.transport = s.transport
  flush_dcs : i = .flush → t.dcs = s.dcs
  fb_kept : drivesTransport i = true ∨ responds i = true → t.fb = s.fb
  rsp_kept : responds i = false → t.rsp = s.rsp
  cfg_kept : t.cfg = s.cfg
  pkt_kept : t.pkt = s.pkt
  cmdIn_kept : t.cmdIn = s.cmdIn

theorem TouchesOnly.trans {i : Instr} {s u t : State} (h : TouchesOnly i s u) (h' : TouchesOnly i u t) : TouchesOnly i s t where
  controller_kept hi :=
    have ⟨hd, hx, ht⟩ := h.controller_kept hi
    have ⟨hd', hx', ht'⟩ := h'.controller_kept hi
    ⟨hd'.trans hd, hx'.trans hx, ht'.trans ht⟩
  flush_dcs hi := (h'.flush_dcs hi).trans (h.flush_dcs hi)
  fb_kept hi := (h'.fb_kept hi).trans (h.fb_kept hi)
  rsp_kept hi := (h'.rsp_kept hi).trans (h.rsp_kept hi)
  cfg_kept := h'.cfg_kept.trans h.cfg_kept
  pkt_kept := h'.pkt_kept.trans h.pkt_kept
  cmdIn_kept := h'.cmdIn_kept.trans h.cmdIn_kept

theorem TouchesOnly.of_exec {i : Instr} {s t : State} (h : exec i s = .next t) : TouchesOnly i s t := by
  obtain ⟨e, hd⟩ := exec_frame h
  rw [e]
  exact ⟨fun hi => ⟨hd (by rintro rfl; cases hi), rfl, rfl⟩, fun hi => hd (by rintro rfl; cases hi), fun _ => rfl, fun _ => rfl,
    rfl, rfl, rfl⟩

theorem TouchesOnly.of_stepWork (w : Work) (s : State) : TouchesOnly w.command s (stepWork w s) := by
  obtain ⟨fb, rsp, h, hcases⟩ := stepWork_cases w s
  rw [h]
  refine ⟨fun _ => ⟨rfl, rfl, rfl⟩, fun _ => rfl, fun hi => ?_, fun hi => ?_, rfl, rfl, rfl⟩
  · obtain ⟨b, hb⟩ := stepWork_of_responds (hi.resolve_left (by simp)) s
    have hfb := congrArg State.fb (h.symm.trans hb)
    exact hfb
  · rcases hcases with ⟨hr, -⟩ | ⟨hr, -⟩ | ⟨-, hr, -⟩
    · exact hr
    · exact hr
    · rw [hi] at hr; cases hr

theorem TouchesOnly.of_step {i : Instr} {s t : State} (hc : s.cur.command = some i) (h : step s = .next t) : TouchesOnly i s t := by
  rcases step_command_cases hc h with ⟨k, rfl, -, rfl⟩ | ⟨k, rfl, -, rfl⟩ | ⟨w, rfl, -, rfl⟩
  · exact ⟨nofun, nofun, fun _ => State.stepController_fb .., fun _ => State.stepController_rsp .., State.stepController_cfg ..,
      State.stepController_pkt .., State.stepController_cmdIn ..⟩
  · exact ⟨nofun, fun _ => stepFlush_dcs k s, fun _ => State.stepController_fb .., fun _ => State.stepController_rsp ..,
      State.stepController_cfg .., State.stepController_pkt .., State.stepController_cmdIn ..⟩
  · exact .of_stepWork w s

/-- A whole command, from its beginning until it is complete. -/
theorem TouchesOnly.of_completes {i : Instr} {s u t : State} (hs : s.cur = .idle) (hu : exec i s = .next u) (ht : Completes u t) :
    TouchesOnly i s t := by
  have hbusy {v : State} (hv : v.cmdReady = false) : v.cur ≠ .idle := by simpa [State.cmdReady] using hv
  refine (ht.keeps (P := fun v => TouchesOnly i s v ∧ (v.cur.command = some i ∨ v.cur = .idle)) ?_
    ⟨.of_exec hu, exec_cur_cases hs hu⟩).1
  rintro v w hv hw ⟨h, hc⟩
  have hc := hc.resolve_right (hbusy hv)
  exact ⟨h.trans (.of_step hc hw), step_cur_cases hc hw⟩

/-- A whole command that responds appends one byte to RSP. -/
theorem rsp_of_completes {i : Instr} {s u t : State} (hi : responds i = true) (hu : exec i s = .next u) (ht : Completes u t) :
    ∃ b, t.rsp = s.rsp ++ [b] := by
  obtain ⟨w, rfl, he⟩ := exec_of_responds hi s
  cases he.symm.trans hu
  rcases ht.cases with ⟨hr, -⟩ | ⟨v, -, hv, ht⟩
  · cases hr
  · rcases step_command_cases rfl hv with ⟨_, -, e, -⟩ | ⟨_, -, e, -⟩ | ⟨_, -, e, rfl⟩ <;> cases e
    obtain ⟨b, hb⟩ := stepWork_of_responds hi (s.begin (some w))
    rw [hb] at ht
    exact ⟨b, by rw [ht.eq_of_idle rfl]; rfl⟩

/-! ### The response port (spec/10_state.md R28, spec/20_memory.md R49) -/

theorem State.hostTake_eq_none {s : State} (h : s.rspOffered = none) : s.hostTake = none := by simp [State.hostTake, h]

theorem State.rspOffered_of_busy {s : State} (h : s.cur ≠ .idle) : s.rspOffered = none := by
  simp [State.rspOffered, State.cmdReady, h]

theorem State.rspOffered_of_idle {s : State} (h : s.cur = .idle) : s.rspOffered = s.rsp.head? := by
  simp [State.rspOffered, State.cmdReady, h]

theorem State.rspOffered_of_rsp_nil {s : State} (h : s.rsp = []) : s.rspOffered = none := by simp [State.rspOffered, h]

theorem State.hostTake_of_rsp_cons {s : State} {b : Byte} {rest : List Byte} (hc : s.cur = .idle) (hr : s.rsp = b :: rest) :
    s.hostTake = some (b, { s with rsp := rest }) := by
  simp [State.hostTake, State.rspOffered_of_idle hc, hr]

/-- Settles O59, by the frame of a command's beginning and of a step of it, carried along the whole command, and the cases of the
response port. -/
theorem commandsTouchOnlyTheirOwnState : Obligations.CommandsTouchOnlyTheirOwnState := by
  refine ⟨fun i s t h => ?_, fun i s t hc h => ?_, fun i s u t hs hu ht => ?_,
    fun s => ⟨fun hc => ?_, fun hr => ?_, fun b rest hc hr => ?_⟩⟩
  · obtain ⟨e, hd⟩ := exec_frame h
    rw [e]
    exact ⟨rfl, rfl, rfl, rfl, rfl, rfl, rfl, hd⟩
  · have f := TouchesOnly.of_step hc h
    exact ⟨step_cur_cases hc h, f.controller_kept, fun hi => ⟨f.fb_kept (.inl hi), f.rsp_kept (responds_eq_false hi)⟩, f.flush_dcs,
      f.rsp_kept, fun hi => f.fb_kept (.inr hi), f.cfg_kept, f.pkt_kept, f.cmdIn_kept⟩
  · have f := TouchesOnly.of_completes hs hu ht
    exact ⟨f.controller_kept, fun hi => ⟨f.fb_kept (.inl hi), f.rsp_kept (responds_eq_false hi)⟩, f.flush_dcs, f.rsp_kept,
      fun hi => ⟨f.fb_kept (.inr hi), rsp_of_completes hi hu ht⟩, f.cfg_kept, f.pkt_kept, f.cmdIn_kept⟩
  · exact ⟨State.rspOffered_of_busy hc, State.hostTake_eq_none (State.rspOffered_of_busy hc)⟩
  · exact ⟨State.rspOffered_of_rsp_nil hr, State.hostTake_eq_none (State.rspOffered_of_rsp_nil hr)⟩
  · exact ⟨by rw [State.rspOffered_of_idle hc, hr]; rfl, State.hostTake_of_rsp_cons hc hr⟩

end Sys2Proof.Machine
end

/-! # Proofs: the state and its invariant (spec/10_state.md)

What the state holds after reset, what every step keeps of it, and what the invariant says of the transport port. -/

section
/-! ## The store -/

namespace Sys2Proof.Machine

open Sys2Proof.Safety

/-- A pixel in bounds lies in a byte of FB (spec/20_memory.md R58). -/
theorem pixelIndex_lt_size {cfg : Config} (h : cfg.wf = true) {p : Point} (hp : inBounds cfg p = true) :
    pixelIndex cfg p < cfg.size := by
  obtain ⟨-, -, -, -, hpages⟩ := sizes_of_wf h
  obtain ⟨hx0, hx, hy0, hy⟩ := inBounds_iff.1 hp
  have hsize : cfg.size = cfg.pages * cfg.width := by
    rw [Config.size, hpages, Nat.mul_left_comm, Nat.mul_div_cancel_left _ (by omega), Nat.mul_comm]
  calc pixelIndex cfg p < p.2.toNat / 8 * cfg.width + cfg.width := by unfold pixelIndex; omega
    _ = (p.2.toNat / 8 + 1) * cfg.width := (Nat.succ_mul ..).symm
    _ ≤ cfg.pages * cfg.width := Nat.mul_le_mul_right _ (by omega)
    _ = cfg.size := hsize.symm

theorem within_setPixel {cfg : Config} (h : cfg.wf = true) {m : Framebuffer} (hm : m.within cfg.size = true) (c : Bool) (p : Point) :
    (m.setPixel cfg c p).within cfg.size = true := by
  unfold Framebuffer.setPixel
  split_ifs with hp
  · exact Framebuffer.within_write hm (pixelIndex_lt_size h hp) _
  · exact Framebuffer.within_write hm (pixelIndex_lt_size h hp) _
  · exact hm

theorem within_plot {cfg : Config} (h : cfg.wf = true) {m : Framebuffer} (hm : m.within cfg.size = true) (c : Bool) (ps : List Point) :
    (m.plot cfg c ps).within cfg.size = true := by
  induction ps generalizing m with
  | nil => exact hm
  | cons p ps ih => exact ih (within_setPixel h hm c p)

/-- In a rising list the listed cells are exactly those found. -/
theorem mem_iff_findCell {l : List Host.Cell} (h : Rising l) (p : Host.Cell) : p ∈ l ↔ findCell p.1 l = some p.2 :=
  ⟨findCell_of_mem h, mem_of_findCell⟩

/-- Rising lists in which the same cells are found are equal. -/
theorem eq_of_findCell_eq {l l' : List Host.Cell} (h : Rising l) (h' : Rising l') (e : ∀ i, findCell i l = findCell i l') : l = l' := by
  have hnodup {l : List Host.Cell} (h : Rising l) : l.Nodup := h.imp fun hlt he => absurd (congrArg Prod.fst he) (Nat.ne_of_lt hlt)
  refine List.Perm.eq_of_pairwise (fun a b _ _ hab hba => absurd hab (Nat.lt_asymm hba)) h h'
    ((List.perm_ext_iff_of_nodup (hnodup h) (hnodup h')).2 fun p => ?_)
  rw [mem_iff_findCell h, mem_iff_findCell h', e]

/-- In a store in canonical form a byte is listed exactly when it reads as something else than an unlisted one. -/
theorem Framebuffer.findCell_eq {m : Framebuffer} (h : m.wf = true) (i : Nat) :
    findCell i m.cells = if m.read i = m.unlisted i then none else some (m.read i) := by
  unfold Framebuffer.read
  cases hc : findCell i m.cells with
  | none => simp
  | some v => simpa using (m.wf_iff.1 h).2 _ (mem_of_findCell hc)

theorem Framebuffer.unlisted_eq {m m' : Framebuffer} (he : m.epoch = m'.epoch) (hc : m.cleared = m'.cleared) : m.unlisted = m'.unlisted := by
  funext i
  rw [Framebuffer.unlisted, Framebuffer.unlisted, he, hc]

/-- Settles O19: what is listed is determined by what is read. -/
theorem equalReadsAreEqualStores : Obligations.EqualReadsAreEqualStores := by
  intro m m' h h' he hc hr
  have hcells : m.cells = m'.cells := eq_of_findCell_eq (Framebuffer.rising_of_wf h) (Framebuffer.rising_of_wf h') fun i => by
    rw [Framebuffer.findCell_eq h, Framebuffer.findCell_eq h', hr, Framebuffer.unlisted_eq he hc]
  cases m
  cases m'
  cases he
  cases hc
  cases hcells
  rfl

end Sys2Proof.Machine
end

section
/-! ## After reset (spec/10_state.md R31) -/

namespace Sys2Proof.Machine

open Sys2Proof.Safety

/-- The default configuration is one the model accepts (spec/00_scope.md R6). -/
theorem wf_standard : Config.standard.wf = true := by decide +kernel

/-- Settles O49: each value is written out in the state after reset. -/
theorem resetLeavesTheStatedValues : Obligations.ResetLeavesTheStatedValues :=
  ⟨fun _ _ => ⟨rfl, rfl, rfl, rfl, rfl, rfl, rfl, rfl, rfl⟩, rfl⟩

/-- GET_BYTE in range answers the byte of FB (spec/40_framebuffer_ops.md R94). -/
theorem getByteResponse_of_lt {s : State} {p q : Nat} (hp : p < s.cfg.pages) (hq : q < s.cfg.width) :
    getByteResponse s p q = s.fb.read (p * s.cfg.width + q) := by
  rw [getByteResponse, if_pos ⟨hp, hq⟩, Framebuffer.getByte]

/-- Settles O50: GET_BYTE completes with the byte read, and nothing is listed after reset. -/
theorem resetContentIsTheFreeValue : Obligations.ResetContentIsTheFreeValue := by
  intro cfg epoch p q hw hp hq
  obtain ⟨u, hu, hc⟩ := getByte_completes (s := State.afterReset cfg epoch) hw rfl p q
  refine ⟨u, hu, ?_⟩
  have hb : getByteResponse (State.afterReset cfg epoch) (byteOperand p) (unsignedOperand q) =
      Config.powerOnByte epoch (p.toNat * cfg.width + q.toNat) :=
    (getByteResponse_of_lt hp hq).trans (Framebuffer.read_afterReset ..)
  rwa [hb] at hc

/-- Settles O52. -/
theorem goodStateAfterReset : Obligations.GoodStateAfterReset :=
  ⟨fun _ epoch h => goodState_afterReset h epoch, goodState_afterReset wf_standard 0⟩

end Sys2Proof.Machine
end

section
/-! ## What a step keeps -/

namespace Sys2Proof.Machine

open Sys2Proof.Safety

/-- An idle core takes bytes of the command port, and what is then left of a packet is one cut short (spec/30_encoding.md R69); a
command whose packet was whole begins. A busy core makes a step of its command. -/
theorem step_fetch_or_progress {s t : State} (h : step s = .next t) :
    (s.cur = .idle ∧ ∃ pkt cmdIn, decode pkt = .incomplete ∧
      (t = { s with pkt := pkt, cmdIn := cmdIn } ∨ ∃ i, exec i { s with pkt := pkt, cmdIn := cmdIn } = .next t)) ∨
    (∃ k, s.cur = .init k ∧ t = stepInit k s) ∨ (∃ k, s.cur = .flush k ∧ t = stepFlush k s) ∨
    ∃ w, s.cur = .working w ∧ t = stepWork w s := by
  obtain ⟨-, ⟨hc, i, rest, -, he⟩ | ⟨hc, _, rest, -, ht⟩ | ⟨hc, hd, ht⟩ | hbusy⟩ := step_cases h
  · exact .inl ⟨hc, [], rest, rfl, .inr ⟨i, he⟩⟩
  · exact .inl ⟨hc, [], rest, rfl, .inl ht⟩
  · exact .inl ⟨hc, s.incoming, [], hd, .inl ht⟩
  · exact .inr hbusy

theorem stepWork_epoch (w : Work) (s : State) : (stepWork w s).fb.epoch = s.fb.epoch := by
  obtain ⟨fb, rsp, h, ⟨-, c, ps, rfl⟩ | ⟨-, i, -, rfl⟩ | ⟨rfl, -⟩⟩ := stepWork_cases w s <;> rw [h]
  · exact plot_epoch ..
  · simp only
    split_ifs <;> rfl

/-- Settles O56: no kind of step writes the configuration or the count of block resets. -/
theorem stepKeepsConfiguration : Obligations.StepKeepsConfiguration := by
  intro s t h
  rcases step_fetch_or_progress h with ⟨-, pkt, cmdIn, -, rfl | ⟨i, he⟩⟩ | ⟨k, -, rfl⟩ | ⟨k, -, rfl⟩ | ⟨w, -, rfl⟩
  · exact ⟨rfl, rfl⟩
  · rw [(exec_frame he).1]
    exact ⟨rfl, rfl⟩
  · exact ⟨State.stepController_cfg .., congrArg Framebuffer.epoch (State.stepController_fb ..)⟩
  · exact ⟨State.stepController_cfg .., congrArg Framebuffer.epoch (State.stepController_fb ..)⟩
  · exact ⟨(TouchesOnly.of_stepWork w s).cfg_kept, stepWork_epoch w s⟩

end Sys2Proof.Machine
end

section
/-! ## FLUSH's calls, by page and place -/

namespace Sys2Proof.Machine

open Sys2Proof.Safety

/-- Blocks of one length, back to back: item `j` of block `p` stands `j` places after the `p` blocks before it. -/
theorem getElem?_flatMap_range {α : Type} {f : Nat → List α} {len : Nat} (hf : ∀ p, (f p).length = len) {n p j : Nat} (hp : p < n)
    (hj : j < len) : ((List.range n).flatMap f)[p * len + j]? = (f p)[j]? := by
  have hlen (n : Nat) : ((List.range n).flatMap f).length = n * len := by simp [List.length_flatMap, hf]
  induction n with
  | zero => omega
  | succ n ih =>
    rw [List.range_succ, List.flatMap_append, List.flatMap_singleton]
    rcases Nat.lt_succ_iff_lt_or_eq.1 hp with hlt | rfl
    · have : p * len + j < n * len := by nlinarith [Nat.mul_le_mul_right len (Nat.succ_le_of_lt hlt)]
      rw [List.getElem?_append_left (by rwa [hlen]), ih hlt]
    · rw [List.getElem?_append_right (by rw [hlen]; omega), hlen, Nat.add_sub_cancel_left]

theorem length_pageCalls (cfg : Config) (m : Framebuffer) (p : Nat) : (pageCalls cfg m p).length = 3 + cfg.width := by
  simp [pageCalls]; omega

/-- The calls of a page: the page select, the column commands, then the data byte of each column (spec/45_display_controller.md R155). -/
theorem getElem?_pageCalls (cfg : Config) (m : Framebuffer) (p : Nat) {j : Nat} (hj : j < 3 + cfg.width) :
    (pageCalls cfg m p)[j]? = some (if j = 0 then .cmd (cfg.pageSelectByte p) else if j = 1 then .cmd cfg.colLoCmd
      else if j = 2 then .cmd cfg.colHiCmd else .data (m.read (p * cfg.width + (j - 3)))) := by
  match j with
  | 0 => rfl
  | 1 => rfl
  | 2 => rfl
  | q + 3 =>
    have hq : q < cfg.width := by omega
    simp [pageCalls, hq, Framebuffer.getByte]

/-- Settles O41: the pages' calls are blocks of one length, so that quotient and remainder find the page and the place. -/
theorem flushPositionNamesTheCall : Obligations.FlushPositionNamesTheCall := by
  intro cfg m p j hp hj
  constructor
  · rw [flushPosition, Nat.mul_comm p, Nat.mul_add_div (by omega), Nat.mul_add_mod, Nat.div_eq_of_lt hj, Nat.mod_eq_of_lt hj, Nat.add_zero]
  · rw [flushCalls, getElem?_flatMap_range (length_pageCalls cfg m) hp hj, getElem?_pageCalls cfg m p hj]

end Sys2Proof.Machine
end

section
/-! ## The display controller's sequences -/

namespace Sys2Proof.Machine

open Sys2Proof.Safety

/-- A core whose call is not accepted waits (spec/60_exceptions.md R186). -/
theorem stepController_waits {s : State} {l : List ControllerAction} {k : Nat} {c : TxCall} (hk : l[k]? = some (.send c))
    (ha : s.transport.accept = none) (busy : Nat → Cur) : s.stepController l busy k = s := by
  simp [State.stepController, hk, ControllerAction.call?, ha]

/-- An accepted call is appended to TX, and the core goes on from the action after it (spec/46_transport.md R176). -/
theorem stepController_accepted {s : State} {l : List ControllerAction} {k : Nat} {c : TxCall} {tr : Transport}
    (hk : l[k]? = some (.send c)) (ha : s.transport.accept = some tr) (busy : Nat → Cur) :
    s.stepController l busy k = { s with tx := s.tx ++ [c], transport := tr }.offerFrom l busy (k + 1) := by
  simp [State.stepController, hk, ControllerAction.call?, ha]

/-- A call leaves DCS alone. -/
theorem dcsAfter_take_succ {l : List ControllerAction} {k : Nat} {c : TxCall} (hk : l[k]? = some (.send c)) (d : Dcs) :
    dcsAfter d (l.take (k + 1)) = dcsAfter d (l.take k) := by
  rw [List.take_add_one, hk, dcsAfter_append]; rfl

theorem callsOf_take_succ {l : List ControllerAction} {k : Nat} {c : TxCall} (hk : l[k]? = some (.send c)) :
    callsOf (l.take (k + 1)) = callsOf (l.take k) ++ [c] := by
  rw [List.take_add_one, hk, callsOf_append]; rfl

/-- The calls still to come from a call on: that one, then those after it. -/
theorem callsOf_drop_of_call {l : List ControllerAction} {k : Nat} {c : TxCall} (hk : l[k]? = some (.send c)) :
    callsOf (l.drop k) = c :: callsOf (l.drop (k + 1)) := by
  obtain ⟨hlt, hget⟩ := List.getElem?_eq_some_iff.1 hk
  rw [List.drop_eq_getElem_cons hlt, hget, callsOf_send]

theorem getElem?_flushSequence (cfg : Config) (m : Framebuffer) (k : Nat) :
    (flushSequence cfg m)[k]? = ((flushCalls cfg m)[k]?).map .send := List.getElem?_map

/-- FLUSH goes on from call `k`, or is complete when there is none. -/
theorem flushFrom_eq (k : Nat) (s : State) :
    flushFrom k s = { s with cur := if k < (flushCalls s.cfg s.fb).length then .flush k else .idle } := by
  simp only [flushFrom, State.offerFrom, flushSequence, ← List.map_drop, nextCall_map_send, List.drop_eq_nil_iff]
  split_ifs with h h' h'
  · omega
  · rfl
  · rfl
  · omega

/-- No call of a FLUSH is a `reset()` (spec/45_display_controller.md R155). -/
theorem reset_notMem_flushCalls (cfg : Config) (m : Framebuffer) : TxCall.reset ∉ flushCalls cfg m := by
  simp [flushCalls, pageCalls]

/-- The only `reset()` of an INIT is its first call (spec/45_display_controller.md R151). -/
theorem reset_notMem_tail_of_prefix {cfg : Config} {tx : List TxCall} (h : tx <+: initCalls cfg) : TxCall.reset ∉ tx.tail := by
  cases tx with
  | nil => exact List.not_mem_nil
  | cons c tx =>
    intro hmem
    have := (List.cons_prefix_cons.1 h).2.subset hmem
    simp at this

/-- A further call that is no `reset()` leaves the first one the only one. -/
theorem reset_notMem_tail_append {tx : List TxCall} {c : TxCall} (h : TxCall.reset ∉ tx.tail) (hc : TxCall.reset ≠ c) :
    TxCall.reset ∉ (tx ++ [c]).tail := by
  cases tx with
  | nil => exact List.not_mem_nil
  | cons c' tx => simpa [hc] using h

end Sys2Proof.Machine
end

section
/-! ## CUR, DCS and TX stay consistent -/

namespace Sys2Proof.Safety

open Sys2Proof.Machine

/-- DCS and TX with neither INIT nor FLUSH in progress: INIT has never started, or is complete. -/
def ControllerAtRest (s : State) : Prop := (s.dcs = .uninitialized ∧ s.tx = []) ∨ (s.dcs = .on ∧ initCalls s.cfg <+: s.tx)

theorem controllerConsistent_idle {s : State} (h : s.cur = .idle) : controllerConsistent s ↔ ControllerAtRest s := by
  simp only [controllerConsistent, h, ControllerAtRest]

theorem controllerConsistent_working {s : State} {w : Work} (h : s.cur = .working w) : controllerConsistent s ↔ ControllerAtRest s := by
  simp only [controllerConsistent, h, ControllerAtRest]

theorem controllerConsistent_init {s : State} {k : Nat} (h : s.cur = .init k) :
    controllerConsistent s ↔ (∃ c, (initSequence s.cfg)[k]? = some (.send c)) ∧
      s.dcs = dcsAfter .uninitialized ((initSequence s.cfg).take k) ∧ s.tx = callsOf ((initSequence s.cfg).take k) := by
  simp only [controllerConsistent, h]

theorem controllerConsistent_flush {s : State} {k : Nat} (h : s.cur = .flush k) :
    controllerConsistent s ↔ k < (flushCalls s.cfg s.fb).length ∧ s.dcs = .on ∧
      ∃ before, initCalls s.cfg <+: before ∧ s.tx = before ++ (flushCalls s.cfg s.fb).take k := by
  simp only [controllerConsistent, h]

/-- With the first `k` actions of INIT carried out, going on to its next call leaves CUR, DCS and TX consistent. -/
theorem controllerConsistent_initFrom {s : State} {k : Nat} (hd : s.dcs = dcsAfter .uninitialized ((initSequence s.cfg).take k))
    (ht : s.tx = callsOf ((initSequence s.cfg).take k)) : controllerConsistent (initFrom k s) := by
  have hsplit := List.take_append_drop k (initSequence s.cfg)
  rcases offerFrom_cases s (initSequence s.cfg) .init k with ⟨hnone, h⟩ | ⟨done, c, rest, hdrop, hdone, h⟩ <;> rw [initFrom, h]
  · refine (controllerConsistent_idle rfl).2 (.inr ⟨?_, ?_⟩)
    · simp only [hd, ← dcsAfter_append, hsplit, dcsAfter_initSequence]
    · have : s.tx = initCalls s.cfg := by rw [← callsOf_initSequence, ← hsplit, callsOf_append, hnone, List.append_nil, ht]
      rw [this]
  · rw [hdrop] at hsplit
    have hk : k ≤ (initSequence s.cfg).length := by
      by_contra hlt
      rw [List.drop_eq_nil_of_le (by omega)] at hdrop
      cases done <;> cases hdrop
    have hlen : ((initSequence s.cfg).take k ++ done).length = k + done.length := by simp [hk]
    have htake : (initSequence s.cfg).take (k + done.length) = (initSequence s.cfg).take k ++ done := by
      conv_lhs => rw [← hsplit, ← List.append_assoc, ← hlen, List.take_left]
    refine (controllerConsistent_init rfl).2 ⟨⟨c, ?_⟩, ?_, ?_⟩
    · show (initSequence s.cfg)[k + done.length]? = some (.send c)
      rw [← List.getElem?_drop, hdrop]; simp
    · simp only [hd, htake, dcsAfter_append]
    · simp only [ht, htake, callsOf_append, hdone, List.append_nil]

/-- With the first `k` calls of a FLUSH complete, going on to its next call leaves CUR, DCS and TX consistent. -/
theorem controllerConsistent_flushFrom {s : State} {k : Nat} (hd : s.dcs = .on) {before : List TxCall} (hb : initCalls s.cfg <+: before)
    (ht : s.tx = before ++ (flushCalls s.cfg s.fb).take k) : controllerConsistent (flushFrom k s) := by
  rw [flushFrom_eq]
  split_ifs with hk
  · exact (controllerConsistent_flush rfl).2 ⟨hk, hd, before, hb, ht⟩
  · exact (controllerConsistent_idle rfl).2 (.inr ⟨hd, by simpa only [ht] using hb.trans (List.prefix_append ..)⟩)

/-- A record is consistent vacuously when CUR holds none. -/
theorem workConsistent_of_recordOf_eq_none {s : State} (h : recordOf s.cur = none) : workConsistent s := fun w hw => by
  rw [hw] at h; cases h

theorem recordOf_offerFrom {busy : Nat → Cur} (hbusy : ∀ k, recordOf (busy k) = none) (s : State) (l : List ControllerAction) (k : Nat) :
    recordOf (s.offerFrom l busy k).cur = none := by
  rcases offerFrom_cur_cases s l busy k with ⟨j, h⟩ | h <;> rw [h]
  · exact hbusy j
  · rfl

/-- A step that leaves FB alone keeps the invariant when it leaves CUR, DCS and TX consistent. -/
theorem GoodState.of_frame {s t : State} (h : GoodState s) (hcfg : t.cfg = s.cfg) (hfb : t.fb = s.fb) (hpkt : decode t.pkt = .incomplete)
    (hctrl : controllerConsistent t) (hwork : workConsistent t) (hreset : TxCall.reset ∉ t.tx.tail) : GoodState t where
  cfg_wf := hcfg ▸ h.cfg_wf
  fb_wf := hfb ▸ h.fb_wf
  fb_within := by rw [hfb, hcfg]; exact h.fb_within
  pkt_incomplete := hpkt
  controller := hctrl
  work := hwork
  one_reset := hreset

/-! ### INIT and FLUSH in progress -/

/-- Where an INIT in progress stands in a good state: at a call, the actions before it carried out. -/
theorem GoodState.init_call {s : State} (h : GoodState s) {k : Nat} (hc : s.cur = .init k) :
    ∃ c, (initSequence s.cfg)[k]? = some (.send c) ∧ s.dcs = dcsAfter .uninitialized ((initSequence s.cfg).take k) ∧
      s.tx = callsOf ((initSequence s.cfg).take k) := by
  obtain ⟨⟨c, hk⟩, hd, ht⟩ := (controllerConsistent_init hc).1 h.controller
  exact ⟨c, hk, hd, ht⟩

/-- Where a FLUSH in progress stands in a good state: at a call, the calls before it complete. -/
theorem GoodState.flush_call {s : State} (h : GoodState s) {k : Nat} (hc : s.cur = .flush k) :
    ∃ c before, (flushCalls s.cfg s.fb)[k]? = some c ∧ s.dcs = .on ∧ initCalls s.cfg <+: before ∧
      s.tx = before ++ (flushCalls s.cfg s.fb).take k := by
  obtain ⟨hk, hd, before, hb, ht⟩ := (controllerConsistent_flush hc).1 h.controller
  exact ⟨_, before, List.getElem?_eq_getElem hk, hd, hb, ht⟩

theorem GoodState.stepInit {s : State} (h : GoodState s) {k : Nat} (hc : s.cur = .init k) : GoodState (stepInit k s) := by
  obtain ⟨c, hk, hd, ht⟩ := h.init_call hc
  unfold Machine.stepInit
  cases ha : s.transport.accept with
  | none => rw [stepController_waits hk ha]; exact h
  | some tr =>
    rw [stepController_accepted hk ha]
    have htx : s.tx ++ [c] = callsOf ((initSequence s.cfg).take (k + 1)) := by rw [callsOf_take_succ hk, ht]
    refine h.of_frame rfl rfl h.pkt_incomplete
      (controllerConsistent_initFrom (s := { s with tx := s.tx ++ [c], transport := tr }) (hd.trans (dcsAfter_take_succ hk _).symm) htx)
      (workConsistent_of_recordOf_eq_none (recordOf_offerFrom (fun _ => rfl) ..))
      (reset_notMem_tail_of_prefix (cfg := s.cfg) ?_)
    rw [← callsOf_initSequence, State.offerFrom_tx, htx]
    exact (List.take_prefix ..).filterMap _

theorem GoodState.stepFlush {s : State} (h : GoodState s) {k : Nat} (hc : s.cur = .flush k) : GoodState (stepFlush k s) := by
  obtain ⟨c, before, hk, hd, hb, ht⟩ := h.flush_call hc
  have hk' : (flushSequence s.cfg s.fb)[k]? = some (.send c) := by rw [getElem?_flushSequence, hk]; rfl
  unfold Machine.stepFlush
  cases ha : s.transport.accept with
  | none => rw [stepController_waits hk' ha]; exact h
  | some tr =>
    rw [stepController_accepted hk' ha]
    have htx : s.tx ++ [c] = before ++ (flushCalls s.cfg s.fb).take (k + 1) := by
      rw [List.take_add_one, hk, ht, List.append_assoc]; rfl
    refine h.of_frame rfl rfl h.pkt_incomplete
      (controllerConsistent_flushFrom (s := { s with tx := s.tx ++ [c], transport := tr }) hd hb htx)
      (workConsistent_of_recordOf_eq_none (recordOf_offerFrom (fun _ => rfl) ..)) (reset_notMem_tail_append h.one_reset ?_)
    rintro rfl
    exact reset_notMem_flushCalls s.cfg s.fb (List.mem_of_getElem? hk)

/-! ### Every other command -/

/-- A pass that clears byte `i` leaves the bytes up to `i` at 0x00 (spec/40_framebuffer_ops.md R90). -/
theorem read_write_zero {m : Framebuffer} (hm : m.wf = true) {i : Nat} (h : ∀ j < i, m.read j = 0x00) :
    ∀ j < i + 1, (m.write i 0x00).read j = 0x00 := by
  intro j hj
  by_cases hji : j = i
  · rw [hji, Framebuffer.read_write_same hm]
  · rw [Framebuffer.read_write_other _ hji, h j (by omega)]

/-- The next record of a CLEAR, if any, is at the next byte, and it is a byte of FB. -/
theorem nextRecord_clear (cfg : Config) (i : Nat) : nextRecord cfg (.clear i) = clearAt cfg (i + 1) := by
  simp [nextRecord, stepWork, stepClear, State.afterReset]

/-- Only a CLEAR has a CLEAR's record. -/
theorem eq_clear_of_command {w : Work} (h : w.command = .clear) : ∃ i, w = .clear i := by
  cases w
  case clear i => exact ⟨i, rfl⟩
  all_goals cases h

/-- The record with which a command begins is consistent. -/
theorem workConsistent_begin {s : State} (hs : s.cur = .idle) (i : Instr) : workConsistent (s.begin (firstRecord s.cfg i)) := by
  intro w hw
  have hfirst : firstRecord s.cfg i = some w := by rw [← recordOf_begin hs (firstRecord s.cfg i), hw, recordOf_working]
  have hcommand := command_firstRecord hfirst
  refine ⟨⟨0, by rw [State.begin_cfg, hcommand]; exact hfirst⟩, ?_⟩
  rintro j rfl
  cases hcommand
  cases hfirst
  exact fun j hj => absurd hj j.not_lt_zero

/-- A pass leaves the record consistent. -/
theorem workConsistent_stepWork {s : State} (h : GoodState s) {w : Work} (hc : s.cur = .working w) : workConsistent (stepWork w s) := by
  obtain ⟨⟨n, hn⟩, hclear⟩ := h.work w hc
  obtain ⟨fb, rsp, hstep, -⟩ := stepWork_cases w s
  intro w' hw'
  have hnext : nextRecord s.cfg w = some w' := by
    rw [hstep] at hw'
    rw [← recordOf_ofWork (nextRecord s.cfg w)]
    exact congrArg recordOf hw'
  have hcommand := command_nextRecord hnext
  refine ⟨⟨n + 1, ?_⟩, ?_⟩
  · rw [(TouchesOnly.of_stepWork w s).cfg_kept, hcommand, recordAfter, hn]
    exact hnext
  · rintro j rfl
    obtain ⟨i, rfl⟩ := eq_clear_of_command hcommand.symm
    rw [nextRecord_clear, clearAt] at hnext
    split_ifs at hnext with hi
    cases hnext
    rw [stepWork, stepClear, if_pos hi]
    exact read_write_zero h.fb_wf (hclear i rfl)

/-- A pass of a command writes FB inside its space and keeps its canonical form. -/
theorem fb_of_stepWork {s : State} (h : GoodState s) (w : Work) :
    (stepWork w s).fb.wf = true ∧ (stepWork w s).fb.within s.cfg.size = true := by
  obtain ⟨fb, rsp, hstep, ⟨-, c, ps, rfl⟩ | ⟨-, i, -, rfl⟩ | ⟨rfl, -⟩⟩ := stepWork_cases w s <;> rw [hstep]
  · exact ⟨wf_plot h.fb_wf, within_plot h.cfg_wf h.fb_within c ps⟩
  · simp only
    split_ifs with hi
    · exact ⟨Framebuffer.wf_write h.fb_wf .., Framebuffer.within_write h.fb_within (by omega) _⟩
    · exact ⟨Framebuffer.wf_clear _, Framebuffer.within_clear ..⟩
  · exact ⟨h.fb_wf, h.fb_within⟩

theorem GoodState.stepWork {s : State} (h : GoodState s) {w : Work} (hc : s.cur = .working w) : GoodState (stepWork w s) := by
  have hf := TouchesOnly.of_stepWork w s
  obtain ⟨hdcs, htx, -⟩ := hf.controller_kept (drivesTransport_command w)
  have hrest : ControllerAtRest (Machine.stepWork w s) := by
    rw [ControllerAtRest, hdcs, htx, hf.cfg_kept]
    exact (controllerConsistent_working hc).1 h.controller
  obtain ⟨hwf, hwithin⟩ := fb_of_stepWork h w
  refine ⟨hf.cfg_kept ▸ h.cfg_wf, hwf, hf.cfg_kept ▸ hwithin, hf.pkt_kept ▸ h.pkt_incomplete, ?_, workConsistent_stepWork h hc,
    htx ▸ h.one_reset⟩
  obtain ⟨fb, rsp, hstep, -⟩ := stepWork_cases w s
  cases hw : nextRecord s.cfg w with
  | none => exact (controllerConsistent_idle (by rw [hstep, hw]; rfl)).2 hrest
  | some w' => exact (controllerConsistent_working (by rw [hstep, hw]; rfl)).2 hrest

/-! ### An idle core -/

theorem GoodState.with_bytes {s : State} (h : GoodState s) {pkt : List Byte} (hp : decode pkt = .incomplete) (cmdIn : List Byte) :
    GoodState { s with pkt := pkt, cmdIn := cmdIn } :=
  h.of_frame rfl rfl hp h.controller h.work h.one_reset

/-- In an idle core INIT has never started, and nothing was sent, or it is complete. -/
theorem GoodState.at_rest {s : State} (h : GoodState s) (hc : s.cur = .idle) : ControllerAtRest s :=
  (controllerConsistent_idle hc).1 h.controller

theorem ControllerAtRest.tx_eq_nil {s : State} (h : ControllerAtRest s) (hd : s.dcs = .uninitialized) : s.tx = [] := by
  rcases h with ⟨-, ht⟩ | ⟨ho, -⟩
  · exact ht
  · rw [hd] at ho; cases ho

theorem ControllerAtRest.initCalls_prefix {s : State} (h : ControllerAtRest s) (hd : s.dcs = .on) : initCalls s.cfg <+: s.tx := by
  rcases h with ⟨hu, -⟩ | ⟨-, ht⟩
  · rw [hd] at hu; cases hu
  · exact ht

/-- A command that begins keeps the invariant. -/
theorem GoodState.exec {s t : State} (h : GoodState s) (hc : s.cur = .idle) {i : Instr} (he : exec i s = .next t) : GoodState t := by
  have hrest := h.at_rest hc
  rcases exec_cases he with ⟨-, rfl⟩ | ⟨-, rfl⟩ | ⟨-, hd, rfl⟩ | ⟨-, hd, rfl⟩
  · refine h.of_frame (State.begin_cfg ..) (State.begin_fb ..) ?_ ?_ (workConsistent_begin hc i) ?_
    · rw [State.begin_pkt]; exact h.pkt_incomplete
    · cases hw : firstRecord s.cfg i with
      | none => exact h.controller
      | some w => exact (controllerConsistent_working rfl).2 hrest
    · rw [State.begin_tx]; exact h.one_reset
  · exact h
  · exact h.of_frame rfl rfl h.pkt_incomplete (controllerConsistent_initFrom hd (hrest.tx_eq_nil hd))
      (workConsistent_of_recordOf_eq_none (recordOf_offerFrom (fun _ => rfl) ..)) h.one_reset
  · exact h.of_frame rfl rfl h.pkt_incomplete
      (controllerConsistent_flushFrom hd (hrest.initCalls_prefix hd) (List.append_nil _).symm)
      (workConsistent_of_recordOf_eq_none (recordOf_offerFrom (fun _ => rfl) ..)) h.one_reset

/-- Settles O53: the bytes an idle core takes, a command's beginning, a call of INIT or FLUSH and a pass of any other command each
keep the invariant. -/
theorem stepKeepsGoodState : Obligations.StepKeepsGoodState := by
  intro s t h hstep
  rcases step_fetch_or_progress hstep with ⟨hc, pkt, cmdIn, hp, rfl | ⟨i, he⟩⟩ | ⟨k, hc, rfl⟩ | ⟨k, hc, rfl⟩ | ⟨w, hc, rfl⟩
  · exact h.with_bytes hp cmdIn
  · exact (h.with_bytes hp cmdIn).exec hc he
  · exact h.stepInit hc
  · exact h.stepFlush hc
  · exact h.stepWork hc

end Sys2Proof.Safety
end

section
/-! ## The trace (spec/10_state.md R26) -/

namespace Sys2Proof.Safety

open Sys2Proof.Machine

/-- A step appends one call to TX or none. -/
theorem step_tx_cases {s t : State} (h : step s = .next t) : t.tx = s.tx ∨ ∃ c, t.tx = s.tx ++ [c] := by
  have controller (l : List ControllerAction) (busy : Nat → Cur) (k : Nat) :
      (s.stepController l busy k).tx = s.tx ∨ ∃ c, (s.stepController l busy k).tx = s.tx ++ [c] := by
    rcases stepController_cases s l busy k with ⟨-, h⟩ | ⟨c, -, -, h⟩ | ⟨c, _, -, -, h⟩ <;> rw [h]
    · exact .inl rfl
    · exact .inl rfl
    · exact .inr ⟨c, rfl⟩
  rcases step_fetch_or_progress h with ⟨-, pkt, cmdIn, -, rfl | ⟨i, he⟩⟩ | ⟨k, -, rfl⟩ | ⟨k, -, rfl⟩ | ⟨w, -, rfl⟩
  · exact .inl rfl
  · rw [(exec_frame he).1]
    exact .inl rfl
  · exact controller ..
  · exact controller ..
  · exact .inl ((TouchesOnly.of_stepWork w s).controller_kept (drivesTransport_command w)).2.1

/-- In a good state TX is a beginning of INIT's calls, or all of them and what followed. -/
theorem GoodState.tx_prefix_or_prefix {s : State} (h : GoodState s) : s.tx <+: initCalls s.cfg ∨ initCalls s.cfg <+: s.tx := by
  have rest (hr : ControllerAtRest s) : s.tx <+: initCalls s.cfg ∨ initCalls s.cfg <+: s.tx :=
    hr.imp (fun ⟨_, ht⟩ => ht ▸ List.nil_prefix) And.right
  cases hc : s.cur with
  | idle => exact rest (h.at_rest hc)
  | working w => exact rest ((controllerConsistent_working hc).1 h.controller)
  | init k =>
    obtain ⟨c, -, -, ht⟩ := h.init_call hc
    rw [ht, ← callsOf_initSequence]
    exact .inl ((List.take_prefix ..).filterMap _)
  | flush k =>
    obtain ⟨c, before, -, -, hb, ht⟩ := h.flush_call hc
    exact .inr (ht ▸ hb.trans (List.prefix_append ..))

/-- In a good state TX is empty, or its first call is a `reset()` and no other is. -/
theorem GoodState.tx_eq_nil_or_reset_cons {s : State} (h : GoodState s) :
    s.tx = [] ∨ ∃ calls, s.tx = .reset :: calls ∧ TxCall.reset ∉ calls := by
  cases ht : s.tx with
  | nil => exact .inl rfl
  | cons c calls =>
    have hone := h.one_reset
    have hfirst := h.tx_prefix_or_prefix
    rw [ht] at hone hfirst
    obtain rfl : c = .reset := by
      rcases hfirst with hp | hp
      · exact (List.cons_prefix_cons.1 hp).1
      · exact (List.cons_prefix_cons.1 hp).1.symm
    exact .inr ⟨calls, rfl, hone⟩

/-- Settles O58: a step appends, and the state it leads to is good. -/
theorem traceBeginsWithItsOneReset : Obligations.TraceBeginsWithItsOneReset := by
  intro s t h hstep
  have hgood := (stepKeepsGoodState s t h hstep).tx_eq_nil_or_reset_cons
  rcases step_tx_cases hstep with ht | ⟨c, ht⟩
  · exact ⟨ht ▸ List.prefix_rfl, by rw [ht]; omega, hgood⟩
  · exact ⟨ht ▸ List.prefix_append .., by simp [ht], hgood⟩

end Sys2Proof.Safety
end

section
/-! ## The order of DCS (spec/10_state.md R22) -/

namespace Sys2Proof.Safety

open Sys2Proof.Machine

/-- From `d` on, every assignment of a sequence moves DCS one place to the right, and a call or the end comes after it. -/
def RisesByOne : Dcs → List ControllerAction → Prop
  | _, [] => True
  | d, .send _ :: rest => RisesByOne d rest
  | d, .enter d' :: rest => d'.code = d.code + 1 ∧ (∀ e, rest.head? ≠ some (.enter e)) ∧ RisesByOne d' rest

/-- What is left of such a sequence is one. -/
theorem RisesByOne.drop {d : Dcs} {l : List ControllerAction} (h : RisesByOne d l) (k : Nat) :
    RisesByOne (dcsAfter d (l.take k)) (l.drop k) := by
  induction l generalizing d k with
  | nil => simp [RisesByOne]
  | cons a l ih =>
    cases k with
    | zero => exact h
    | succ k =>
      cases a with
      | enter d' => exact ih h.2.2 k
      | send c => exact ih h k

/-- On the way to the next call of such a sequence DCS moves one place at most. -/
theorem RisesByOne.code_nextCall {d : Dcs} {l : List ControllerAction} (h : RisesByOne d l) (k : Nat) :
    d.code ≤ (nextCall k d l).1.code ∧ (nextCall k d l).1.code ≤ d.code + 1 := by
  match l with
  | [] => exact ⟨Nat.le_refl _, Nat.le_succ _⟩
  | .send _ :: _ => exact ⟨Nat.le_refl _, Nat.le_succ _⟩
  | [.enter d'] => exact ⟨h.1 ▸ Nat.le_succ _, h.1.le⟩
  | .enter d' :: .send _ :: _ => exact ⟨h.1 ▸ Nat.le_succ _, h.1.le⟩
  | .enter d' :: .enter e :: _ => exact absurd rfl (h.2.1 e)

theorem risesByOne_script_append (d : Dcs) (bytes : List Byte) (l : List ControllerAction) :
    RisesByOne d (bytes.map (fun b => .send (.cmd b)) ++ l) ↔ RisesByOne d l := by
  induction bytes with
  | nil => rfl
  | cons b bytes ih => exact ih

/-- A step of the script has a byte (spec/45_display_controller.md R152). -/
theorem scriptStep_bytes_eq_cons (a : ScriptStep) : ∃ b bytes, a.bytes = b :: bytes := by
  cases a with
  | single b => exact ⟨b, [], rfl⟩
  | pair b b' => exact ⟨b, [b'], rfl⟩

theorem configurationBytes_eq_cons (script : InitScript) : ∃ b bytes, script.configurationBytes = b :: bytes := by
  obtain ⟨b, bytes, h⟩ := scriptStep_bytes_eq_cons script.displayOff
  rw [InitScript.configurationBytes, InitScript.configuration, List.flatMap_cons, h]
  exact ⟨b, _, rfl⟩

/-- INIT moves DCS from place to place, with a call between any two moves (spec/45_display_controller.md R150, R151). -/
theorem risesByOne_initSequence (cfg : Config) : RisesByOne .uninitialized (initSequence cfg) := by
  obtain ⟨b, bytes, hconf⟩ := configurationBytes_eq_cons cfg.script
  obtain ⟨b', bytes', hon⟩ : ∃ b bytes, cfg.script.displayOnBytes = b :: bytes := scriptStep_bytes_eq_cons _
  simp [initSequence, RisesByOne, risesByOne_script_append, Dcs.code, hconf, hon]

/-- A step of an INIT in progress moves DCS one place to the right at most. -/
theorem GoodState.code_stepInit {s : State} (h : GoodState s) {k : Nat} (hc : s.cur = .init k) :
    s.dcs.code ≤ (Machine.stepInit k s).dcs.code ∧ (Machine.stepInit k s).dcs.code ≤ s.dcs.code + 1 := by
  obtain ⟨c, hk, hd, -⟩ := h.init_call hc
  unfold Machine.stepInit
  cases ha : s.transport.accept with
  | none => rw [stepController_waits hk ha]; exact ⟨Nat.le_refl _, Nat.le_succ _⟩
  | some tr =>
    have hrises := (risesByOne_initSequence s.cfg).drop (k + 1)
    rw [dcsAfter_take_succ hk, ← hd] at hrises
    rw [stepController_accepted hk ha, State.offerFrom_dcs]
    exact hrises.code_nextCall (k + 1)

/-- On is the last place. -/
theorem eq_on_of_code_le {d : Dcs} (h : Dcs.code .on ≤ d.code) : d = .on := by
  cases d
  case on => rfl
  all_goals simp [Dcs.code] at h

/-- What a step does to DCS: nothing, or INIT begins, its first assignment made, or an INIT in progress goes on. -/
theorem step_dcs_cases {s t : State} (h : step s = .next t) :
    t.dcs = s.dcs ∨ (s.dcs = .uninitialized ∧ t.dcs = .transportReady ∧ t.cur = .init 1) ∨ ∃ k, s.cur = .init k ∧ t = stepInit k s := by
  rcases step_fetch_or_progress h with ⟨-, pkt, cmdIn, -, rfl | ⟨i, he⟩⟩ | hinit | ⟨k, -, rfl⟩ | ⟨w, -, rfl⟩
  · exact .inl rfl
  · rcases exec_cases he with ⟨-, rfl⟩ | ⟨-, rfl⟩ | ⟨-, hd, rfl⟩ | ⟨-, -, rfl⟩
    · exact .inl (State.begin_dcs ..)
    · exact .inl rfl
    · exact .inr (.inl ⟨hd, rfl, rfl⟩)
    · exact .inl (offerFrom_flushSequence_dcs ..)
  · exact .inr (.inr hinit)
  · exact .inl (stepFlush_dcs k s)
  · exact .inl ((TouchesOnly.of_stepWork w s).controller_kept (drivesTransport_command w)).1

theorem GoodState.code_step {s t : State} (h : GoodState s) (hstep : step s = .next t) :
    s.dcs.code ≤ t.dcs.code ∧ t.dcs.code ≤ s.dcs.code + 1 := by
  rcases step_dcs_cases hstep with hd | ⟨hd, hd', -⟩ | ⟨k, hc, rfl⟩
  · rw [hd]; exact ⟨Nat.le_refl _, Nat.le_succ _⟩
  · rw [hd, hd']; decide
  · exact h.code_stepInit hc

/-- Settles O57: between two calls of INIT stands one assignment at most, and it is the next place. -/
theorem dcsNeverMovesBackward : Obligations.DcsNeverMovesBackward := by
  intro s t h hstep
  obtain ⟨hle, hle'⟩ := h.code_step hstep
  refine ⟨hle, hle', fun hne => ?_, fun hon => eq_on_of_code_le (hon ▸ hle), rfl⟩
  rcases step_dcs_cases hstep with hd | ⟨-, -, hc⟩ | ⟨k, hc, -⟩
  · exact absurd hd hne
  · exact ⟨1, .inr hc⟩
  · exact ⟨k, .inl hc⟩

end Sys2Proof.Safety
end

section
/-! ## The transport port while a command is in progress (spec/46_transport.md R176, R177) -/

namespace Sys2Proof.Safety

open Sys2Proof.Machine

theorem cmdReady_eq_false_iff (s : State) : s.cmdReady = false ↔ ∃ i, s.cur.command = some i := by
  rw [State.cmdReady]
  cases s.cur <;> simp [Cur.command]

/-- A call is a byte call or a `reset()`. -/
theorem txValid_or_txRstReq_iff (s : State) : (s.txValid = true ∨ s.txRstReq = true) ↔ ∃ c, s.txOffered = some c := by
  rw [State.txValid, State.txRstReq]
  rcases s.txOffered with _ | c
  · simp
  · cases c <;> simp [TxCall.byte]

theorem not_txValid_and_txRstReq (s : State) : ¬ (s.txValid = true ∧ s.txRstReq = true) := by
  rw [State.txValid, State.txRstReq]
  rcases s.txOffered with _ | c
  · simp
  · cases c <;> simp [TxCall.byte]

theorem callsLeft_initFrom (k : Nat) (s : State) : callsLeft (initFrom k s) = callsOf ((initSequence s.cfg).drop k) := by
  rcases offerFrom_cases s (initSequence s.cfg) .init k with ⟨hnone, h⟩ | ⟨done, c, rest, hdrop, hdone, h⟩ <;> rw [initFrom, h]
  · exact hnone.symm
  · show callsOf ((initSequence s.cfg).drop (k + done.length)) = _
    rw [← List.drop_drop, hdrop, List.drop_left, callsOf_append, hdone, List.nil_append]

theorem callsOf_drop_flushSequence (cfg : Config) (m : Framebuffer) (k : Nat) :
    callsOf ((flushSequence cfg m).drop k) = (flushCalls cfg m).drop k := by
  rw [flushSequence, ← List.map_drop, callsOf_map_send]

theorem callsLeft_flushFrom (k : Nat) (s : State) : callsLeft (flushFrom k s) = callsOf ((flushSequence s.cfg s.fb).drop k) := by
  rw [flushFrom_eq, callsOf_drop_flushSequence]
  split_ifs with hk
  · rfl
  · exact (List.drop_eq_nil_of_le (by omega)).symm

/-- The core offers call `c`, which stands at position `k` of the sequence `l` of the command in progress. -/
structure Offers (s : State) (l : List ControllerAction) (busy : Nat → Cur) (k : Nat) (c : TxCall) : Prop where
  call : l[k]? = some (.send c)
  offered : s.txOffered = some c
  step_eq : step s = .next (s.stepController l busy k)
  left : callsLeft s = callsOf (l.drop k)
  left_after : ∀ tx tr, callsLeft ({ s with tx := tx, transport := tr }.offerFrom l busy (k + 1)) = callsOf (l.drop (k + 1))

/-- An INIT or FLUSH in progress in a good state offers a call. -/
theorem GoodState.offers {s : State} (h : GoodState s) {i : Instr} (hi : s.cur.command = some i) (hd : drivesTransport i = true) :
    ∃ l busy k c, Offers s l busy k c := by
  cases hc : s.cur with
  | idle => rw [hc] at hi; cases hi
  | working w =>
    rw [hc] at hi
    cases hi
    rw [drivesTransport_command] at hd
    cases hd
  | init k =>
    obtain ⟨c, hk, -⟩ := h.init_call hc
    refine ⟨initSequence s.cfg, .init, k, c, hk, ?_, ?_, ?_, fun _ _ => callsLeft_initFrom ..⟩
    · simp [State.txOffered, hc, hk, ControllerAction.call?]
    · simp [step, h.cfg_wf, stepCore, hc, Machine.stepInit]
    · simp [callsLeft, hc]
  | flush k =>
    obtain ⟨c, _, hk, -⟩ := h.flush_call hc
    have hk' : (flushSequence s.cfg s.fb)[k]? = some (.send c) := by rw [getElem?_flushSequence, hk]; rfl
    refine ⟨flushSequence s.cfg s.fb, .flush, k, c, hk', ?_, ?_, ?_, fun _ _ => callsLeft_flushFrom ..⟩
    · simp [State.txOffered, hc, hk', ControllerAction.call?]
    · simp [step, h.cfg_wf, stepCore, hc, Machine.stepFlush]
    · simp [callsLeft, hc, callsOf_drop_flushSequence]

/-- Any other core offers none, and has none left. -/
theorem offers_nothing {s : State} (h : ¬ ∃ i, s.cur.command = some i ∧ drivesTransport i = true) :
    s.txOffered = none ∧ callsLeft s = [] := by
  unfold State.txOffered callsLeft
  cases hc : s.cur with
  | idle => exact ⟨rfl, rfl⟩
  | working w => exact ⟨rfl, rfl⟩
  | init k => exact absurd ⟨.init, by rw [hc]; rfl, rfl⟩ h
  | flush k => exact absurd ⟨.flush, by rw [hc]; rfl, rfl⟩ h

section
variable {s : State} {l : List ControllerAction} {busy : Nat → Cur} {k : Nat} {c : TxCall}

theorem Offers.callsLeft_eq (h : Offers s l busy k c) : callsLeft s = c :: callsOf (l.drop (k + 1)) := by
  rw [h.left, callsOf_drop_of_call h.call]

theorem Offers.step_waits (h : Offers s l busy k c) (ha : s.transport.accept = none) : step s = .next s := by
  rw [h.step_eq, stepController_waits h.call ha]

/-- The step in which the transport accepts the call completes it, and touches nothing but CUR and DCS besides. -/
theorem Offers.step_accepted (h : Offers s l busy k c) {tr : Transport} (ha : s.transport.accept = some tr) :
    ∃ t, step s = .next t ∧ t.tx = s.tx ++ [c] ∧ t.transport = tr ∧ callsLeft t = (callsLeft s).tail ∧
      t.fb = s.fb ∧ t.rsp = s.rsp ∧ t.cfg = s.cfg ∧ t.pkt = s.pkt ∧ t.cmdIn = s.cmdIn := by
  refine ⟨_, h.step_eq, ?_⟩
  rw [stepController_accepted h.call ha, h.callsLeft_eq]
  exact ⟨rfl, rfl, h.left_after .., rfl, rfl, rfl, rfl, rfl⟩

end

/-- Settles O48: an INIT or FLUSH in progress offers the first call it has left, and any other core none. -/
theorem busyCoreOffersOneCall : Obligations.BusyCoreOffersOneCall := by
  intro s h
  refine ⟨cmdReady_eq_false_iff s, ?_, not_txValid_and_txRstReq s, ?_⟩
  · rw [txValid_or_txRstReq_iff]
    constructor
    · rintro ⟨c, hc⟩
      by_contra hnone
      rw [(offers_nothing hnone).1] at hc
      cases hc
    · rintro ⟨i, hi, hd⟩
      obtain ⟨_, _, _, c, ho⟩ := h.offers hi hd
      exact ⟨c, ho.offered⟩
  · by_cases hdrives : ∃ i, s.cur.command = some i ∧ drivesTransport i = true
    · obtain ⟨i, hi, hd⟩ := hdrives
      obtain ⟨_, _, _, c, ho⟩ := h.offers hi hd
      refine ⟨by rw [ho.offered, ho.callsLeft_eq]; rfl, fun c' hc' => ⟨ho.step_waits, fun tr ha => ?_⟩⟩
      obtain rfl : c = c' := Option.some.inj (ho.offered.symm.trans hc')
      exact ho.step_accepted ha
    · obtain ⟨hnone, hleft⟩ := offers_nothing hdrives
      rw [hnone, hleft]
      exact ⟨rfl, nofun⟩

end Sys2Proof.Safety
end

/-! # Proofs: the framebuffer's memory map (spec/20_memory.md)

A bit of FB and a point in bounds name each other, and every step keeps the canonical form of the store. -/

section
/-! ## The pixel of a bit -/

namespace Sys2Proof.Machine

open Sys2Proof.Safety

/-- N = P × W: the pages are whole and have no padding (spec/20_memory.md R40, R58). -/
theorem size_eq_pages_mul_width {cfg : Config} (h : cfg.wf = true) : cfg.size = cfg.pages * cfg.width := by
  obtain ⟨-, -, -, -, hpages⟩ := sizes_of_wf h
  rw [Config.size, hpages, Nat.mul_left_comm, Nat.mul_div_cancel_left _ (by decide), Nat.mul_comm]

/-- Settles O17. -/
theorem pixelAddressIsInRange : Obligations.PixelAddressIsInRange := by
  intro cfg p h hp
  obtain ⟨-, -, -, -, hpages⟩ := sizes_of_wf h
  obtain ⟨-, -, hy0, hy⟩ := inBounds_iff.1 hp
  have hpage : p.2.toNat / 8 < cfg.pages := by omega
  exact ⟨pixelIndex_lt_size h hp, hpage, Nat.mod_lt _ (by decide), size_eq_pages_mul_width h⟩

/-- The point whose pixel is bit `k` of FB[i]: column i mod W, row 8 × (i div W) + k (the inverse of R40). -/
def pixelAt (cfg : Config) (i k : Nat) : Point := (((i % cfg.width : Nat) : Int), ((8 * (i / cfg.width) + k : Nat) : Int))

/-- Every bit of FB is visible: the page of its byte is one of the display's. -/
theorem inBounds_pixelAt {cfg : Config} (h : cfg.wf = true) {i k : Nat} (hi : i < cfg.size) (hk : k < 8) :
    inBounds cfg (pixelAt cfg i k) = true := by
  obtain ⟨hwidth, -, -, -, hpages⟩ := sizes_of_wf h
  have hcolumn : i % cfg.width < cfg.width := Nat.mod_lt _ hwidth
  have hpage : i / cfg.width < cfg.pages := Nat.div_lt_of_lt_mul (by rwa [Nat.mul_comm, ← size_eq_pages_mul_width h])
  rw [inBounds_iff]
  simp only [pixelAt]
  omega

theorem pixelIndex_pixelAt (cfg : Config) (i : Nat) {k : Nat} (hk : k < 8) : pixelIndex cfg (pixelAt cfg i k) = i := by
  have hpage : (8 * (i / cfg.width) + k) / 8 = i / cfg.width := by omega
  simp only [pixelIndex, pixelAt, Int.toNat_natCast, hpage]
  exact Nat.div_add_mod' i cfg.width

theorem pixelBit_pixelAt (cfg : Config) (i : Nat) {k : Nat} (hk : k < 8) : pixelBit (pixelAt cfg i k) = k := by
  simp only [pixelBit, pixelAt, Int.toNat_natCast]
  omega

/-- Dividing the index by W gives the point's page and column back, since its column is below W. -/
theorem pixelAt_pixelIndex {cfg : Config} {p : Point} (hp : inBounds cfg p = true) :
    pixelAt cfg (pixelIndex cfg p) (pixelBit p) = p := by
  obtain ⟨hx0, hx, hy0, hy⟩ := inBounds_iff.1 hp
  have hcolumn : p.1.toNat < cfg.width := by omega
  obtain ⟨hdiv, hmod⟩ : pixelIndex cfg p / cfg.width = p.2.toNat / 8 ∧ pixelIndex cfg p % cfg.width = p.1.toNat :=
    (Nat.div_mod_unique (by omega)).2 ⟨by rw [pixelIndex, Nat.mul_comm, Nat.add_comm], hcolumn⟩
  rw [pixelAt, hdiv, hmod, pixelBit, Nat.div_add_mod, Int.toNat_of_nonneg hx0, Int.toNat_of_nonneg hy0]

/-- Settles O18: the map from a bit to its point has the index and the bit of a pixel as its inverse. -/
theorem everyBitIsOnePixel : Obligations.EveryBitIsOnePixel := by
  intro cfg i k h hi hk
  refine ⟨pixelAt cfg i k, ⟨inBounds_pixelAt h hi hk, (pixelIndex_pixelAt cfg i hk).symm, (pixelBit_pixelAt cfg i hk).symm⟩, ?_⟩
  rintro p ⟨hp, rfl, rfl⟩
  exact (pixelAt_pixelIndex hp).symm

end Sys2Proof.Machine
end

section
/-! ## The canonical form -/

namespace Sys2Proof.Machine

open Sys2Proof.Safety

/-- A pass keeps the canonical form in any state: it plots points, clears a byte or leaves FB alone. -/
theorem wf_stepWork {s : State} (h : s.fb.wf = true) (w : Work) : (stepWork w s).fb.wf = true := by
  obtain ⟨fb, rsp, hstep, ⟨-, c, ps, rfl⟩ | ⟨-, i, -, rfl⟩ | ⟨rfl, -⟩⟩ := stepWork_cases w s <;> rw [hstep]
  · exact wf_plot h
  · simp only
    split_ifs
    · exact Framebuffer.wf_write h ..
    · exact Framebuffer.wf_clear _
  · exact h

/-- Settles O55: of all kinds of step only a pass writes FB. -/
theorem stepKeepsCanonicalStore : Obligations.StepKeepsCanonicalStore := by
  intro s t h hstep
  rcases step_fetch_or_progress hstep with ⟨-, pkt, cmdIn, -, rfl | ⟨i, he⟩⟩ | ⟨k, -, rfl⟩ | ⟨k, -, rfl⟩ | ⟨w, -, rfl⟩
  · exact h
  · rw [(exec_frame he).1]
    exact h
  · rw [stepInit, State.stepController_fb]
    exact h
  · rw [stepFlush, State.stepController_fb]
    exact h
  · exact wf_stepWork h w

end Sys2Proof.Machine
end

/-! # Proofs: the encoding (spec/30_encoding.md)

The decoder and the encoder are inverse to each other, and what an idle core does with the bytes at its command port follows from what
the decoder makes of them. -/

section
/-! ## Byte 0 (R62, R64) -/

namespace Sys2Proof

@[simp] theorem colourBit_getElem_zero (c : Bool) : (colourBit c)[0] = c := by cases c <;> rfl

theorem colourBit_getLsbD_zero (b : Byte) : colourBit (b.getLsbD 0) = b &&& 1#8 := by
  rw [BitVec.and_one_eq_setWidth_ofBool_getLsbD]
  cases b.getLsbD 0 <;> rfl

/-- A byte is what the mask of a row with a colour operand keeps of it, and its bit 0. -/
theorem and_mask_or_colourBit (b : Byte) : b &&& 0xFE#8 ||| colourBit (b.getLsbD 0) = b := by
  rw [colourBit_getLsbD_zero, ← BitVec.and_or_distrib_left]
  exact BitVec.and_allOnes

theorem toNat_and_mask (b : Byte) : (b &&& 0xFE#8).toNat = 2 * (b.toNat / 2) := by
  have hmask : b &&& 0xFE#8 = b >>> 1 <<< 1 := (BitVec.shiftLeft_ushiftRight (x := b) (n := 1)).symm
  rw [hmask, BitVec.toNat_shiftLeft, BitVec.toNat_ushiftRight, Nat.shiftLeft_eq, Nat.shiftRight_eq_div_pow]
  omega

/-- Byte 0 of the packets of an opcode, for the colour operand `c` where it has one (R62, R64). -/
def opcodeByte (op : Opcode) (c : Bool) : Byte :=
  match op with
  | .clear => 0x10#8
  | .setPixel => 0x12#8 ||| colourBit c
  | .getByte => 0x14#8
  | .drawLine => 0x20#8 ||| colourBit c
  | .drawRect => 0x22#8 ||| colourBit c
  | .fillRect => 0x24#8 ||| colourBit c
  | .drawCircle => 0x26#8 ||| colourBit c
  | .fillCircle => 0x28#8 ||| colourBit c
  | .drawChar => 0x30#8 ||| colourBit c
  | .drawString => 0x32#8 ||| colourBit c
  | .init => 0x40#8
  | .flush => 0x42#8
  | .getStatus => 0x44#8

/-- A row's mask drops no bit, or bit 0 alone, where the colour is. -/
theorem mask_cases : ∀ row ∈ opcodeTable,
    (row.mask = 0xFF#8 ∧ ∀ c, opcodeByte row.opcode c = row.pattern) ∨
      (row.mask = 0xFE#8 ∧ ∀ c, opcodeByte row.opcode c = row.pattern ||| colourBit c) := by decide

/-- Byte 0 is given by the row it selects and its own bit 0. -/
theorem opcodeByte_of_rowOf {b : Byte} {row : OpcodeRow} (h : rowOf b = some row) : opcodeByte row.opcode (b.getLsbD 0) = b := by
  obtain ⟨hmem, hb⟩ := byte_of_rowOf h
  rcases mask_cases row hmem with ⟨hmask, hbyte⟩ | ⟨hmask, hbyte⟩ <;> rw [hbyte, ← hb, hmask]
  · exact BitVec.and_allOnes
  · exact and_mask_or_colourBit b

/-- DRAW_STRING's is the one row of format STR (R63). -/
theorem str_row : ∀ row ∈ opcodeTable, row.format = .str → row.mask = 0xFE#8 ∧ row.pattern = 0x32#8 := by decide

theorem rowOf_of_and_mask_eq {b : Byte} (h : b &&& 0xFE#8 = 0x32#8) : rowOf b = some ⟨.drawString, .str, 0x32#8, 0xFE#8⟩ := by
  rw [← and_mask_or_colourBit b, h, rowOf_drawString]

/-- The bytes that select no row are those that R67 lists. -/
theorem rowOf_eq_none_iff (b : Byte) : rowOf b = none ↔
    (b.toNat ≤ 0x0F ∨ b.toNat = 0x11 ∨ (0x15 ≤ b.toNat ∧ b.toNat ≤ 0x1F) ∨ (0x2A ≤ b.toNat ∧ b.toNat ≤ 0x2F) ∨
      (0x34 ≤ b.toNat ∧ b.toNat ≤ 0x3F) ∨ b.toNat = 0x41 ∨ b.toNat = 0x43 ∨ 0x45 ≤ b.toNat) := by
  have hall : b &&& 0xFF#8 = b := BitVec.and_allOnes
  simp only [rowOf, opcodeTable, List.find?_eq_none, List.forall_mem_cons, beq_iff_eq, hall, ← BitVec.toNat_inj, toNat_and_mask,
    BitVec.toNat_ofNat, List.not_mem_nil, false_imp_iff, implies_true, and_true]
  omega

end Sys2Proof
end

section
/-! ## What the decoder can answer (R66, R67, R69) -/

namespace Sys2Proof

open Sys2Proof.Safety

theorem decode_of_rowOf_none {b : Byte} (h : rowOf b = none) (operands : List Byte) :
    decode (b :: operands) = .reserved b operands := by
  simp [decode, h]

theorem decode_of_rowOf_some {b : Byte} {row : OpcodeRow} (h : rowOf b = some row) (operands : List Byte) :
    decode (b :: operands) = decodeOperands row.opcode (b.getLsbD 0) operands := by
  simp [decode, h]

/-- The operands of an opcode are cut short, or they are read whole: those of a well-formed instruction whose packet they end. -/
theorem decodeOperands_cases (op : Opcode) (c : Bool) (bytes : List Byte) :
    decodeOperands op c bytes = .incomplete ∨
      ∃ i rest, decodeOperands op c bytes = .command i rest ∧ i.wf = true ∧ encode i ++ rest = opcodeByte op c :: bytes := by
  cases op <;> simp only [decodeOperands]
  case clear | init | flush | getStatus => exact .inr ⟨_, _, rfl, rfl, rfl⟩
  case drawString =>
    split
    case h_1 x0 x1 y0 y1 font len tail =>
      split
      case isTrue hlen =>
        have hwf : len.toNat ≤ 255 := Nat.le_of_lt_succ len.isLt
        exact .inr ⟨_, _, rfl, by simp [Instr.wf, hlen, hwf], by simp [encode, opcodeByte, hlen]⟩
      case isFalse => exact .inl rfl
    case h_2 => exact .inl rfl
  all_goals
    split
    · exact .inr ⟨_, _, rfl, rfl, by simp [encode, opcodeByte]⟩
    · exact .inl rfl

/-- The decoder wants more bytes, or byte 0 is reserved, or a packet of a well-formed instruction stands at the front. -/
theorem decode_cases (bytes : List Byte) :
    decode bytes = .incomplete ∨ (∃ b rest, decode bytes = .reserved b rest ∧ bytes = b :: rest ∧ rowOf b = none) ∨
      ∃ i rest, decode bytes = .command i rest ∧ i.wf = true ∧ encode i ++ rest = bytes := by
  cases bytes with
  | nil => exact .inl rfl
  | cons b operands =>
    cases hrow : rowOf b with
    | none => exact .inr (.inl ⟨b, operands, decode_of_rowOf_none hrow operands, rfl, hrow⟩)
    | some row =>
      rw [decode_of_rowOf_some hrow]
      rcases decodeOperands_cases row.opcode (b.getLsbD 0) operands with h | ⟨i, rest, h, hwf, hbytes⟩
      · exact .inl h
      · rw [opcodeByte_of_rowOf hrow] at hbytes
        exact .inr (.inr ⟨i, rest, h, hwf, hbytes⟩)

theorem decode_eq_reserved_iff {bytes : List Byte} {b : Byte} {rest : List Byte} :
    decode bytes = .reserved b rest ↔ bytes = b :: rest ∧ rowOf b = none := by
  refine ⟨fun h => ?_, fun ⟨hbytes, hrow⟩ => hbytes ▸ decode_of_rowOf_none hrow rest⟩
  rcases decode_cases bytes with h' | ⟨_, _, h', hbytes, hrow⟩ | ⟨_, _, h', -⟩ <;> cases h.symm.trans h'
  exact ⟨hbytes, hrow⟩

/-- The field `len` holds the length of a well-formed string. -/
theorem length_mod_of_wf {c : Bool} {x y : Half} {font : Byte} {text : List Byte}
    (h : (Instr.drawString c x y font text).wf = true) : text.length % 256 = text.length :=
  Nat.mod_eq_of_lt (Nat.lt_succ_of_le (of_decide_eq_true h))

/-- Settles O1: the fields' bytes are read back as the fields, and a string of at most 255 characters as one of its own length. -/
theorem decodeOfEncode : Obligations.DecodeOfEncode := by
  intro i rest hwf
  cases i
  case drawString c x y font text =>
    simp [encode, decode, decodeOperands, length_mod_of_wf hwf]
  all_goals simp [encode, decode, decodeOperands]

/-- Settles O2, by what the decoder can answer. -/
theorem encodeOfDecode : Obligations.EncodeOfDecode := by
  intro bytes i rest h
  rcases decode_cases bytes with h' | ⟨_, _, h', -⟩ | ⟨_, _, h', hi⟩ <;> cases h.symm.trans h'
  exact hi

/-- The packet of a well-formed instruction stands for it. -/
theorem encodedAs_encode {i : Instr} (h : i.wf = true) : EncodedAs i (encode i) := fun rest => decodeOfEncode i rest h

/-- Bytes that come later change nothing of a command already read. -/
theorem decode_append_of_command {bytes rest : List Byte} {i : Instr} (h : decode bytes = .command i rest) (more : List Byte) :
    decode (bytes ++ more) = .command i (rest ++ more) := by
  obtain ⟨hwf, hbytes⟩ := encodeOfDecode bytes i rest h
  rw [← hbytes, List.append_assoc, decodeOfEncode i _ hwf]

/-- Settles O4: were the front a command or a reserved byte, so would the whole packet be, with bytes left over. -/
theorem cutPacketIsIncomplete : Obligations.CutPacketIsIncomplete := by
  intro i front back hwf hpacket hback
  have hwhole : decode (front ++ back) = .command i [] := by
    rw [← hpacket, ← List.append_nil (encode i)]
    exact decodeOfEncode i [] hwf
  rcases decode_cases front with h | ⟨b, rest, -, rfl, hrow⟩ | ⟨j, rest, h, -⟩
  · exact h
  · rw [List.cons_append, decode_of_rowOf_none hrow] at hwhole
    cases hwhole
  · rw [decode_append_of_command h] at hwhole
    injection hwhole with _ hrest
    exact absurd (List.append_eq_nil_iff.1 hrest).2 hback

/-- Settles O3: a reserved byte is one that selects no row. -/
theorem reservedBytesAreTheListedOnes : Obligations.ReservedBytesAreTheListedOnes := by
  intro b rest
  rw [decode_eq_reserved_iff, ← rowOf_eq_none_iff]
  exact and_iff_right rfl

/-- Settles O6: six packets of known bytes. -/
theorem samplePacketsDecode : Obligations.SamplePacketsDecode := by
  unfold Obligations.SamplePacketsDecode
  decide

end Sys2Proof
end

section
/-! ## Packet lengths (R66) -/

namespace Sys2Proof

theorem packetLength_of_rowOf_none {b : Byte} (h : rowOf b = none) (operands : List Byte) : packetLength (b :: operands) = 1 := by
  simp [packetLength, h]

theorem packetLength_of_rowOf_some {b : Byte} {row : OpcodeRow} (h : rowOf b = some row) (operands : List Byte) :
    packetLength (b :: operands) = row.format.length (b :: operands) := by
  simp [packetLength, h]

/-- Every format but STR has one length. -/
theorem length_of_ne_str {f : PacketFormat} (h : f ≠ .str) (packet packet' : List Byte) : f.length packet = f.length packet' := by
  cases f
  case str => exact absurd rfl h
  all_goals rfl

theorem packetLength_encode_append {i : Instr} (hwf : i.wf = true) (rest : List Byte) :
    packetLength (encode i ++ rest) = (encode i).length := by
  cases i
  case drawString c x y font text =>
    rw [encode, List.cons_append, packetLength_of_rowOf_some (rowOf_drawString c)]
    show 7 + text.length % 2 ^ 8 = text.length + 7
    rw [length_mod_of_wf hwf, Nat.add_comm]
  all_goals simp [encode, packetLength, PacketFormat.length]

/-- Settles O5: byte 0 selects the row, the row has the format, and only STR's length reads a further byte. -/
theorem packetLengthFromByteZero : Obligations.PacketLengthFromByteZero := by
  refine ⟨fun i rest hwf => packetLength_encode_append hwf rest, fun b as bs hb => ?_, fun b b1 b2 b3 b4 b5 len rest hb => ?_⟩
  · cases hrow : rowOf b with
    | none => rw [packetLength_of_rowOf_none hrow, packetLength_of_rowOf_none hrow]
    | some row =>
      obtain ⟨hmem, hpattern⟩ := byte_of_rowOf hrow
      have hformat : row.format ≠ .str := fun hstr => by
        obtain ⟨hmask, hp⟩ := str_row row hmem hstr
        exact hb (by rw [← hmask, hpattern, hp])
      rw [packetLength_of_rowOf_some hrow, packetLength_of_rowOf_some hrow]
      exact length_of_ne_str hformat ..
  · rw [packetLength_of_rowOf_some (rowOf_of_and_mask_eq hb)]
    rfl

end Sys2Proof
end

section
/-! ## An idle core and the bytes it sees (R60, R67, R69) -/

namespace Sys2Proof.Machine

open Sys2Proof.Safety

section
variable {s : State}

theorem step_idle (hw : s.cfg.wf = true) (hc : s.cur = .idle) : step s = fetchAndExecute s := by
  simp [step, hw, stepCore, hc]

theorem step_of_command (hw : s.cfg.wf = true) (hc : s.cur = .idle) {i : Instr} {rest : List Byte}
    (h : decode s.incoming = .command i rest) : step s = exec i (s.packetTaken rest) := by
  simp [step_idle hw hc, fetchAndExecute, h]

theorem step_of_reserved (hw : s.cfg.wf = true) (hc : s.cur = .idle) {b : Byte} {rest : List Byte}
    (h : decode s.incoming = .reserved b rest) : step s = .next (s.packetTaken rest) := by
  simp [step_idle hw hc, fetchAndExecute, h]

theorem step_of_incomplete (hw : s.cfg.wf = true) (hc : s.cur = .idle) (h : decode s.incoming = .incomplete) :
    step s = .next s.awaitPacket := by
  simp [step_idle hw hc, fetchAndExecute, h]

/-- Once taken, the bytes of a packet cut short are seen as they were at the port. -/
@[simp] theorem State.awaitPacket_incoming : s.awaitPacket.incoming = s.incoming := List.append_nil _

/-- What an idle core does with the bytes it sees does not depend on how many of them it has taken already. -/
theorem fetchAndExecute_awaitPacket_hostSend (s : State) (bytes : List Byte) :
    fetchAndExecute (s.awaitPacket.hostSend bytes) = fetchAndExecute (s.hostSend bytes) := by
  have hincoming : (s.awaitPacket.hostSend bytes).incoming = (s.hostSend bytes).incoming := List.append_assoc ..
  have hawait : (s.awaitPacket.hostSend bytes).awaitPacket = (s.hostSend bytes).awaitPacket := by
    rw [State.awaitPacket, hincoming]
    rfl
  unfold fetchAndExecute
  rw [hincoming, hawait]
  rfl

/-- Every command begins, whatever the state: none ends in a fault or a refusal. -/
theorem exec_isNext (i : Instr) (s : State) : ∃ t, exec i s = .next t := by
  cases h : drivesTransport i with
  | false => exact ⟨_, exec_eq_begin h s⟩
  | true =>
    cases i
    case init | flush => exact ⟨_, rfl⟩
    all_goals cases h

/-- A command that begins in an idle core is the one in CUR, or it had nothing to do and has changed nothing. -/
theorem exec_command_or_self {i : Instr} {t : State} (hc : s.cur = .idle) (h : exec i s = .next t) :
    t.cur.command = some i ∨ t = s := by
  rcases exec_cases h with ⟨-, rfl⟩ | ⟨-, rfl⟩ | ⟨rfl, -, rfl⟩ | ⟨rfl, -, rfl⟩
  · cases hw : firstRecord s.cfg i with
    | none => exact .inr rfl
    | some w => exact .inl (congrArg some (command_firstRecord hw))
  · exact .inr rfl
  · exact .inl rfl
  · rw [flushFrom_eq]
    split_ifs
    · exact .inl rfl
    · exact .inr (by rw [← hc])

end

/-- Settles O7: the step is the command's beginning, which never stops the machine. -/
theorem stepRunsDecodedCommand : Obligations.StepRunsDecodedCommand := by
  intro s i rest hw hc h
  have hstep := step_of_command hw hc h
  obtain ⟨t, ht⟩ := exec_isNext i (s.packetTaken rest)
  refine ⟨hstep, t, hstep.trans ht, (exec_command_or_self (s := s.packetTaken rest) hc ht).imp_left fun hi => ⟨hi, ?_⟩⟩
  exact (cmdReady_eq_false_iff t).2 ⟨i, hi⟩

/-- Settles O8. -/
theorem reservedByteIsConsumed : Obligations.ReservedByteIsConsumed := fun _ _ _ hw hc h => step_of_reserved hw hc h

/-- Settles O9: once the bytes are taken the core sees what it saw, so that its steps change nothing more. -/
theorem cutPacketWaitsForItsRest : Obligations.CutPacketWaitsForItsRest := by
  intro s hw hc h
  have hself : step s.awaitPacket = .next s.awaitPacket := by
    refine (step_of_incomplete (s := s.awaitPacket) hw hc (State.awaitPacket_incoming.symm ▸ h)).trans ?_
    rw [State.awaitPacket, State.awaitPacket_incoming]
    rfl
  refine ⟨s.awaitPacket, step_of_incomplete hw hc h, rfl, by simp [State.cmdReady, hc], run_of_step_self hself, fun bytes => ?_⟩
  rw [step_idle (s := s.awaitPacket.hostSend bytes) hw hc, step_idle (s := s.hostSend bytes) hw hc,
    fetchAndExecute_awaitPacket_hostSend]

end Sys2Proof.Machine
end

section
/-! ## Two packets at the port (R52, R60) -/

namespace Sys2Proof.Machine

open Sys2Proof.Safety

/-- An idle core with a whole packet at its port begins that packet's command, the bytes after it left at the port. -/
theorem step_of_packet {s : State} {i : Instr} {rest : List Byte} (hw : s.cfg.wf = true) (hc : s.cur = .idle) (hpkt : s.pkt = [])
    (hi : i.wf = true) (hport : s.cmdIn = encode i ++ rest) : step s = exec i { s with cmdIn := rest } := by
  have hd : decode s.incoming = .command i rest := by
    rw [State.incoming, hpkt, hport, List.nil_append]
    exact decodeOfEncode i rest hi
  rw [step_of_command hw hc hd, State.packetTaken, ← hpkt]

theorem run_one (s : State) : core.run 1 s = step s := by
  have hstep : core.step s = step s := rfl
  simp only [Host.Core.run]
  rw [hstep]
  cases step s <;> rfl

/-- A run that answers a state answers one after each of its steps. -/
theorem run_isNext_of_le {m n : Nat} {s t : State} (hmn : m ≤ n) (h : core.run n s = .next t) : ∃ v, core.run m s = .next v := by
  induction m generalizing n s with
  | zero => exact ⟨s, rfl⟩
  | succ m ih =>
    obtain ⟨n, rfl⟩ := Nat.exists_eq_add_of_le' (Nat.one_le_of_lt hmn)
    obtain ⟨v, hv, hn⟩ := run_succ_iff.1 h
    rw [run_succ hv]
    exact ih (Nat.le_of_succ_le_succ hmn) hn

/-- A run to the first idle state completes the command in progress. -/
theorem completes_of_run {n : Nat} {t u : State} (hn : core.run n t = .next u) (hu : u.cur = .idle)
    (hbusy : ∀ m < n, ∀ v, core.run m t = .next v → v.cur ≠ .idle) : Completes t u := by
  refine ⟨by simp [State.cmdReady, hu], n, hn, fun m hm => ?_⟩
  obtain ⟨v, hv⟩ := run_isNext_of_le hm.le hn
  exact ⟨v, hv, by simpa [State.cmdReady] using hbusy m hm v hv⟩

/-- Settles O12: the first command leaves the port and the configuration as they are until it is complete, and an idle core then takes
the second packet. -/
theorem commandsRunInArrivalOrder : Obligations.CommandsRunInArrivalOrder := by
  intro s t u i j rest n hw hc hpkt hi hj hport hexec hrun hu hbusy
  have hfirst : step s = .next t :=
    (step_of_packet hw hc hpkt hi (hport.trans (List.append_assoc ..))).trans hexec
  have hkept : TouchesOnly i { s with cmdIn := encode j ++ rest } u := .of_completes hc hexec (completes_of_run hrun hu hbusy)
  have hpkt' : u.pkt = [] := hkept.pkt_kept.trans hpkt
  have hsecond : step u = exec j { u with cmdIn := rest } :=
    step_of_packet (hkept.cfg_kept ▸ hw) hu hpkt' hj hkept.cmdIn_kept
  exact ⟨hkept.cmdIn_kept, hpkt', (run_succ hfirst _).trans ((run_add hrun 1).trans ((run_one u).trans hsecond))⟩

end Sys2Proof.Machine
end

/-! # Proofs: the framebuffer commands (spec/40_framebuffer_ops.md)

CLEAR, SET_PIXEL and GET_BYTE, each from its packet to the state in which it is complete: the record with which it begins, its passes, and
what they leave in FB or RSP. -/

section
/-! ## Packets with their 16-bit fields written as bytes (R63) -/

namespace Sys2Proof

open Sys2Proof.Safety

theorem encodedAs_clear : EncodedAs .clear [0x10#8] := encodedAs_encode (i := .clear) rfl

theorem encodedAs_setPixel (c : Bool) (x0 x1 y0 y1 : Byte) :
    EncodedAs (.setPixel c (halfOf x0 x1) (halfOf y0 y1)) [0x12#8 ||| colourBit c, x0, x1, y0, y1] := by
  have h := encodedAs_encode (i := .setPixel c (halfOf x0 x1) (halfOf y0 y1)) rfl
  simpa only [encode, loByte_halfOf, hiByte_halfOf] using h

theorem encodedAs_getByte (p q0 q1 : Byte) : EncodedAs (.getByte p (halfOf q0 q1)) [0x14#8, p, q0, q1] := by
  have h := encodedAs_encode (i := .getByte p (halfOf q0 q1)) rfl
  simpa only [encode, loByte_halfOf, hiByte_halfOf] using h

end Sys2Proof
end

section
/-! ## The commands -/

namespace Sys2Proof.Machine

open Sys2Proof.Safety

/-- A command that has a first record begins with CUR holding it (spec/10_state.md R29). -/
theorem command_of_exec {i : Instr} {s u : State} {w : Work} (hd : drivesTransport i = false) (hr : firstRecord s.cfg i = some w)
    (hu : exec i s = .next u) : u.cur.command = some i := by
  rw [exec_eq_begin hd, hr] at hu
  cases hu
  exact congrArg some (command_firstRecord hr)

/-- Settles O13: after the last byte the store lists nothing and every byte reads 0x00. -/
theorem clearZeroesEveryByte : Obligations.ClearZeroesEveryByte := by
  refine ⟨encodedAs_clear, fun s hw hi => ?_⟩
  obtain ⟨u, hu, hc⟩ := clear_completes hw hi
  exact ⟨u, s.fb.clear, hu, command_of_exec rfl rfl hu, hc, Framebuffer.read_clear s.fb, Framebuffer.wf_clear s.fb⟩

/-- SET_PIXEL begins and completes in one pass: SetPixel is called once and nothing else has changed (R92). -/
theorem setPixel_completes {s : State} (hw : s.cfg.wf = true) (hi : s.cur = .idle) (c : Bool) (x y : Half) :
    ∃ u, exec (.setPixel c x y) s = .next u ∧ u.cur.command = some (.setPixel c x y) ∧
      Completes u { s with fb := s.fb.setPixel s.cfg c (signedOperand x, signedOperand y) } := by
  obtain ⟨u, hu, hc⟩ := drawing_completes (i := .setPixel c x y) rfl hw hi
  exact ⟨u, hu, command_of_exec rfl rfl hu, hc⟩

/-- SetPixel paints its one point, if it is in bounds (R91). -/
theorem painted_setPixel {m : Framebuffer} (h : m.wf = true) (cfg : Config) (c : Bool) (p : Point) :
    PaintedExactly cfg c m (m.setPixel cfg c p) (fun q => q = p) :=
  painted_plot (ps := [p]) h fun _ _ => List.mem_singleton

/-- Settles O14. -/
theorem setPixelWritesOneBit : Obligations.SetPixelWritesOneBit := by
  refine ⟨encodedAs_setPixel, fun c x y s hw hfb hi => ?_⟩
  obtain ⟨u, hu, hcur, hc⟩ := setPixel_completes hw hi c x y
  exact ⟨u, _, hu, hcur, hc, fun _ => painted_setPixel hfb s.cfg c _, setPixel_out⟩

/-- GET_BYTE out of range answers 0x00 (R94, log 11). -/
theorem getByteResponse_of_not_lt {s : State} {p q : Nat} (h : ¬ (p < s.cfg.pages ∧ q < s.cfg.width)) :
    getByteResponse s p q = 0x00 := if_neg h

/-- Settles O15: in both cases one pass appends the response byte. -/
theorem getByteAppendsTheByte : Obligations.GetByteAppendsTheByte := by
  refine ⟨encodedAs_getByte, fun p q s hw hi => ?_⟩
  obtain ⟨u, hu, hc⟩ := getByte_completes hw hi p q
  refine ⟨u, hu, command_of_exec rfl rfl hu, fun ⟨hp, hq⟩ => ?_, fun hout => ?_⟩
  · have hb : getByteResponse s (byteOperand p) (unsignedOperand q) = s.fb.read (p.toNat * s.cfg.width + q.toNat) :=
      getByteResponse_of_lt hp hq
    rwa [hb] at hc
  · have hb : getByteResponse s (byteOperand p) (unsignedOperand q) = 0x00 := getByteResponse_of_not_lt hout
    rwa [hb] at hc

/-- Settles O16, from O14: the state in which SET_PIXEL is complete is the only one, and the bit that GetByte(y div 8, x) shows at y mod 8 is
the pixel of (x, y). -/
theorem setPixelThenGetByteShowsTheBit : Obligations.SetPixelThenGetByteShowsTheBit := by
  intro c x y s u t hw hfb hi hu ht
  obtain ⟨u', m, hu', -, hm, hin, hout⟩ := setPixelWritesOneBit.2 c x y s hw hfb hi
  cases hu'.symm.trans hu
  cases hm.unique ht
  refine ⟨fun hb => ?_, hout⟩
  obtain ⟨hpainted, hkept, -, -, -, -⟩ := hin hb
  have hshown : IsPixelOf s.cfg (fun p => p = (signedOperand x, signedOperand y))
      (pixelIndex s.cfg (signedOperand x, signedOperand y)) (pixelBit (signedOperand x, signedOperand y)) := ⟨_, rfl, hb, rfl, rfl⟩
  refine ⟨hpainted _ _ (Nat.mod_lt _ (by decide)) hshown, fun i k hk hne => hkept i k hk ?_⟩
  rintro ⟨_, rfl, -, rfl, rfl⟩
  exact hne ⟨rfl, rfl⟩

end Sys2Proof.Machine
end

/-! # Proofs: lines (spec/41_line.md)

The loop of R100 in closed form: after k steps along the longer axis it stands at the nearest row of the ideal line. Every statement about
the points of a line is read off that form, for the longer axis x; the loop treats x and y alike, so that the other lines are its mirror
images. -/

section
/-! ## The nearest pixel to the ideal line (R100, R104) -/

namespace Sys2Proof.Machine

/-- The offset along the shorter axis, of length `b`, after `k` steps along the longer one, of length `a`: the integer nearest to
b k / a, the smaller of two equally near. -/
def nearestOffset (a b k : Int) : Int := (2 * b * k + a - 1) / (2 * a)

theorem nearestOffset_eq_iff {a : Int} (ha : 0 < a) {b k m : Int} :
    nearestOffset a b k = m ↔ a * (2 * m - 1) < 2 * b * k ∧ 2 * b * k ≤ a * (2 * m + 1) := by
  have hlow : a * (2 * m - 1) = m * (2 * a) - a := by ring
  have hhigh : a * (2 * m + 1) = m * (2 * a) + a := by ring
  rw [nearestOffset, Int.ediv_eq_iff_of_pos (by omega), hlow, hhigh]
  omega

theorem nearestOffset_bounds {a : Int} (ha : 0 < a) (b k : Int) :
    a * (2 * nearestOffset a b k - 1) < 2 * b * k ∧ 2 * b * k ≤ a * (2 * nearestOffset a b k + 1) :=
  (nearestOffset_eq_iff ha).1 rfl

/-- A line along its longer axis has no offset, and no line has one at its first point. -/
theorem nearestOffset_eq_zero {a b k : Int} (ha : 0 ≤ a) (h : b * k = 0) : nearestOffset a b k = 0 := by
  rcases ha.eq_or_lt with rfl | ha
  · simp [nearestOffset]
  · have hbk : 2 * b * k = 0 := by rw [mul_assoc, h, mul_zero]
    rw [nearestOffset_eq_iff ha, hbk]
    omega

/-- At the last point of a line the offset is the whole length of the shorter axis. -/
theorem nearestOffset_self_right {a b : Int} (hb : 0 ≤ b) (hba : b ≤ a) : nearestOffset a b a = b := by
  rcases (hb.trans hba).eq_or_lt with rfl | ha
  · exact (nearestOffset_eq_zero le_rfl (mul_zero b)).trans (le_antisymm hb hba)
  · have h : 2 * b * a = a * (2 * b) := by ring
    rw [nearestOffset_eq_iff ha, h, mul_sub, mul_add]
    omega

/-- An exact diagonal has no ties. -/
theorem nearestOffset_diagonal {a : Int} (ha : 0 < a) (k : Int) : nearestOffset a a k = k := by
  have h : 2 * a * k = a * (2 * k) := by ring
  rw [nearestOffset_eq_iff ha, h, mul_sub, mul_add]
  omega

/-- The offset grows, by 1, exactly where the ideal line has passed the half way to the next row. -/
theorem nearestOffset_succ {a b : Int} (ha : 0 < a) (hb : 0 ≤ b) (hba : b ≤ a) (k : Int) :
    nearestOffset a b (k + 1) =
      if a * (2 * nearestOffset a b k + 1) < 2 * b * (k + 1) then nearestOffset a b k + 1 else nearestOffset a b k := by
  obtain ⟨hlow, hhigh⟩ := nearestOffset_bounds ha b k
  have hk : 2 * b * (k + 1) = 2 * b * k + 2 * b := by ring
  have hrow (m : Int) : a * (2 * m + 1) = a * (2 * m - 1) + 2 * a := by ring
  have hnext (m : Int) : a * (2 * (m + 1) - 1) = a * (2 * m + 1) := by ring
  rw [nearestOffset_eq_iff ha, hk]
  rw [hrow] at hhigh
  split_ifs with hc <;> rw [hrow] at hc ⊢
  · rw [hnext, hrow]
    omega
  · omega

/-- The test that moves the loop along the longer axis never fails: on an exact diagonal there is no tie. -/
theorem twice_error_gt {a b : Int} (ha : 0 < a) (hba : b ≤ a) (k : Int) :
    -b < 2 * (a * (1 + nearestOffset a b k) - b * (1 + k)) := by
  rcases hba.eq_or_lt with rfl | hlt
  · rw [nearestOffset_diagonal ha]
    omega
  · obtain ⟨-, hhigh⟩ := nearestOffset_bounds ha b k
    rw [mul_assoc] at hhigh
    simp only [mul_add, mul_left_comm a 2] at hhigh ⊢
    omega

end Sys2Proof.Machine
end

section
/-! ## The loop in closed form -/

namespace Sys2Proof.Machine

/-- The direction of R100 along an axis. -/
def lineSign (a b : Int) : Int := if a < b then 1 else -1

theorem lineSign_ne_zero (a b : Int) : ¬ lineSign a b = 0 := by unfold lineSign; split_ifs <;> decide

theorem lineSign_natAbs (a b : Int) : (lineSign a b).natAbs = 1 := by unfold lineSign; split_ifs <;> rfl

theorem lineSign_mul_natAbs (a b : Int) : lineSign a b * ((b - a).natAbs : Int) = b - a := by
  unfold lineSign; split_ifs <;> omega

/-- The longer axis of the line is x, and `dx` columns lead to its end. -/
structure LineLocals.Wide (l : LineLocals) : Prop where
  dy_nonneg : 0 ≤ l.dy
  dy_le_dx : l.dy ≤ l.dx
  sx_ne_zero : ¬ l.sx = 0
  end_eq : l.x0 + l.sx * l.dx = l.x1

theorem wide_lineFrom {x0 y0 x1 y1 : Int} (h : (y1 - y0).natAbs ≤ (x1 - x0).natAbs) : (lineFrom x0 y0 x1 y1).Wide where
  dy_nonneg := Int.natCast_nonneg _
  dy_le_dx := Int.ofNat_le.2 h
  sx_ne_zero := lineSign_ne_zero x0 x1
  end_eq := (congrArg (x0 + ·) (lineSign_mul_natAbs x0 x1)).trans (add_sub_cancel x0 x1)

/-- Exchanging the axes of the endpoints exchanges those of the locals. -/
theorem transpose_lineFrom (x0 y0 x1 y1 : Int) : (lineFrom x0 y0 x1 y1).transpose = lineFrom y0 x0 y1 x1 := by
  simp only [lineFrom, LineLocals.transpose, neg_sub]

theorem LineLocals.points_transpose (n : Nat) (l : LineLocals) : l.transpose.points n = (l.points n).map Prod.swap := by
  induction n generalizing l with
  | zero => rfl
  | succ n ih =>
    simp only [LineLocals.points, LineLocals.next_transpose, List.map_cons]
    cases l.next with
    | none => rfl
    | some l' => exact congrArg _ (ih l')

/-- The locals of a wide line `k` passes after those it begins with. -/
def LineLocals.after (l : LineLocals) (k : Int) : LineLocals :=
  { l with
    x0 := l.x0 + l.sx * k
    y0 := l.y0 + l.sy * nearestOffset l.dx l.dy k
    err := l.dx * (1 + nearestOffset l.dx l.dy k) - l.dy * (1 + k) }

theorem after_zero_lineFrom (x0 y0 x1 y1 : Int) : (lineFrom x0 y0 x1 y1).after 0 = lineFrom x0 y0 x1 y1 := by
  have h : nearestOffset (lineFrom x0 y0 x1 y1).dx (lineFrom x0 y0 x1 y1).dy 0 = 0 :=
    nearestOffset_eq_zero (Int.natCast_nonneg _) (mul_zero _)
  simp only [LineLocals.after, h, mul_zero, add_zero, mul_one]
  rfl

/-- A pass that is not the last moves along the longer axis, and along the shorter one where its test says so. -/
theorem LineLocals.next_of_moves {l : LineLocals} (hx : ¬ l.x0 = l.x1) (hmove : -l.dy < 2 * l.err) :
    l.next = some (if 2 * l.err < l.dx then { l with x0 := l.x0 + l.sx, y0 := l.y0 + l.sy, err := l.err - l.dy + l.dx }
      else { l with x0 := l.x0 + l.sx, err := l.err - l.dy }) := by
  simp only [LineLocals.next, hx, false_and, if_false, gt_iff_lt, hmove, if_true]
  split_ifs <;> rfl

theorem LineLocals.Wide.next_after {l : LineLocals} (h : l.Wide) {k : Int} (hk0 : 0 ≤ k) (hk : k < l.dx) :
    (l.after k).next = some (l.after (k + 1)) := by
  obtain ⟨hb, hba, hsx, hend⟩ := h
  have ha : 0 < l.dx := hk0.trans_lt hk
  have hx : ¬ (l.after k).x0 = (l.after k).x1 := fun e =>
    hk.ne (mul_left_cancel₀ hsx (add_left_cancel (e.trans hend.symm)))
  have htest : 2 * (l.after k).err < l.dx ↔ l.dx * (2 * nearestOffset l.dx l.dy k + 1) < 2 * l.dy * (k + 1) := by
    simp only [LineLocals.after]
    constructor <;> intro h <;> linarith
  rw [LineLocals.next_of_moves hx (twice_error_gt ha hba k)]
  simp only [LineLocals.after] at htest ⊢
  simp only [htest, nearestOffset_succ ha hb hba]
  split_ifs <;> simp only [Option.some.injEq, LineLocals.mk.injEq, true_and]
  · exact ⟨by ring, by ring, by ring⟩
  · exact ⟨by ring, by ring⟩

/-- The points of the passes from pass `k` on. -/
theorem LineLocals.Wide.points_after {l : LineLocals} (h : l.Wide) (n k : Nat) (hn : (n + k : Nat) ≤ l.dx) :
    (l.after k).points (n + 1) = (List.range' k (n + 1)).map fun i : Nat => (l.after i).point := by
  induction n generalizing k with
  | zero =>
    simp only [LineLocals.points]
    cases (l.after k).next <;> rfl
  | succ n ih =>
    have hnext : (l.after k).next = some (l.after (k + 1 : Nat)) := h.next_after (Int.natCast_nonneg k) (by omega)
    rw [LineLocals.points, hnext, List.range'_succ, List.map_cons]
    exact congrArg _ (ih (k + 1) (by omega))

/-- Point `k` of a line whose longer axis is x. -/
def linePoint (x0 y0 x1 y1 : Int) (k : Nat) : Point :=
  (x0 + lineSign x0 x1 * k, y0 + lineSign y0 y1 * nearestOffset (x1 - x0).natAbs (y1 - y0).natAbs k)

theorem points_lineFrom_wide {x0 y0 x1 y1 : Int} (h : (y1 - y0).natAbs ≤ (x1 - x0).natAbs) :
    (lineFrom x0 y0 x1 y1).points (max (x1 - x0).natAbs (y1 - y0).natAbs + 1) =
      (List.range ((x1 - x0).natAbs + 1)).map (linePoint x0 y0 x1 y1) := by
  have hpoints := (wide_lineFrom h).points_after (x1 - x0).natAbs 0 le_rfl
  rw [max_eq_left h, List.range_eq_range']
  exact (congrArg (LineLocals.points _) (after_zero_lineFrom ..).symm).trans hpoints

/-- A line whose longer axis is y is the mirror image of one whose longer axis is x. -/
theorem points_lineFrom_swap (x0 y0 x1 y1 : Int) (n : Nat) :
    (lineFrom x0 y0 x1 y1).points n = ((lineFrom y0 x0 y1 x1).points n).map Prod.swap := by
  rw [← transpose_lineFrom y0, LineLocals.points_transpose]

end Sys2Proof.Machine
end

section
/-! ## The order of the endpoints (R100 step 1, R103) -/

namespace Sys2Proof.Machine

theorem endpointsSwapped_eq_false_iff {x0 y0 x1 y1 : Int} :
    endpointsSwapped x0 y0 x1 y1 = false ↔ x0 < x1 ∨ x0 = x1 ∧ y0 ≤ y1 := by
  simp only [endpointsSwapped, Bool.or_eq_false_iff, Bool.and_eq_false_iff, decide_eq_false_iff_not]
  omega

theorem endpointsSwapped_eq_true_iff {x0 y0 x1 y1 : Int} :
    endpointsSwapped x0 y0 x1 y1 = true ↔ x1 < x0 ∨ x1 = x0 ∧ y1 < y0 := by
  simp only [endpointsSwapped, Bool.or_eq_true, Bool.and_eq_true, decide_eq_true_eq]
  omega

/-- Endpoints that step 1 swaps are in canonical order once swapped. -/
theorem endpointsSwapped_comm {x0 y0 x1 y1 : Int} (h : endpointsSwapped x0 y0 x1 y1 = true) :
    endpointsSwapped x1 y1 x0 y0 = false := by
  rw [endpointsSwapped_eq_true_iff] at h
  rw [endpointsSwapped_eq_false_iff]
  omega

theorem lineStart_of_canonical {x0 y0 x1 y1 : Int} (h : endpointsSwapped x0 y0 x1 y1 = false) :
    lineStart x0 y0 x1 y1 = lineFrom x0 y0 x1 y1 := by rw [lineStart, h]; rfl

theorem lineStart_of_swapped {x0 y0 x1 y1 : Int} (h : endpointsSwapped x0 y0 x1 y1 = true) :
    lineStart x0 y0 x1 y1 = lineFrom x1 y1 x0 y0 := by rw [lineStart, h]; rfl

theorem lineStart_comm (x0 y0 x1 y1 : Int) : lineStart x0 y0 x1 y1 = lineStart x1 y1 x0 y0 := by
  cases h : endpointsSwapped x0 y0 x1 y1 with
  | true => rw [lineStart_of_swapped h, lineStart_of_canonical (endpointsSwapped_comm h)]
  | false =>
    cases h' : endpointsSwapped x1 y1 x0 y0 with
    | true => rw [lineStart_of_canonical h, lineStart_of_swapped h']
    | false =>
      rw [endpointsSwapped_eq_false_iff] at h h'
      obtain ⟨rfl, rfl⟩ : x0 = x1 ∧ y0 = y1 := by omega
      rfl

theorem linePoints_comm (x0 y0 x1 y1 : Int) : linePoints x0 y0 x1 y1 = linePoints x1 y1 x0 y0 := by
  rw [linePoints, linePoints, lineStart_comm, ← Int.natAbs_neg (x0 - x1), ← Int.natAbs_neg (y0 - y1), neg_sub, neg_sub]

theorem linePoints_of_canonical {x0 y0 x1 y1 : Int} (h : endpointsSwapped x0 y0 x1 y1 = false) :
    linePoints x0 y0 x1 y1 = (lineFrom x0 y0 x1 y1).points (max (x1 - x0).natAbs (y1 - y0).natAbs + 1) := by
  rw [linePoints, lineStart_of_canonical h]

/-- A property that does not depend on the order of the endpoints need only be shown for endpoints in canonical order. -/
theorem canonical_induction {P : Int → Int → Int → Int → Prop} (hcomm : ∀ x0 y0 x1 y1, P x1 y1 x0 y0 → P x0 y0 x1 y1)
    (h : ∀ x0 y0 x1 y1, endpointsSwapped x0 y0 x1 y1 = false → P x0 y0 x1 y1) (x0 y0 x1 y1 : Int) : P x0 y0 x1 y1 := by
  cases hs : endpointsSwapped x0 y0 x1 y1 with
  | true => exact hcomm _ _ _ _ (h _ _ _ _ (endpointsSwapped_comm hs))
  | false => exact h _ _ _ _ hs

/-- The points of a line whose longer axis is x, from the canonical first endpoint on. -/
theorem linePoints_wide {x0 y0 x1 y1 : Int} (h : endpointsSwapped x0 y0 x1 y1 = false) (hd : (y1 - y0).natAbs ≤ (x1 - x0).natAbs) :
    linePoints x0 y0 x1 y1 = (List.range ((x1 - x0).natAbs + 1)).map (linePoint x0 y0 x1 y1) := by
  rw [linePoints_of_canonical h, points_lineFrom_wide hd]

/-- The points of a line whose longer axis is y. -/
theorem linePoints_tall {x0 y0 x1 y1 : Int} (h : endpointsSwapped x0 y0 x1 y1 = false) (hd : (x1 - x0).natAbs ≤ (y1 - y0).natAbs) :
    linePoints x0 y0 x1 y1 = (List.range ((y1 - y0).natAbs + 1)).map fun k => (linePoint y0 x0 y1 x1 k).swap := by
  rw [linePoints_of_canonical h, points_lineFrom_swap, max_comm, points_lineFrom_wide hd, List.map_map]
  rfl

end Sys2Proof.Machine
end

section
/-! ## Count, ends and steps of a line (R102) -/

namespace Sys2Proof.Machine

theorem linePoint_zero (x0 y0 x1 y1 : Int) : linePoint x0 y0 x1 y1 0 = (x0, y0) := by
  have h := nearestOffset_eq_zero (a := (x1 - x0).natAbs) (Int.natCast_nonneg _) (mul_zero ((y1 - y0).natAbs : Int))
  rw [linePoint, Nat.cast_zero, h, mul_zero, mul_zero, add_zero, add_zero]

theorem linePoint_last {x0 y0 x1 y1 : Int} (hd : (y1 - y0).natAbs ≤ (x1 - x0).natAbs) :
    linePoint x0 y0 x1 y1 (x1 - x0).natAbs = (x1, y1) := by
  rw [linePoint, nearestOffset_self_right (Int.natCast_nonneg _) (Int.ofNat_le.2 hd), lineSign_mul_natAbs, lineSign_mul_natAbs,
    add_sub_cancel, add_sub_cancel]

theorem linePoint_injective (x0 y0 x1 y1 : Int) : Function.Injective (linePoint x0 y0 x1 y1) := by
  intro i j h
  have hx := congrArg Prod.fst h
  exact Int.ofNat_inj.1 (mul_left_cancel₀ (lineSign_ne_zero x0 x1) (add_left_cancel hx))

/-- A pass from `p` to `q` on the line: by at most 1 along each axis, and by exactly 1 along the longer one. -/
structure LineStep (x0 y0 x1 y1 : Int) (p q : Point) : Prop where
  near_x : (q.1 - p.1).natAbs ≤ 1
  near_y : (q.2 - p.2).natAbs ≤ 1
  along_x : (y1 - y0).natAbs ≤ (x1 - x0).natAbs → ¬ x0 = x1 ∧ q.1 - p.1 = lineSign x0 x1
  along_y : (x1 - x0).natAbs ≤ (y1 - y0).natAbs → ¬ y0 = y1 ∧ q.2 - p.2 = lineSign y0 y1

theorem LineStep.swap {x0 y0 x1 y1 : Int} {p q : Point} (h : LineStep x0 y0 x1 y1 p q) : LineStep y0 x0 y1 x1 p.swap q.swap :=
  ⟨h.near_y, h.near_x, h.along_y, h.along_x⟩

/-- The offset moves by at most a row, and by one on an exact diagonal. -/
theorem nearestOffset_step {a b : Int} (ha : 0 < a) (hb : 0 ≤ b) (hba : b ≤ a) (k : Int) :
    ∃ e : Int, nearestOffset a b (k + 1) = nearestOffset a b k + e ∧ e.natAbs ≤ 1 ∧ (a ≤ b → e = 1) := by
  rcases hba.eq_or_lt with rfl | hlt
  · exact ⟨1, by rw [nearestOffset_diagonal ha, nearestOffset_diagonal ha], le_rfl, fun _ => rfl⟩
  · rw [nearestOffset_succ ha hb hba]
    split_ifs
    · exact ⟨1, rfl, le_rfl, fun h => absurd h hlt.not_ge⟩
    · exact ⟨0, (add_zero _).symm, Nat.zero_le 1, fun h => absurd h hlt.not_ge⟩

theorem lineStep_linePoint {x0 y0 x1 y1 : Int} (hd : (y1 - y0).natAbs ≤ (x1 - x0).natAbs) {k : Nat} (hk : k < (x1 - x0).natAbs) :
    LineStep x0 y0 x1 y1 (linePoint x0 y0 x1 y1 k) (linePoint x0 y0 x1 y1 (k + 1)) := by
  obtain ⟨e, he, hnear, hdiag⟩ := nearestOffset_step (a := (x1 - x0).natAbs) (b := (y1 - y0).natAbs) (by omega) (Int.natCast_nonneg _)
    (Int.ofNat_le.2 hd) k
  have hx : (linePoint x0 y0 x1 y1 (k + 1)).1 - (linePoint x0 y0 x1 y1 k).1 = lineSign x0 x1 := by
    simp only [linePoint, Nat.cast_add, Nat.cast_one]
    ring
  have hy : (linePoint x0 y0 x1 y1 (k + 1)).2 - (linePoint x0 y0 x1 y1 k).2 = lineSign y0 y1 * e := by
    simp only [linePoint, Nat.cast_add, Nat.cast_one, he]
    ring
  refine ⟨?_, ?_, fun _ => ⟨by omega, hx⟩, fun h => ⟨by omega, ?_⟩⟩
  · rw [hx, lineSign_natAbs]
  · rw [hy, Int.natAbs_mul, lineSign_natAbs, one_mul]
    exact hnear
  · rw [hy, hdiag (Int.ofNat_le.2 h), mul_one]

/-- A list of points that spans the line from (x0, y0) to (x1, y1), as R102 says. -/
structure SpansLine (x0 y0 x1 y1 : Int) (ps : List Point) : Prop where
  length_eq : ps.length = max (x1 - x0).natAbs (y1 - y0).natAbs + 1
  nodup : ps.Nodup
  head_eq : ps.head? = some (x0, y0)
  last_eq : ps.getLast? = some (x1, y1)
  steps : ps.IsChain (LineStep x0 y0 x1 y1)

theorem SpansLine.swap {x0 y0 x1 y1 : Int} {ps : List Point} (h : SpansLine x0 y0 x1 y1 ps) :
    SpansLine y0 x0 y1 x1 (ps.map Prod.swap) where
  length_eq := by rw [List.length_map, h.length_eq, max_comm]
  nodup := h.nodup.map Prod.swap_injective
  head_eq := by rw [List.head?_map, h.head_eq]; rfl
  last_eq := by rw [List.getLast?_map, h.last_eq]; rfl
  steps := (List.isChain_map _).2 (h.steps.imp fun _ _ => LineStep.swap)

theorem spansLine_wide {x0 y0 x1 y1 : Int} (hd : (y1 - y0).natAbs ≤ (x1 - x0).natAbs) :
    SpansLine x0 y0 x1 y1 ((List.range ((x1 - x0).natAbs + 1)).map (linePoint x0 y0 x1 y1)) where
  length_eq := by rw [List.length_map, List.length_range, max_eq_left hd]
  nodup := List.nodup_range.map (linePoint_injective ..)
  head_eq := by rw [List.head?_map, List.head?_range, if_neg (Nat.succ_ne_zero _), Option.map_some, linePoint_zero]
  last_eq := by
    rw [List.getLast?_map, List.getLast?_range, if_neg (Nat.succ_ne_zero _), Option.map_some, Nat.add_sub_cancel, linePoint_last hd]
  steps := (List.isChain_map _).2 ((List.isChain_range_succ _ _).2 fun _ hk => lineStep_linePoint hd hk)

theorem spansLine_linePoints {x0 y0 x1 y1 : Int} (h : endpointsSwapped x0 y0 x1 y1 = false) :
    SpansLine x0 y0 x1 y1 (linePoints x0 y0 x1 y1) := by
  rcases le_total (y1 - y0).natAbs (x1 - x0).natAbs with hd | hd
  · rw [linePoints_wide h hd]
    exact spansLine_wide hd
  · have hspan := (spansLine_wide hd).swap
    rw [List.map_map] at hspan
    rw [linePoints_tall h hd]
    exact hspan

/-- From the canonical first endpoint on, a pass goes one column to the right or stays in its column. -/
theorem LineStep.of_canonical {x0 y0 x1 y1 : Int} (h : endpointsSwapped x0 y0 x1 y1 = false) {p q : Point}
    (hs : LineStep x0 y0 x1 y1 p q) : (q.1 - p.1).natAbs ≤ 1 ∧ (q.2 - p.2).natAbs ≤ 1 ∧
      ((y1 - y0).natAbs ≤ (x1 - x0).natAbs → q.1 - p.1 = 1) ∧ ((x1 - x0).natAbs ≤ (y1 - y0).natAbs → (q.2 - p.2).natAbs = 1) := by
  rw [endpointsSwapped_eq_false_iff] at h
  refine ⟨hs.near_x, hs.near_y, fun hd => ?_, fun hd => ?_⟩
  · obtain ⟨hne, hx⟩ := hs.along_x hd
    rw [hx, lineSign, if_pos (by omega)]
  · rw [(hs.along_y hd).2, lineSign_natAbs]

/-- Endpoints in canonical order: the offset is to the right, if there is one. -/
theorem lineSign_mul_nearestOffset {x0 x1 : Int} (h : x0 ≤ x1) {a : Int} (ha : 0 ≤ a) (k : Int) :
    lineSign x0 x1 * nearestOffset a (x1 - x0).natAbs k = nearestOffset a (x1 - x0).natAbs k := by
  rcases h.eq_or_lt with rfl | hlt
  · rw [sub_self, Int.natAbs_zero, Nat.cast_zero, nearestOffset_eq_zero ha (zero_mul k), mul_zero]
  · rw [lineSign, if_pos hlt, one_mul]

/-- Point `k` of a line whose longer axis is x is the nearest to the ideal line in its column. -/
theorem linePoints_getElem_wide {x0 y0 x1 y1 : Int} (hx : x0 < x1) (hd : (y1 - y0).natAbs ≤ (x1 - x0).natAbs) {k : Nat}
    (hk : k ≤ (x1 - x0).natAbs) : ∃ m : Int, (linePoints x0 y0 x1 y1)[k]? = some (x0 + k, y0 + lineSign y0 y1 * m) ∧
      ((x1 - x0).natAbs : Int) * (2 * m - 1) < 2 * (y1 - y0).natAbs * k ∧
      2 * ((y1 - y0).natAbs : Int) * k ≤ (x1 - x0).natAbs * (2 * m + 1) := by
  refine ⟨nearestOffset (x1 - x0).natAbs (y1 - y0).natAbs k, ?_, nearestOffset_bounds (by omega) _ _⟩
  rw [linePoints_wide (endpointsSwapped_eq_false_iff.2 (.inl hx)) hd, List.getElem?_map, List.getElem?_range (Nat.lt_succ_of_le hk),
    Option.map_some, linePoint, lineSign, if_pos hx, one_mul]

/-- Point `k` of a line whose longer axis is y is the nearest to the ideal line in its row. -/
theorem linePoints_getElem_tall {x0 y0 x1 y1 : Int} (hs : endpointsSwapped x0 y0 x1 y1 = false)
    (hd : (x1 - x0).natAbs < (y1 - y0).natAbs) {k : Nat} (hk : k ≤ (y1 - y0).natAbs) :
    ∃ m : Int, (linePoints x0 y0 x1 y1)[k]? = some (x0 + m, y0 + lineSign y0 y1 * k) ∧
      ((y1 - y0).natAbs : Int) * (2 * m - 1) < 2 * (x1 - x0).natAbs * k ∧
      2 * ((x1 - x0).natAbs : Int) * k ≤ (y1 - y0).natAbs * (2 * m + 1) := by
  have hx : x0 ≤ x1 := by rw [endpointsSwapped_eq_false_iff] at hs; omega
  refine ⟨nearestOffset (y1 - y0).natAbs (x1 - x0).natAbs k, ?_, nearestOffset_bounds (by omega) _ _⟩
  rw [linePoints_tall hs hd.le, List.getElem?_map, List.getElem?_range (Nat.lt_succ_of_le hk), Option.map_some, linePoint,
    lineSign_mul_nearestOffset hx (Int.natCast_nonneg _), Prod.swap_prod_mk]

/-- Settles O21: the count, the ends and the steps are those of the line in canonical order, and the nearest pixel, which is stated for
that order only, is the closed form. -/
theorem lineSpansItsEndpoints : Obligations.LineSpansItsEndpoints := by
  intro x0 y0 x1 y1
  cases hs : endpointsSwapped x0 y0 x1 y1 with
  | false =>
    obtain ⟨hlen, hnodup, hhead, hlast, hsteps⟩ := spansLine_linePoints hs
    refine ⟨hlen, hnodup, hhead, hlast, hsteps.imp fun _ _ => LineStep.of_canonical hs, ?_⟩
    rintro hc _ _ _ rfl rfl rfl k
    exact ⟨fun hd hk => linePoints_getElem_wide (by omega) (Int.ofNat_le.1 hd) (Int.ofNat_le.1 hk),
      fun hd hk => linePoints_getElem_tall hs (Int.ofNat_lt.1 hd) (Int.ofNat_le.1 hk)⟩
  | true =>
    have hs' := endpointsSwapped_comm hs
    obtain ⟨hlen, hnodup, hhead, hlast, hsteps⟩ := spansLine_linePoints hs'
    have hdx : (x0 - x1).natAbs = (x1 - x0).natAbs := by omega
    have hdy : (y0 - y1).natAbs = (y1 - y0).natAbs := by omega
    have hchain := hsteps.imp fun _ _ => LineStep.of_canonical hs'
    rw [hdx, hdy] at hlen hchain
    rw [linePoints_comm]
    refine ⟨hlen, hnodup, hhead, hlast, hchain, fun hc => ?_⟩
    rw [endpointsSwapped_eq_true_iff] at hs
    omega

end Sys2Proof.Machine
end

section
/-! ## Which points a line has (R104) -/

namespace Sys2Proof.Machine

/-- Column by column: a line whose longer axis is x has the one point of the closed form in each column of its range. -/
theorem mem_map_linePoint {x0 y0 x1 y1 : Int} {p : Point} :
    p ∈ (List.range ((x1 - x0).natAbs + 1)).map (linePoint x0 y0 x1 y1) ↔ min x0 x1 ≤ p.1 ∧ p.1 ≤ max x0 x1 ∧
      p.2 = y0 + lineSign y0 y1 * nearestOffset (x1 - x0).natAbs (y1 - y0).natAbs (p.1 - x0).natAbs := by
  obtain ⟨x, y⟩ := p
  simp only [List.mem_map, List.mem_range, linePoint, Prod.mk.injEq]
  constructor
  · rintro ⟨k, hk, rfl, rfl⟩
    have habs : (x0 + lineSign x0 x1 * k - x0).natAbs = k := by
      rw [add_sub_cancel_left, Int.natAbs_mul, lineSign_natAbs, one_mul, Int.natAbs_natCast]
    rw [habs]
    unfold lineSign
    split_ifs <;> omega
  · rintro ⟨hlow, hhigh, rfl⟩
    refine ⟨(x - x0).natAbs, by omega, ?_, rfl⟩
    unfold lineSign
    split_ifs <;> omega

theorem mem_linePoints_wide {x0 y0 x1 y1 : Int} (h : endpointsSwapped x0 y0 x1 y1 = false)
    (hd : (y1 - y0).natAbs ≤ (x1 - x0).natAbs) {p : Point} :
    p ∈ linePoints x0 y0 x1 y1 ↔ min x0 x1 ≤ p.1 ∧ p.1 ≤ max x0 x1 ∧
      p.2 = y0 + lineSign y0 y1 * nearestOffset (x1 - x0).natAbs (y1 - y0).natAbs (p.1 - x0).natAbs := by
  rw [linePoints_wide h hd, mem_map_linePoint]

/-- Row by row, for a line whose longer axis is y. -/
theorem mem_linePoints_tall {x0 y0 x1 y1 : Int} (h : endpointsSwapped x0 y0 x1 y1 = false)
    (hd : (x1 - x0).natAbs ≤ (y1 - y0).natAbs) {p : Point} :
    p ∈ linePoints x0 y0 x1 y1 ↔ min y0 y1 ≤ p.2 ∧ p.2 ≤ max y0 y1 ∧
      p.1 = x0 + lineSign x0 x1 * nearestOffset (y1 - y0).natAbs (x1 - x0).natAbs (p.2 - y0).natAbs := by
  have hmirror : p ∈ linePoints x0 y0 x1 y1 ↔ p.swap ∈ (List.range ((y1 - y0).natAbs + 1)).map (linePoint y0 x0 y1 x1) := by
    rw [linePoints_tall h hd, ← List.mem_map_of_injective Prod.swap_injective, List.map_map]
    rfl
  rw [hmirror, mem_map_linePoint]
  rfl

theorem existsUnique_row (x0 y0 x1 y1 x : Int) :
    (y1 - y0).natAbs ≤ (x1 - x0).natAbs → min x0 x1 ≤ x → x ≤ max x0 x1 → ∃! y, (x, y) ∈ linePoints x0 y0 x1 y1 := by
  induction x0, y0, x1, y1 using canonical_induction with
  | hcomm x0 y0 x1 y1 ih =>
    intro hd hlow hhigh
    rw [linePoints_comm]
    exact ih (by omega) (by omega) (by omega)
  | h x0 y0 x1 y1 hs =>
    intro hd hlow hhigh
    simp only [mem_linePoints_wide hs hd, hlow, hhigh, true_and, existsUnique_eq]

theorem existsUnique_column (x0 y0 x1 y1 y : Int) :
    (x1 - x0).natAbs < (y1 - y0).natAbs → min y0 y1 ≤ y → y ≤ max y0 y1 → ∃! x, (x, y) ∈ linePoints x0 y0 x1 y1 := by
  induction x0, y0, x1, y1 using canonical_induction with
  | hcomm x0 y0 x1 y1 ih =>
    intro hd hlow hhigh
    rw [linePoints_comm]
    exact ih (by omega) (by omega) (by omega)
  | h x0 y0 x1 y1 hs =>
    intro hd hlow hhigh
    simp only [mem_linePoints_tall hs hd.le, hlow, hhigh, true_and, existsUnique_eq]

/-- A horizontal line is the columns of its range, in its row. -/
theorem mem_linePoints_horizontal (x0 x1 y : Int) (p : Point) :
    p ∈ linePoints x0 y x1 y ↔ p.2 = y ∧ min x0 x1 ≤ p.1 ∧ p.1 ≤ max x0 x1 := by
  wlog h : x0 ≤ x1 generalizing x0 x1
  · rw [linePoints_comm, min_comm, max_comm]
    exact this x1 x0 (by omega)
  have hoffset : nearestOffset (x1 - x0).natAbs (y - y).natAbs (p.1 - x0).natAbs = 0 :=
    nearestOffset_eq_zero (Int.natCast_nonneg _) (by rw [sub_self]; exact zero_mul _)
  rw [mem_linePoints_wide (endpointsSwapped_eq_false_iff.2 (by omega)) (by omega), hoffset, mul_zero, add_zero]
  omega

/-- A vertical line is the rows of its range, in its column. -/
theorem mem_linePoints_vertical (x y0 y1 : Int) (p : Point) :
    p ∈ linePoints x y0 x y1 ↔ p.1 = x ∧ min y0 y1 ≤ p.2 ∧ p.2 ≤ max y0 y1 := by
  wlog h : y0 ≤ y1 generalizing y0 y1
  · rw [linePoints_comm, min_comm, max_comm]
    exact this y1 y0 (by omega)
  have hoffset : nearestOffset (y1 - y0).natAbs (x - x).natAbs (p.2 - y0).natAbs = 0 :=
    nearestOffset_eq_zero (Int.natCast_nonneg _) (by rw [sub_self]; exact zero_mul _)
  rw [mem_linePoints_tall (endpointsSwapped_eq_false_iff.2 (by omega)) (by omega), hoffset, mul_zero, add_zero]
  omega

theorem lineSign_add_mul {s : Int} (hs : s = 1 ∨ s = -1) (y : Int) {n : Nat} (hn : 0 < n) : lineSign y (y + s * n) = s := by
  unfold lineSign
  rcases hs with rfl | rfl <;> split_ifs <;> omega

/-- An exact diagonal, down or up, has the offset `i` in its column `i`. -/
theorem mem_linePoints_diagonal {s : Int} (hs : s = 1 ∨ s = -1) (x0 y0 : Int) (n : Nat) (p : Point) :
    p ∈ linePoints x0 y0 (x0 + n) (y0 + s * n) ↔ ∃ i : Nat, i ≤ n ∧ p = (x0 + i, y0 + s * i) := by
  rcases n.eq_zero_or_pos with rfl | hpos
  · simp [linePoints_self]
  have hdx : (x0 + n - x0).natAbs = n := by omega
  have hdy : (y0 + s * n - y0).natAbs = n := by rcases hs with rfl | rfl <;> omega
  have hright : lineSign x0 (x0 + n) = 1 := if_pos (by omega)
  rw [linePoints_wide (endpointsSwapped_eq_false_iff.2 (by omega)) (by omega), List.mem_map, hdx]
  simp only [List.mem_range, Nat.lt_succ_iff, linePoint, hdx, hdy, nearestOffset_diagonal (Int.natCast_pos.2 hpos),
    lineSign_add_mul hs y0 hpos, hright, one_mul, eq_comm]

/-- Settles O23. -/
theorem tieFreeLinesAreTheObviousOnes : Obligations.TieFreeLinesAreTheObviousOnes := by
  refine ⟨existsUnique_row, existsUnique_column, mem_linePoints_horizontal, mem_linePoints_vertical, fun x0 y0 n p => ⟨?_, ?_⟩⟩
  · simpa only [one_mul] using mem_linePoints_diagonal (.inl rfl) x0 y0 n p
  · simpa only [neg_one_mul, ← sub_eq_add_neg] using mem_linePoints_diagonal (.inr rfl) x0 y0 n p

end Sys2Proof.Machine
end

section
/-! ## DRAW_LINE (R101, R103) -/

namespace Sys2Proof

open Sys2Proof.Safety

theorem encodedAs_drawLine (c : Bool) (a0 a1 b0 b1 d0 d1 e0 e1 : Byte) :
    EncodedAs (.drawLine c (halfOf a0 a1) (halfOf b0 b1) (halfOf d0 d1) (halfOf e0 e1))
      [0x20#8 ||| colourBit c, a0, a1, b0, b1, d0, d1, e0, e1] := by
  have h := encodedAs_encode (i := .drawLine c (halfOf a0 a1) (halfOf b0 b1) (halfOf d0 d1) (halfOf e0 e1)) rfl
  simpa only [encode, loByte_halfOf, hiByte_halfOf] using h

end Sys2Proof

namespace Sys2Proof.Machine

open Sys2Proof.Safety

/-- On the way through a Line inside a command: after `n` passes the first `n` points are plotted, and the record is inside the line, at
point `n`. -/
theorem run_line {cfg : Config} {c : Bool} {inside : LineLocals → Work} {after : Option Work} (hw : cfg.wf = true)
    (hs : ∀ l (s : State), s.cfg = cfg → stepWork (inside l) s = s.pass c (linePass inside after l)) {p : Point} :
    ∀ {n fuel : Nat} {l : LineLocals} {s : State}, s.cfg = cfg → s.cur = .idle → (l.points fuel)[n]? = some p →
      ∃ l' : LineLocals, l'.point = p ∧ core.run n (s.begin (some (inside l))) =
        .next ((s.plot c ((l.points fuel).take n)).begin (some (inside l'))) := by
  intro n
  induction n with
  | zero =>
    intro fuel l s _ _ hp
    cases fuel with
    | zero => cases hp
    | succ fuel => exact ⟨l, Option.some.inj hp, rfl⟩
  | succ n ih =>
    intro fuel l s hcfg hi hp
    cases fuel with
    | zero => cases hp
    | succ fuel =>
      cases hn : l.next with
      | none => simp [LineLocals.points, hn] at hp
      | some l' =>
        have hpoints : l.points (fuel + 1) = [l.point] ++ l'.points fuel := by simp [LineLocals.points, hn]
        have hstep : step (s.begin (some (inside l))) = .next ((s.plot c [l.point]).begin (some (inside l'))) := by
          rw [step_working (by simpa [hcfg] using hw) rfl, hs _ _ (by simpa using hcfg), State.begin_pass hi]
          simp [linePass, hn]
        rw [hpoints] at hp
        obtain ⟨l'', hl, hrun⟩ := ih (s := s.plot c [l.point]) hcfg hi hp
        refine ⟨l'', hl, ?_⟩
        rw [run_succ hstep, hrun, hpoints, ← State.plot_append]
        rfl

/-- Settles O20: the whole command plots the points of the line, and so do its passes, one by one. -/
theorem drawLinePaintsTheLine : Obligations.DrawLinePaintsTheLine := by
  refine ⟨encodedAs_drawLine, fun c x0 y0 x1 y1 s hw hfb hi => ?_⟩
  obtain ⟨u, hu, hc⟩ := drawing_completes (i := .drawLine c x0 y0 x1 y1) rfl hw hi
  refine ⟨u, _, hu, hc, painted_plot hfb fun _ _ => Iff.rfl, fun n p hp => ?_⟩
  obtain ⟨line, hline, hrun⟩ := run_line (inside := .drawLine c x0 y0 x1 y1) (after := none) hw (fun _ _ _ => rfl) rfl hi hp
  cases hu
  exact ⟨line, _, hrun, hline, rfl⟩

/-- Settles O22: the two commands make the same calls of SetPixel. -/
theorem lineIsSymmetric : Obligations.LineIsSymmetric := by
  refine ⟨linePoints_comm, fun c x0 y0 x1 y1 s hw hi => ?_⟩
  obtain ⟨u, hu, hc⟩ := drawing_completes (i := .drawLine c x0 y0 x1 y1) rfl hw hi
  obtain ⟨u', hu', hc'⟩ := drawing_completes (i := .drawLine c x1 y1 x0 y0) rfl hw hi
  rw [linePoints_comm] at hc'
  exact ⟨u, u', _, hu, hu', hc, hc'⟩

end Sys2Proof.Machine
end

/-! # Proofs: rectangles (spec/42_rectangle.md)

The crop theorem R113: a pixel in bounds lies left of column W and above row H, and there the clamped extent and the given one bound the
same columns and rows. So the points the Lines of a rectangle plot are, in bounds, those of the ideal shape of R114. -/

section
/-! ## The clamp (R110) -/

namespace Sys2Proof.Machine

theorem clampWidth_neg_iff (cfg : Config) (x w : Int) : clampWidth cfg x w < 0 ↔ w < 0 ∨ x > cfg.width := by
  rw [clampWidth, min_lt_iff, sub_neg, gt_iff_lt]

theorem clampHeight_neg_iff (cfg : Config) (y h : Int) : clampHeight cfg y h < 0 ↔ h < 0 ∨ y > cfg.height := by
  rw [clampHeight, min_lt_iff, sub_neg, gt_iff_lt]

/-- Settles O24. -/
theorem clampIsNegativeExactlyOffBuffer : Obligations.ClampIsNegativeExactlyOffBuffer := fun cfg x y w h =>
  ⟨rfl, rfl, clampWidth_neg_iff cfg x w, clampHeight_neg_iff cfg y h⟩

/-- Of the columns left of W, or the rows above H, those up to the clamped edge are those up to the given one. -/
theorem le_add_clamp_iff {i n : Int} (hi : i < n) (a e : Int) : i ≤ a + min e (n - a) ↔ i ≤ a + e := by omega

/-- A visible column or row is the clamped edge exactly when it is the given one: an edge that was moved stands at column W or row H. -/
theorem eq_add_clamp_iff {i n : Int} (hi : i < n) (a e : Int) : i = a + min e (n - a) ↔ i = a + e := by omega

/-- A degenerate rectangle of no negative size lies right of the buffer or below it (R113): it has no visible pixel. -/
theorem off_buffer_of_degenerate {cfg : Config} {x y w h : Int} (hw : 0 ≤ w) (hh : 0 ≤ h)
    (hd : clampWidth cfg x w < 0 ∨ clampHeight cfg y h < 0) {p : Point} (hp : inBounds cfg p = true) : ¬ (x ≤ p.1 ∧ y ≤ p.2) := by
  obtain ⟨-, hx, -, hy⟩ := inBounds_iff.1 hp
  rw [clampWidth_neg_iff, clampHeight_neg_iff] at hd
  omega

/-- A negative size stays negative when it is clamped, and a command with a degenerate rectangle has no first record (R110). -/
theorem begin_of_neg (s : State) (x y : Int) {w h : Int} (hneg : w < 0 ∨ h < 0) (r : Option Work) :
    s.begin (if clampWidth s.cfg x w < 0 ∨ clampHeight s.cfg y h < 0 then none else r) = s := by
  have hd : clampWidth s.cfg x w < 0 ∨ clampHeight s.cfg y h < 0 := by
    rw [clampWidth_neg_iff, clampHeight_neg_iff]
    exact hneg.imp .inl .inl
  rw [if_pos hd, State.begin]

end Sys2Proof.Machine
end

section
/-! ## DRAW_RECT (R111, R113) -/

namespace Sys2Proof

open Sys2Proof.Safety

theorem encodedAs_drawRect (c : Bool) (a0 a1 b0 b1 d0 d1 e0 e1 : Byte) :
    EncodedAs (.drawRect c (halfOf a0 a1) (halfOf b0 b1) (halfOf d0 d1) (halfOf e0 e1))
      [0x22#8 ||| colourBit c, a0, a1, b0, b1, d0, d1, e0, e1] := by
  have h := encodedAs_encode (i := .drawRect c (halfOf a0 a1) (halfOf b0 b1) (halfOf d0 d1) (halfOf e0 e1)) rfl
  simpa only [encode, loByte_halfOf, hiByte_halfOf] using h

end Sys2Proof

namespace Sys2Proof.Machine

open Sys2Proof.Safety

/-- The four Lines around a rectangle plot its outline. -/
theorem mem_outline {x y w h : Int} (hw : 0 ≤ w) (hh : 0 ≤ h) {p : Point} :
    p ∈ (outlineEdges x y w h).flatMap (fun e => linePoints e.1.1 e.1.2 e.2.1 e.2.2) ↔
      (x ≤ p.1 ∧ p.1 ≤ x + w) ∧ (y ≤ p.2 ∧ p.2 ≤ y + h) ∧ (p.1 = x ∨ p.1 = x + w ∨ p.2 = y ∨ p.2 = y + h) := by
  simp only [outlineEdges, List.flatMap_cons, List.flatMap_nil, List.append_nil, List.mem_append, mem_linePoints_horizontal,
    mem_linePoints_vertical]
  omega

/-- The crop theorem of DRAW_RECT (R113). -/
theorem mem_drawRectPoints {cfg : Config} {x y w h : Int} (hw : 0 ≤ w) (hh : 0 ≤ h) {p : Point} (hp : inBounds cfg p = true) :
    p ∈ drawRectPoints cfg x y w h ↔
      (x ≤ p.1 ∧ p.1 ≤ x + w) ∧ (y ≤ p.2 ∧ p.2 ≤ y + h) ∧ (p.1 = x ∨ p.1 = x + w ∨ p.2 = y ∨ p.2 = y + h) := by
  unfold drawRectPoints
  split_ifs with hd
  · exact iff_of_false List.not_mem_nil fun ⟨⟨hx, _⟩, ⟨hy, _⟩, _⟩ => off_buffer_of_degenerate hw hh hd hp ⟨hx, hy⟩
  · obtain ⟨-, hx, -, hy⟩ := inBounds_iff.1 hp
    obtain ⟨hw', hh'⟩ := not_or.1 hd
    rw [mem_outline (not_lt.1 hw') (not_lt.1 hh'), clampWidth, clampHeight, le_add_clamp_iff hx, eq_add_clamp_iff hx,
      le_add_clamp_iff hy, eq_add_clamp_iff hy]

/-- Settles O25, by the crop theorem. -/
theorem drawRectPaintsTheCroppedOutline : Obligations.DrawRectPaintsTheCroppedOutline := by
  refine ⟨encodedAs_drawRect, fun c x y w h s hwf hfb hi => ⟨fun hneg => congrArg _ (begin_of_neg s _ _ hneg _), fun hw hh => ?_⟩⟩
  obtain ⟨u, hu, hc⟩ := drawing_completes (i := .drawRect c x y w h) rfl hwf hi
  exact ⟨u, _, hu, hc, painted_plot hfb fun _ => mem_drawRectPoints hw hh⟩

end Sys2Proof.Machine
end

section
/-! ## FILL_RECT (R112, R113) -/

namespace Sys2Proof

open Sys2Proof.Safety

theorem encodedAs_fillRect (c : Bool) (a0 a1 b0 b1 d0 d1 e0 e1 : Byte) :
    EncodedAs (.fillRect c (halfOf a0 a1) (halfOf b0 b1) (halfOf d0 d1) (halfOf e0 e1))
      [0x24#8 ||| colourBit c, a0, a1, b0, b1, d0, d1, e0, e1] := by
  have h := encodedAs_encode (i := .fillRect c (halfOf a0 a1) (halfOf b0 b1) (halfOf d0 d1) (halfOf e0 e1)) rfl
  simpa only [encode, loByte_halfOf, hiByte_halfOf] using h

end Sys2Proof

namespace Sys2Proof.Machine

open Sys2Proof.Safety

/-- The h + 1 horizontal Lines of a sweep plot the columns x to x + w of the rows y to y + h. -/
theorem mem_rows {x y w h : Int} (hw : 0 ≤ w) (hh : 0 ≤ h) {p : Point} :
    p ∈ (List.range (h.toNat + 1)).flatMap (fun (i : Nat) => linePoints x (y + i) (x + w) (y + i)) ↔
      (x ≤ p.1 ∧ p.1 ≤ x + w) ∧ (y ≤ p.2 ∧ p.2 ≤ y + h) := by
  simp only [List.mem_flatMap, List.mem_range, mem_linePoints_horizontal]
  constructor
  · rintro ⟨i, hi, hrow, hlow, hhigh⟩
    omega
  · rintro ⟨hcolumn, hrow⟩
    exact ⟨(p.2 - y).toNat, by omega, by omega, by omega, by omega⟩

/-- The crop theorem of FILL_RECT (R113). -/
theorem mem_fillRectPoints {cfg : Config} {x y w h : Int} (hw : 0 ≤ w) (hh : 0 ≤ h) {p : Point} (hp : inBounds cfg p = true) :
    p ∈ fillRectPoints cfg x y w h ↔ (x ≤ p.1 ∧ p.1 ≤ x + w) ∧ (y ≤ p.2 ∧ p.2 ≤ y + h) := by
  unfold fillRectPoints
  split_ifs with hd
  · exact iff_of_false List.not_mem_nil fun ⟨⟨hx, _⟩, ⟨hy, _⟩⟩ => off_buffer_of_degenerate hw hh hd hp ⟨hx, hy⟩
  · obtain ⟨-, hx, -, hy⟩ := inBounds_iff.1 hp
    obtain ⟨hw', hh'⟩ := not_or.1 hd
    rw [mem_rows (not_lt.1 hw') (not_lt.1 hh'), clampWidth, clampHeight, le_add_clamp_iff hx, le_add_clamp_iff hy]

/-- Settles O26, by the crop theorem. -/
theorem fillRectPaintsTheCroppedArea : Obligations.FillRectPaintsTheCroppedArea := by
  refine ⟨encodedAs_fillRect, fun c x y w h s hwf hfb hi => ⟨fun hneg => congrArg _ (begin_of_neg s _ _ hneg _), fun hw hh => ?_⟩⟩
  obtain ⟨u, hu, hc⟩ := drawing_completes (i := .fillRect c x y w h) rfl hwf hi
  exact ⟨u, _, hu, hc, painted_plot hfb fun _ => mem_fillRectPoints hw hh⟩

end Sys2Proof.Machine
end

section
/-! ## Filling the buffer, then CLEAR (R116) -/

namespace Sys2Proof.Machine

open Sys2Proof.Safety

/-- Painting every visible point sets every bit of FB: each of them is the pixel of a point in bounds. -/
theorem read_eq_0xFF_of_painted {cfg : Config} (hwf : cfg.wf = true) {m m' : Framebuffer} {S : Point → Prop}
    (hm : PaintedExactly cfg true m m' S) (hS : ∀ p, inBounds cfg p = true → S p) {i : Nat} (hi : i < cfg.size) : m'.read i = 0xFF := by
  refine BitVec.eq_of_getLsbD_eq fun k hk => ?_
  have hin := inBounds_pixelAt hwf hi hk
  have hbit : bitAt m' i k = true :=
    hm.painted i k hk ⟨_, hS _ hin, hin, (pixelIndex_pixelAt cfg i hk).symm, (pixelBit_pixelAt cfg i hk).symm⟩
  have hFF : ∀ k < 8, (0xFF : Byte).getLsbD k = true := by decide
  exact hbit.trans (hFF k hk).symm

/-- CLEAR keeps nothing of FB but the count of block resets. -/
theorem clear_eq_of_epoch_eq {m m' : Framebuffer} (h : m'.epoch = m.epoch) : m'.clear = m.clear := by
  rw [Framebuffer.clear, Framebuffer.clear, h]

/-- Settles O27, from O26: the rectangle of the buffer's own size holds every point in bounds. -/
theorem fillThenClearIsClear : Obligations.FillThenClearIsClear := by
  intro s u t hwf hfb hi hu ht
  obtain ⟨-, hwidth, -, hheight, -⟩ := sizes_of_wf hwf
  have hw := signedOperand_ofNat hwidth
  have hh := signedOperand_ofNat (hheight.trans (by decide))
  obtain ⟨u', m, hu', hm, hpainted⟩ :=
    (fillRectPaintsTheCroppedArea.2 true 0 0 (BitVec.ofNat 16 s.cfg.width) (BitVec.ofNat 16 s.cfg.height) s hwf hfb hi).2
      (by omega) (by omega)
  cases hu'.symm.trans hu
  cases hm.unique ht
  obtain ⟨v, hv, hz⟩ := clear_completes (s := { s with fb := m }) hwf hi
  obtain ⟨v', hv', hz'⟩ := clear_completes hwf hi
  rw [← clear_eq_of_epoch_eq hpainted.epoch_kept] at hz'
  refine ⟨fun i hlt => read_eq_0xFF_of_painted hwf hpainted (fun p hp => ?_) hlt, v, v', _, hv, hv', hz, hz'⟩
  obtain ⟨hx0, hx, hy0, hy⟩ := inBounds_iff.1 hp
  rw [show signedOperand 0 = 0 from rfl, hw, hh]
  omega

end Sys2Proof.Machine
end

/-! # Proofs: circles (spec/43_circle.md)

The decision variable is a function of the pair: d < 0 exactly if the midpoint lies inside the ideal circle. So CircleIter(r) is the walk by
`midpointNext`, and what it holds is shown by induction on that walk. The ring and the disc are read off it: the eight symmetries of the ring
carry each fact about an octant to the whole. -/

section
/-! ## The midpoint walk (R120) -/

namespace Sys2Proof.Machine

open Sys2Proof.Safety

@[simp] theorem midpointNext_fst (r : Int) (p : Point) : (midpointNext r p).1 = p.1 + 1 := rfl

theorem midpointNext_cases (r : Int) (p : Point) :
    (p.1 + 1) * (p.1 + 1) + p.2 * p.2 - p.2 < r * r ∧ (midpointNext r p).2 = p.2 ∨
      r * r ≤ (p.1 + 1) * (p.1 + 1) + p.2 * p.2 - p.2 ∧ (midpointNext r p).2 = p.2 - 1 := by
  unfold midpointNext
  split_ifs with h
  · exact .inl ⟨h, rfl⟩
  · exact .inr ⟨not_lt.1 h, rfl⟩

theorem midpointNext_snd (r : Int) (p : Point) : (midpointNext r p).2 = p.2 ∨ (midpointNext r p).2 = p.2 - 1 :=
  (midpointNext_cases r p).imp And.right And.right

theorem adjacent_midpointNext (r : Int) (p : Point) : Adjacent p (midpointNext r p) := by
  have hrow := midpointNext_snd r p
  unfold Adjacent
  rw [midpointNext_fst]
  omega

/-- The locals of CircleIter(r) at a pair: the decision variable is (x + 1)² + (y − ½)² − r², less ¼. -/
def localsAt (r : Int) (p : Point) : CircleLocals where
  x := p.1
  y := p.2
  d := (p.1 + 1) * (p.1 + 1) + p.2 * p.2 - p.2 - r * r

theorem tested_localsAt {r : Int} {p : Point} (h : p.1 ≤ p.2) : (localsAt r p).tested = some (localsAt r p) := if_pos h

theorem tested_localsAt_of_lt {r : Int} {p : Point} (h : p.2 < p.1) : (localsAt r p).tested = none := if_neg (not_le.2 h)

theorem circleStart_eq (r : Int) : circleStart r = (localsAt r (0, r)).tested := by
  have hd : 1 - r = (0 + 1) * (0 + 1) + r * r - r - r * r := by ring
  rw [circleStart, localsAt, hd]

theorem next_localsAt (r : Int) (p : Point) : (localsAt r p).next = (localsAt r (midpointNext r p)).tested := by
  unfold CircleLocals.next
  congr 1
  simp only [localsAt, midpointNext, sub_neg]
  split_ifs
  · rw [CircleLocals.mk.injEq]
    exact ⟨rfl, rfl, by ring⟩
  · rw [CircleLocals.mk.injEq]
    exact ⟨rfl, rfl, by ring⟩

/-- The list holds the pairs of the walk from a pair on: the one `midpointNext` gives comes next as long as it has x ≤ y. -/
inductive MidpointWalk (r : Int) : Point → List Point → Prop where
  | last {p : Point} (h : (midpointNext r p).2 < (midpointNext r p).1) : MidpointWalk r p [p]
  | step {p : Point} {ps : List Point} (h : (midpointNext r p).1 ≤ (midpointNext r p).2)
      (rest : MidpointWalk r (midpointNext r p) ps) : MidpointWalk r p (p :: ps)

/-- As x goes up and y does not, fuel for y + 1 − x passes is enough. -/
theorem midpointWalk_circlePairs (r : Int) (n : Nat) (p : Point) (hp : p.1 ≤ p.2) (hn : p.2 + 1 - p.1 ≤ n) :
    MidpointWalk r p (circlePairs n (some (localsAt r p))) := by
  induction n generalizing p with
  | zero => omega
  | succ n ih =>
    rw [circlePairs_some, next_localsAt]
    rcases lt_or_ge (midpointNext r p).2 (midpointNext r p).1 with hlt | hle
    · rw [tested_localsAt_of_lt hlt, circlePairs_none]
      exact .last hlt
    · rw [tested_localsAt hle]
      have hrow := midpointNext_snd r p
      have hcolumn := midpointNext_fst r p
      exact .step hle (ih _ hle (by omega))

theorem midpointWalk_circleIter {r : Int} (hr : 0 ≤ r) : MidpointWalk r (0, r) (circleIter r) := by
  rw [circleIter, circleStart_eq, tested_localsAt hr]
  exact midpointWalk_circlePairs r _ _ hr (by simp)

theorem circleIter_of_neg {r : Int} (hr : r < 0) : circleIter r = [] := by
  rw [circleIter, circleStart_eq, tested_localsAt_of_lt hr, circlePairs_none]

theorem nonneg_of_mem_circleIter {r : Int} {q : Point} (hq : q ∈ circleIter r) : 0 ≤ r := by
  by_contra hr
  rw [circleIter_of_neg (not_le.1 hr)] at hq
  exact List.not_mem_nil hq

end Sys2Proof.Machine
end

section
/-! ## What a walk holds -/

namespace Sys2Proof.Machine

open Sys2Proof.Safety

namespace MidpointWalk

variable {r : Int} {p q : Point} {L : List Point}

theorem head?_eq (h : MidpointWalk r p L) : L.head? = some p := by cases h <;> rfl

theorem start_mem (h : MidpointWalk r p L) : p ∈ L := List.mem_of_mem_head? h.head?_eq

theorem exists_last (h : MidpointWalk r p L) : ∃ q, L.getLast? = some q :=
  ⟨_, List.getLast?_eq_some_getLast (List.ne_nil_of_mem h.start_mem)⟩

/-- What holds of the first pair, and of each pair's next one if of the pair, holds of every pair. -/
theorem induct {P : Point → Prop} (h : MidpointWalk r p L) (start : P p)
    (next : ∀ q ∈ L, midpointNext r q ∈ L → (midpointNext r q).1 ≤ (midpointNext r q).2 → P q → P (midpointNext r q)) :
    ∀ q ∈ L, P q := by
  induction h with
  | last => exact fun q hq => List.mem_singleton.1 hq ▸ start
  | @step p ps hle rest ih =>
    have hnext : P (midpointNext r p) := next p List.mem_cons_self (List.mem_cons_of_mem _ rest.start_mem) hle start
    have htail := ih hnext fun q hq hq' => next q (List.mem_cons_of_mem _ hq) (List.mem_cons_of_mem _ hq')
    exact List.forall_mem_cons.2 ⟨start, htail⟩

theorem isChain (h : MidpointWalk r p L) : L.IsChain fun p q => q = midpointNext r p ∧ (q.2 = p.2 ∨ q.2 = p.2 - 1) := by
  induction h with
  | last => exact .singleton _
  | @step p ps _ rest ih =>
    cases rest with
    | last => exact .cons_cons ⟨rfl, midpointNext_snd r p⟩ ih
    | step => exact .cons_cons ⟨rfl, midpointNext_snd r p⟩ ih

theorem length_le (h : MidpointWalk r p L) (hp : p.1 ≤ p.2) : (L.length : Int) ≤ p.2 + 1 - p.1 := by
  induction h with
  | last => rw [List.length_singleton]; omega
  | @step p ps hle rest ih =>
    have hrow := midpointNext_snd r p
    have hlength := ih hle
    rw [midpointNext_fst] at hlength
    rw [List.length_cons]
    omega

/-- The walk ends by its own test. -/
theorem last_end (h : MidpointWalk r p L) (hq : L.getLast? = some q) : (midpointNext r q).2 < (midpointNext r q).1 := by
  induction h with
  | last hlt => exact Option.some.inj hq ▸ hlt
  | step _ rest ih =>
    rw [List.getLast?_cons_of_ne_nil (List.ne_nil_of_mem rest.start_mem)] at hq
    exact ih hq

/-- Each pair is the last one, or the next one is a pair of the walk. -/
theorem last_or_next_mem (h : MidpointWalk r p L) (hq : q ∈ L) : L.getLast? = some q ∨ midpointNext r q ∈ L := by
  induction h with
  | last => exact .inl (List.mem_singleton.1 hq ▸ rfl)
  | step _ rest ih =>
    rw [List.getLast?_cons_of_ne_nil (List.ne_nil_of_mem rest.start_mem)]
    rcases List.mem_cons.1 hq with rfl | hq
    · exact .inr (List.mem_cons_of_mem _ rest.start_mem)
    · exact (ih hq).imp_right (List.mem_cons_of_mem _)

/-- Each pair is the first one, or the next one of a pair of the walk. -/
theorem start_or_next_of_mem (h : MidpointWalk r p L) : ∀ q ∈ L, q = p ∨ ∃ q' ∈ L, q = midpointNext r q' :=
  h.induct (.inl rfl) fun q hq _ _ _ => .inr ⟨q, hq, rfl⟩

/-- The walk leaves out no row or column between its first x and its first y: when it ends, x and y have met. -/
theorem exists_coordinate (h : MidpointWalk r p L) {j : Int} (hlow : p.1 ≤ j) (hhigh : j ≤ p.2) : ∃ q ∈ L, q.1 = j ∨ q.2 = j := by
  induction h with
  | @last p hlt =>
    have hrow := midpointNext_snd r p
    rw [midpointNext_fst] at hlt
    exact ⟨p, List.mem_singleton_self p, by omega⟩
  | @step p ps hle rest ih =>
    by_cases hj : p.1 = j ∨ p.2 = j
    · exact ⟨p, List.mem_cons_self, hj⟩
    · have hrow := midpointNext_snd r p
      obtain ⟨q, hq, hqj⟩ := ih (by rw [midpointNext_fst]; omega) (by omega)
      exact ⟨q, List.mem_cons_of_mem _ hq, hqj⟩

end MidpointWalk

/-- y is the row nearest to the ideal circle in the column x: y − ½ lies inside it and y + ½ does not, said of integers. -/
def NearestRow (r : Int) (p : Point) : Prop := p.1 * p.1 + p.2 * p.2 - p.2 < r * r ∧ r * r ≤ p.1 * p.1 + p.2 * p.2 + p.2

/-- The walk stays on the nearest row while x ≤ y, for a step one row down makes up for the step along. -/
theorem nearestRow_midpointNext {r : Int} {p : Point} (hx : 0 ≤ p.1) (hle : (midpointNext r p).1 ≤ (midpointNext r p).2)
    (h : NearestRow r p) : NearestRow r (midpointNext r p) := by
  obtain ⟨hinside, houtside⟩ := h
  unfold NearestRow
  rw [midpointNext_fst] at hle ⊢
  rcases midpointNext_cases r p with ⟨hd, hrow⟩ | ⟨hd, hrow⟩ <;> rw [hrow] at hle ⊢
  · exact ⟨hd, by linarith⟩
  · exact ⟨by linarith, by linarith⟩

variable {r : Int} {q : Point}

theorem mem_circleIter_bounds (hq : q ∈ circleIter r) : 0 ≤ q.1 ∧ q.1 ≤ q.2 ∧ q.2 ≤ r := by
  have hr := nonneg_of_mem_circleIter hq
  refine (midpointWalk_circleIter hr).induct (P := fun q => 0 ≤ q.1 ∧ q.1 ≤ q.2 ∧ q.2 ≤ r) ⟨le_rfl, hr, le_rfl⟩ ?_ q hq
  intro q _ _ hle ⟨hx, _, hy⟩
  have hrow := midpointNext_snd r q
  have hcolumn := midpointNext_fst r q
  omega

theorem mem_circleIter_nearestRow (hr : 1 ≤ r) (hq : q ∈ circleIter r) : NearestRow r q := by
  have hstart : NearestRow r (0, r) := ⟨by dsimp only; omega, by dsimp only; omega⟩
  refine (midpointWalk_circleIter (by omega)).induct hstart (fun q hq _ hle h => ?_) q hq
  obtain ⟨hx, -, -⟩ := mem_circleIter_bounds hq
  exact nearestRow_midpointNext hx hle h

/-- Settles O28: CircleIter(r) is the walk by `midpointNext`. -/
theorem octantIterationIsAWalk : Obligations.OctantIterationIsAWalk := by
  refine fun r => ⟨circleIter_of_neg, fun hr => ?_⟩
  have hwalk := midpointWalk_circleIter hr
  have hlength : ((circleIter r).length : Int) ≤ r + 1 := by simpa using hwalk.length_le hr
  exact ⟨hwalk.head?_eq, fun _ => mem_circleIter_bounds, hwalk.isChain, hlength, fun _ => hwalk.last_end,
    fun hr _ => mem_circleIter_nearestRow hr⟩

end Sys2Proof.Machine
end

section
/-! ## The points of the ring and of the disc (R123) -/

namespace Sys2Proof.Machine

open Sys2Proof.Safety

theorem mem_octantPoints {x0 y0 : Int} {p q : Point} :
    p ∈ octantPoints x0 y0 q ↔ ∃ sx sy : Int, (sx = 1 ∨ sx = -1) ∧ (sy = 1 ∨ sy = -1) ∧
      (p = (x0 + sx * q.1, y0 + sy * q.2) ∨ p = (x0 + sx * q.2, y0 + sy * q.1)) := by
  simp only [octantPoints, List.mem_cons, List.not_mem_nil, or_false]
  constructor
  · rintro (rfl | rfl | rfl | rfl | rfl | rfl | rfl | rfl)
    · exact ⟨1, 1, .inl rfl, .inl rfl, .inl (by ring_nf)⟩
    · exact ⟨-1, 1, .inr rfl, .inl rfl, .inl (by ring_nf)⟩
    · exact ⟨1, -1, .inl rfl, .inr rfl, .inl (by ring_nf)⟩
    · exact ⟨-1, -1, .inr rfl, .inr rfl, .inl (by ring_nf)⟩
    · exact ⟨1, 1, .inl rfl, .inl rfl, .inr (by ring_nf)⟩
    · exact ⟨-1, 1, .inr rfl, .inl rfl, .inr (by ring_nf)⟩
    · exact ⟨1, -1, .inl rfl, .inr rfl, .inr (by ring_nf)⟩
    · exact ⟨-1, -1, .inr rfl, .inr rfl, .inr (by ring_nf)⟩
  · rintro ⟨sx, sy, rfl | rfl, rfl | rfl, rfl | rfl⟩ <;> simp [← sub_eq_add_neg]

theorem mem_ringPoints {x0 y0 r : Int} {p : Point} :
    p ∈ ringPoints x0 y0 r ↔ ∃ q ∈ circleIter r, ∃ sx sy : Int, (sx = 1 ∨ sx = -1) ∧ (sy = 1 ∨ sy = -1) ∧
      (p = (x0 + sx * q.1, y0 + sy * q.2) ∨ p = (x0 + sx * q.2, y0 + sy * q.1)) := by
  simp only [ringPoints, List.mem_flatMap, mem_octantPoints]

theorem mem_chordPoints {x0 y0 : Int} {p q : Point} :
    p ∈ chordPoints x0 y0 q ↔ ((p.1 - x0).natAbs ≤ q.1.natAbs ∧ (p.2 - y0).natAbs = q.2.natAbs) ∨
      ((p.1 - x0).natAbs ≤ q.2.natAbs ∧ (p.2 - y0).natAbs = q.1.natAbs) := by
  simp only [chordPoints, chordEnds, List.flatMap_cons, List.flatMap_nil, List.append_nil, List.mem_append, mem_linePoints_horizontal]
  omega

theorem mem_discPoints {x0 y0 r : Int} {p : Point} :
    p ∈ discPoints x0 y0 r ↔ ∃ q ∈ circleIter r,
      ((p.1 - x0).natAbs ≤ q.1.natAbs ∧ (p.2 - y0).natAbs = q.2.natAbs) ∨
      ((p.1 - x0).natAbs ≤ q.2.natAbs ∧ (p.2 - y0).natAbs = q.1.natAbs) := by
  simp only [discPoints, List.mem_flatMap, mem_chordPoints]

theorem circleStart_of_neg {r : Int} (hr : r < 0) : circleStart r = none := by
  rw [circleStart_eq, tested_localsAt_of_lt hr]

end Sys2Proof.Machine
end

section
/-! ## DRAW_CIRCLE and FILL_CIRCLE (R121 to R123) -/

namespace Sys2Proof

open Sys2Proof.Safety

theorem encodedAs_drawCircle (c : Bool) (a0 a1 b0 b1 r0 r1 : Byte) :
    EncodedAs (.drawCircle c (halfOf a0 a1) (halfOf b0 b1) (halfOf r0 r1)) [0x26#8 ||| colourBit c, a0, a1, b0, b1, r0, r1] := by
  have h := encodedAs_encode (i := .drawCircle c (halfOf a0 a1) (halfOf b0 b1) (halfOf r0 r1)) rfl
  simpa only [encode, loByte_halfOf, hiByte_halfOf] using h

theorem encodedAs_fillCircle (c : Bool) (a0 a1 b0 b1 r0 r1 : Byte) :
    EncodedAs (.fillCircle c (halfOf a0 a1) (halfOf b0 b1) (halfOf r0 r1)) [0x28#8 ||| colourBit c, a0, a1, b0, b1, r0, r1] := by
  have h := encodedAs_encode (i := .fillCircle c (halfOf a0 a1) (halfOf b0 b1) (halfOf r0 r1)) rfl
  simpa only [encode, loByte_halfOf, hiByte_halfOf] using h

end Sys2Proof

namespace Sys2Proof.Machine

open Sys2Proof.Safety

theorem execDrawCircle_of_neg {r : Half} (hr : signedOperand r < 0) (c : Bool) (x0 y0 : Half) (s : State) :
    exec (.drawCircle c x0 y0 r) s = .next s := by
  rw [show exec (.drawCircle c x0 y0 r) s = execDrawCircle c x0 y0 r s from rfl, execDrawCircle, circleStart_of_neg hr]
  rfl

theorem execFillCircle_of_neg {r : Half} (hr : signedOperand r < 0) (c : Bool) (x0 y0 : Half) (s : State) :
    exec (.fillCircle c x0 y0 r) s = .next s := by
  rw [show exec (.fillCircle c x0 y0 r) s = execFillCircle c x0 y0 r s from rfl, execFillCircle, circleStart_of_neg hr]
  rfl

/-- Settles O29. -/
theorem drawCirclePaintsTheRing : Obligations.DrawCirclePaintsTheRing := by
  refine ⟨encodedAs_drawCircle, fun c x0 y0 r s hw hfb hi => ⟨fun hr => execDrawCircle_of_neg hr c x0 y0 s, ?_⟩⟩
  obtain ⟨u, hu, hc⟩ := drawing_completes (i := .drawCircle c x0 y0 r) rfl hw hi
  exact ⟨u, _, hu, hc, painted_plot hfb fun _ _ => mem_ringPoints⟩

/-- Settles O30. -/
theorem fillCirclePaintsTheDisc : Obligations.FillCirclePaintsTheDisc := by
  refine ⟨encodedAs_fillCircle, fun c x0 y0 r s hw hfb hi => ⟨fun hr => execFillCircle_of_neg hr c x0 y0 s, ?_⟩⟩
  obtain ⟨u, hu, hc⟩ := drawing_completes (i := .fillCircle c x0 y0 r) rfl hw hi
  exact ⟨u, _, hu, hc, painted_plot hfb fun _ _ => mem_discPoints⟩

end Sys2Proof.Machine
end

section
/-! ## The radius and the rows of the disc (R124 (a), (c), (d)) -/

namespace Sys2Proof.Machine

open Sys2Proof.Safety

variable {r : Int} {p q : Point}

theorem mem_ring_origin : p ∈ ringPoints 0 0 r ↔ ∃ q ∈ circleIter r, ∃ sx sy : Int, (sx = 1 ∨ sx = -1) ∧ (sy = 1 ∨ sy = -1) ∧
    (p = (sx * q.1, sy * q.2) ∨ p = (sx * q.2, sy * q.1)) := by
  simp only [mem_ringPoints, zero_add]

theorem mem_disc_origin : p ∈ discPoints 0 0 r ↔ ∃ q ∈ circleIter r,
    (p.1.natAbs ≤ q.1.natAbs ∧ p.2.natAbs = q.2.natAbs) ∨ (p.1.natAbs ≤ q.2.natAbs ∧ p.2.natAbs = q.1.natAbs) := by
  simp only [mem_discPoints, sub_zero]

/-- A point is on the ring exactly if its coordinates are, in some order and up to their signs, those of a pair of CircleIter(r). -/
theorem mem_ring_iff_natAbs : p ∈ ringPoints 0 0 r ↔ ∃ q ∈ circleIter r,
    (p.1.natAbs = q.1.natAbs ∧ p.2.natAbs = q.2.natAbs) ∨ (p.1.natAbs = q.2.natAbs ∧ p.2.natAbs = q.1.natAbs) := by
  have hsign (a b : Int) : a.natAbs = b.natAbs ↔ ∃ s : Int, (s = 1 ∨ s = -1) ∧ a = s * b := by
    simp [Int.natAbs_eq_natAbs_iff]
  simp only [mem_ring_origin, hsign, Prod.ext_iff]
  refine exists_congr fun q => and_congr_right fun _ => ⟨?_, ?_⟩
  · rintro ⟨sx, sy, hsx, hsy, ⟨hx, hy⟩ | ⟨hx, hy⟩⟩
    · exact .inl ⟨⟨sx, hsx, hx⟩, sy, hsy, hy⟩
    · exact .inr ⟨⟨sx, hsx, hx⟩, sy, hsy, hy⟩
  · rintro (⟨⟨sx, hsx, hx⟩, sy, hsy, hy⟩ | ⟨⟨sx, hsx, hx⟩, sy, hsy, hy⟩)
    · exact ⟨sx, sy, hsx, hsy, .inl ⟨hx, hy⟩⟩
    · exact ⟨sx, sy, hsx, hsy, .inr ⟨hx, hy⟩⟩

theorem ring_subset_disc (hp : p ∈ ringPoints 0 0 r) : p ∈ discPoints 0 0 r := by
  obtain ⟨q, hq, h⟩ := mem_ring_iff_natAbs.1 hp
  exact mem_disc_origin.2 ⟨q, hq, h.imp (And.imp_left le_of_eq) (And.imp_left le_of_eq)⟩

/-- A pair lies within r + ½ of the centre: y ≤ r, and y − ½ is inside the ideal circle. -/
theorem mem_circleIter_radius (hq : q ∈ circleIter r) : q.1 * q.1 + q.2 * q.2 ≤ r * r + r := by
  obtain ⟨hx, hxy, hy⟩ := mem_circleIter_bounds hq
  rcases (nonneg_of_mem_circleIter hq).eq_or_lt with rfl | hr
  · rw [show q.2 = 0 by omega, show q.1 = 0 by omega]
    decide
  · obtain ⟨hinside, -⟩ := mem_circleIter_nearestRow hr hq
    omega

theorem mem_disc_radius (hp : p ∈ discPoints 0 0 r) : p.1 * p.1 + p.2 * p.2 ≤ r * r + r := by
  obtain ⟨q, hq, ⟨hx, hy⟩ | ⟨hx, hy⟩⟩ := mem_disc_origin.1 hp
  all_goals
    have hradius := mem_circleIter_radius hq
    have hx := Int.natAbs_le_iff_mul_self_le.1 hx
    have hy := Int.natAbs_eq_iff_mul_self_eq.1 hy
    omega

/-- Settles O31. -/
theorem circlesStayWithinTheirRadius : Obligations.CirclesStayWithinTheirRadius := fun _ _ hp =>
  mem_disc_radius (hp.elim ring_subset_disc id)

theorem exists_mem_disc_row_iff (hr : 0 ≤ r) (j : Int) : (∃ i, (i, j) ∈ discPoints 0 0 r) ↔ -r ≤ j ∧ j ≤ r := by
  constructor
  · rintro ⟨i, h⟩
    obtain ⟨q, hq, hrow⟩ := mem_disc_origin.1 h
    obtain ⟨hx, hxy, hy⟩ := mem_circleIter_bounds hq
    dsimp only at hrow
    omega
  · rintro ⟨hlow, hhigh⟩
    obtain ⟨q, hq, hj⟩ := (midpointWalk_circleIter hr).exists_coordinate (j := j.natAbs) (by dsimp only; omega) (by dsimp only; omega)
    refine ⟨0, mem_disc_origin.2 ⟨q, hq, ?_⟩⟩
    dsimp only
    omega

theorem mem_disc_of_natAbs_le {i i' j : Int} (h : (i, j) ∈ discPoints 0 0 r) (hi : i'.natAbs ≤ i.natAbs) : (i', j) ∈ discPoints 0 0 r := by
  obtain ⟨q, hq, hrow⟩ := mem_disc_origin.1 h
  exact mem_disc_origin.2 ⟨q, hq, hrow.imp (And.imp_left hi.trans) (And.imp_left hi.trans)⟩

/-- Where a row of the disc ends a chord ends, on the ring. -/
theorem mem_ring_of_row_end {i j : Int} (hi : 0 ≤ i) (h : (i, j) ∈ discPoints 0 0 r) (hend : (i + 1, j) ∉ discPoints 0 0 r) :
    (i, j) ∈ ringPoints 0 0 r := by
  obtain ⟨q, hq, hrow⟩ := mem_disc_origin.1 h
  have hout : ¬ (_ ∨ _) := fun hrow' => hend (mem_disc_origin.2 ⟨q, hq, hrow'⟩)
  refine mem_ring_iff_natAbs.2 ⟨q, hq, ?_⟩
  dsimp only at hrow hout ⊢
  omega

theorem neg_mem_ring {i j : Int} (h : (i, j) ∈ ringPoints 0 0 r) : (-i, j) ∈ ringPoints 0 0 r := by
  obtain ⟨q, hq, h⟩ := mem_ring_iff_natAbs.1 h
  rw [← Int.natAbs_neg] at h
  exact mem_ring_iff_natAbs.2 ⟨q, hq, h⟩

/-- Settles O33. -/
theorem discRowsAreUnbroken : Obligations.DiscRowsAreUnbroken := fun _ hr =>
  ⟨fun _ => ring_subset_disc, exists_mem_disc_row_iff hr, fun _ _ _ => mem_disc_of_natAbs_le, fun _ _ hi h hend =>
    ⟨mem_ring_of_row_end hi h hend, neg_mem_ring (mem_ring_of_row_end hi h hend)⟩⟩

end Sys2Proof.Machine
end

section
/-! ## The ring is closed (R124 (b)) -/

namespace Sys2Proof.Machine

open Sys2Proof.Safety Relation

theorem adjacent_symm {p q : Point} (h : Adjacent p q) : Adjacent q p := by
  unfold Adjacent at h ⊢
  omega

/-- A symmetry of the ring: one of the eight that the eight calls of an octant point come from. -/
structure RingSymmetry (r : Int) (f : Point → Point) : Prop where
  mem : ∀ {p}, p ∈ ringPoints 0 0 r → f p ∈ ringPoints 0 0 r
  inj : Function.Injective f
  adjacent : ∀ {p q}, Adjacent p q → Adjacent (f p) (f q)

theorem RingSymmetry.comp {r : Int} {f g : Point → Point} (hf : RingSymmetry r f) (hg : RingSymmetry r g) : RingSymmetry r (f ∘ g) where
  mem h := hf.mem (hg.mem h)
  inj := hf.inj.comp hg.inj
  adjacent h := hf.adjacent (hg.adjacent h)

/-- The point with its coordinates' signs changed or kept. -/
def mirror (sx sy : Int) (p : Point) : Point := (sx * p.1, sy * p.2)

theorem ringSymmetry_mirror (r : Int) {sx sy : Int} (hsx : sx = 1 ∨ sx = -1) (hsy : sy = 1 ∨ sy = -1) :
    RingSymmetry r (mirror sx sy) where
  mem {p} h := by
    have hx : (sx * p.1).natAbs = p.1.natAbs := by rcases hsx with rfl | rfl <;> omega
    have hy : (sy * p.2).natAbs = p.2.natAbs := by rcases hsy with rfl | rfl <;> omega
    rw [mem_ring_iff_natAbs] at h ⊢
    rwa [mirror, hx, hy]
  inj p q h := by
    obtain ⟨hx, hy⟩ := Prod.ext_iff.1 h
    have hx0 : sx ≠ 0 := by omega
    have hy0 : sy ≠ 0 := by omega
    exact Prod.ext (mul_left_cancel₀ hx0 hx) (mul_left_cancel₀ hy0 hy)
  adjacent {p q} h := by
    unfold Adjacent mirror at *
    rcases hsx with rfl | rfl <;> rcases hsy with rfl | rfl <;> omega

theorem ringSymmetry_swap (r : Int) : RingSymmetry r Prod.swap where
  mem h := by
    obtain ⟨q, hq, h⟩ := mem_ring_iff_natAbs.1 h
    exact mem_ring_iff_natAbs.2 ⟨q, hq, h.symm.imp And.symm And.symm⟩
  inj := Prod.swap_injective
  adjacent := And.symm

theorem mem_ring_of_mem_circleIter {r : Int} {q : Point} (hq : q ∈ circleIter r) : q ∈ ringPoints 0 0 r :=
  mem_ring_iff_natAbs.2 ⟨q, hq, .inl ⟨rfl, rfl⟩⟩

/-- Every point of the ring is a symmetric image of a pair of CircleIter(r). -/
theorem exists_symmetry_of_mem_ring {r : Int} {p : Point} (hp : p ∈ ringPoints 0 0 r) :
    ∃ f, RingSymmetry r f ∧ ∃ q ∈ circleIter r, p = f q := by
  obtain ⟨q, hq, sx, sy, hsx, hsy, hpq | hpq⟩ := mem_ring_origin.1 hp
  · exact ⟨mirror sx sy, ringSymmetry_mirror r hsx hsy, q, hq, hpq⟩
  · exact ⟨mirror sx sy ∘ Prod.swap, (ringSymmetry_mirror r hsx hsy).comp (ringSymmetry_swap r), q, hq, hpq⟩

/-! ### Two neighbours -/

/-- At least two different 8-neighbours of the point are on the ring. -/
def HasTwoNeighbours (r : Int) (p : Point) : Prop :=
  ∃ q q' : Point, q ∈ ringPoints 0 0 r ∧ q' ∈ ringPoints 0 0 r ∧ q ≠ q' ∧ q ≠ p ∧ q' ≠ p ∧ Adjacent p q ∧ Adjacent p q'

theorem HasTwoNeighbours.image {r : Int} {f : Point → Point} (hf : RingSymmetry r f) {p : Point} (h : HasTwoNeighbours r p) :
    HasTwoNeighbours r (f p) := by
  obtain ⟨q, q', hq, hq', hne, hqp, hqp', hadj, hadj'⟩ := h
  exact ⟨f q, f q', hf.mem hq, hf.mem hq', hf.inj.ne hne, hf.inj.ne hqp, hf.inj.ne hqp', hf.adjacent hadj, hf.adjacent hadj'⟩

/-- At the end of the octant x and y are equal or x is one less. -/
theorem last_on_diagonal {r : Int} {q : Point} (hr : 0 ≤ r) (hlast : (circleIter r).getLast? = some q) : q.2 = q.1 ∨ q.2 = q.1 + 1 := by
  obtain ⟨-, hxy, -⟩ := mem_circleIter_bounds (List.mem_of_getLast? hlast)
  have hend := (midpointWalk_circleIter hr).last_end hlast
  have hrow := midpointNext_snd r q
  rw [midpointNext_fst] at hend
  omega

theorem last_adjacent_swap {r : Int} {q : Point} (hr : 0 ≤ r) (hlast : (circleIter r).getLast? = some q) : Adjacent q q.swap := by
  have hdiag := last_on_diagonal hr hlast
  simp only [Adjacent, Prod.fst_swap, Prod.snd_swap]
  omega

/-- A pair's neighbour on the side of the diagonal: the next pair, or across the diagonal the mirror image of the last pair itself or, if
that one is on the diagonal, of the pair before it. -/
theorem exists_neighbour_right {r : Int} {p : Point} (hr : 1 ≤ r) (hp : p ∈ circleIter r) :
    ∃ q ∈ ringPoints 0 0 r, q ≠ p ∧ Adjacent p q ∧ p.1 ≤ q.1 ∧ 1 ≤ q.1 := by
  have hwalk := midpointWalk_circleIter (r := r) (by omega)
  obtain ⟨hx, hxy, hy⟩ := mem_circleIter_bounds hp
  have hswap {q : Point} (hq : q ∈ circleIter r) := (ringSymmetry_swap r).mem (mem_ring_of_mem_circleIter hq)
  rcases hwalk.last_or_next_mem hp with hlast | hnext
  · rcases last_on_diagonal (by omega) hlast with hdiag | hdiag
    · rcases hwalk.start_or_next_of_mem p hp with rfl | ⟨q, hq, rfl⟩
      · exact absurd hdiag (show r ≠ 0 by omega)
      · obtain ⟨hqx, -, -⟩ := mem_circleIter_bounds hq
        have hrow := midpointNext_snd r q
        have hcolumn := midpointNext_fst r q
        exact ⟨q.swap, hswap hq, ne_of_apply_ne Prod.snd (show q.1 ≠ _ by omega),
          ⟨show (q.2 - _).natAbs ≤ 1 by omega, show (q.1 - _).natAbs ≤ 1 by omega⟩, show _ ≤ q.2 by omega, show 1 ≤ q.2 by omega⟩
    · exact ⟨p.swap, hswap hp, ne_of_apply_ne Prod.fst (show p.2 ≠ p.1 by omega), last_adjacent_swap (by omega) hlast, hxy,
        show 1 ≤ p.2 by omega⟩
  · have hcolumn := midpointNext_fst r p
    exact ⟨_, mem_ring_of_mem_circleIter hnext, ne_of_apply_ne Prod.fst (by omega), adjacent_midpointNext r p, by omega, by omega⟩

/-- A pair's neighbour on the side of the axis: the pair before it, or across the axis the mirror image of the first pair's neighbour. -/
theorem exists_neighbour_left {r : Int} {p : Point} (hr : 1 ≤ r) (hp : p ∈ circleIter r) :
    ∃ q ∈ ringPoints 0 0 r, Adjacent p q ∧ q.1 < p.1 := by
  rcases (midpointWalk_circleIter (r := r) (by omega)).start_or_next_of_mem p hp with rfl | ⟨q, hq, rfl⟩
  · obtain ⟨q, hq, -, hadj, -, hpos⟩ := exists_neighbour_right hr hp
    have hmirror := ringSymmetry_mirror r (sx := -1) (sy := 1) (.inr rfl) (.inl rfl)
    refine ⟨mirror (-1) 1 q, hmirror.mem hq, ?_, ?_⟩
    · simpa [mirror] using hmirror.adjacent hadj
    · change -1 * q.1 < 0
      omega
  · exact ⟨q, mem_ring_of_mem_circleIter hq, adjacent_symm (adjacent_midpointNext r q), by rw [midpointNext_fst]; omega⟩

theorem hasTwoNeighbours_of_mem_ring {r : Int} (hr : 1 ≤ r) {p : Point} (hp : p ∈ ringPoints 0 0 r) : HasTwoNeighbours r p := by
  obtain ⟨f, hf, p, hpair, rfl⟩ := exists_symmetry_of_mem_ring hp
  refine .image hf ?_
  obtain ⟨q, hq, hne, hadj, hright, -⟩ := exists_neighbour_right hr hpair
  obtain ⟨q', hq', hadj', hleft⟩ := exists_neighbour_left hr hpair
  refine ⟨q, q', hq, hq', fun h => ?_, hne, fun h => ?_, hadj, hadj'⟩
  · rw [h] at hright
    omega
  · rw [h] at hleft
    omega

/-! ### Paths -/

/-- A move from one point of the ring to the same or a neighbouring one. -/
def RingStep (r : Int) (p q : Point) : Prop := p ∈ ringPoints 0 0 r ∧ q ∈ ringPoints 0 0 r ∧ Adjacent p q

theorem ringPath_symm {r : Int} {p q : Point} (h : ReflTransGen (RingStep r) p q) : ReflTransGen (RingStep r) q p :=
  have : Std.Symm (RingStep r) := ⟨fun _ _ ⟨hp, hq, hadj⟩ => ⟨hq, hp, adjacent_symm hadj⟩⟩
  symm h

theorem RingSymmetry.path {r : Int} {f : Point → Point} (hf : RingSymmetry r f) {p q : Point} (h : ReflTransGen (RingStep r) p q) :
    ReflTransGen (RingStep r) (f p) (f q) :=
  h.lift f fun _ _ ⟨hp, hq, hadj⟩ => ⟨hf.mem hp, hf.mem hq, hf.adjacent hadj⟩

/-- Along the octant: from the axis point to every pair. -/
theorem ringPath_octant {r : Int} (hr : 0 ≤ r) : ∀ q ∈ circleIter r, ReflTransGen (RingStep r) (0, r) q :=
  (midpointWalk_circleIter hr).induct .refl fun q hq hnext _ h =>
    h.tail ⟨mem_ring_of_mem_circleIter hq, mem_ring_of_mem_circleIter hnext, adjacent_midpointNext r q⟩

/-- Along two octants, across the diagonal at their last points: from one axis point to the other. -/
theorem ringPath_quadrant {r : Int} (hr : 0 ≤ r) : ReflTransGen (RingStep r) (0, r) (r, 0) := by
  obtain ⟨q, hlast⟩ := (midpointWalk_circleIter hr).exists_last
  have hq := List.mem_of_getLast? hlast
  have hring := mem_ring_of_mem_circleIter hq
  have hswap := ringSymmetry_swap r
  have hhere : ReflTransGen (RingStep r) (0, r) q := ringPath_octant hr q hq
  have hacross : RingStep r q q.swap := ⟨hring, hswap.mem hring, last_adjacent_swap hr hlast⟩
  exact (hhere.tail hacross).trans (hswap.path (ringPath_symm hhere))

/-- Every quadrant has the axis points its signs give: all four are joined. -/
theorem ringPath_mirrored_quadrant {r : Int} (hr : 0 ≤ r) {sx sy : Int} (hsx : sx = 1 ∨ sx = -1) (hsy : sy = 1 ∨ sy = -1) :
    ReflTransGen (RingStep r) (0, sy * r) (sx * r, 0) := by
  simpa [mirror] using (ringSymmetry_mirror r hsx hsy).path (ringPath_quadrant hr)

theorem ringPath_from_axis {r : Int} (hr : 0 ≤ r) {p : Point} (hp : p ∈ ringPoints 0 0 r) : ReflTransGen (RingStep r) (0, r) p := by
  obtain ⟨q, hq, sx, sy, hsx, hsy, rfl | rfl⟩ := mem_ring_origin.1 hp
  all_goals have hmirror := ringSymmetry_mirror r hsx hsy
  · have hopposite : ReflTransGen (RingStep r) (r, 0) (0, sy * r) := by
      simpa using ringPath_symm (ringPath_mirrored_quadrant hr (.inl rfl) hsy)
    have hoctant : ReflTransGen (RingStep r) (0, sy * r) (sx * q.1, sy * q.2) := by
      simpa [mirror] using hmirror.path (ringPath_octant hr q hq)
    exact (ringPath_quadrant hr).trans (hopposite.trans hoctant)
  · have hfirst : ReflTransGen (RingStep r) (0, r) (sx * r, 0) := by
      simpa using ringPath_mirrored_quadrant hr hsx (.inl rfl)
    have hoctant : ReflTransGen (RingStep r) (sx * r, 0) (sx * q.2, sy * q.1) := by
      simpa [mirror] using (hmirror.comp (ringSymmetry_swap r)).path (ringPath_octant hr q hq)
    exact hfirst.trans hoctant

theorem ringPath {r : Int} (hr : 0 ≤ r) {p q : Point} (hp : p ∈ ringPoints 0 0 r) (hq : q ∈ ringPoints 0 0 r) :
    ReflTransGen (RingStep r) p q := (ringPath_symm (ringPath_from_axis hr hp)).trans (ringPath_from_axis hr hq)

/-! ### The octants' ends -/

theorem axis_points_mem_ring {r : Int} (hr : 0 ≤ r) :
    (0, r) ∈ ringPoints 0 0 r ∧ (0, -r) ∈ ringPoints 0 0 r ∧ (r, 0) ∈ ringPoints 0 0 r ∧ (-r, 0) ∈ ringPoints 0 0 r := by
  have hstart := (midpointWalk_circleIter hr).start_mem
  refine ⟨mem_ring_of_mem_circleIter hstart, ?_, ?_, ?_⟩ <;>
    exact mem_ring_iff_natAbs.2 ⟨_, hstart, by dsimp only; omega⟩

theorem octants_meet_across_diagonal {r : Int} (hr : 0 ≤ r) {p : Point} (hlast : (circleIter r).getLast? = some p) {sx sy : Int}
    (hsx : sx = 1 ∨ sx = -1) (hsy : sy = 1 ∨ sy = -1) :
    (sx * p.1, sy * p.2) ∈ ringPoints 0 0 r ∧ (sx * p.2, sy * p.1) ∈ ringPoints 0 0 r ∧
      Adjacent (sx * p.1, sy * p.2) (sx * p.2, sy * p.1) := by
  have hring := mem_ring_of_mem_circleIter (List.mem_of_getLast? hlast)
  have hmirror := ringSymmetry_mirror r hsx hsy
  exact ⟨hmirror.mem hring, hmirror.mem ((ringSymmetry_swap r).mem hring), hmirror.adjacent (last_adjacent_swap hr hlast)⟩

/-- Settles O32. -/
theorem ringIsClosed : Obligations.RingIsClosed := fun r hr =>
  have hr0 : 0 ≤ r := by omega
  ⟨fun _ => hasTwoNeighbours_of_mem_ring hr, fun _ _ => ringPath hr0, axis_points_mem_ring hr0,
    fun _ hlast _ _ => octants_meet_across_diagonal hr0 hlast⟩

end Sys2Proof.Machine
end

/-! # Proofs: text (spec/44_glyph_text.md)

A glyph and a string are lists of SetPixel calls. A string is its supported characters, each at the cursor before it, as far as the first
one the stop test drops: the cursor never moves back, so the test drops every character after that one too. -/

section
/-! ## Well-formed fonts and configurations (R131) -/

namespace Sys2Proof

/-- A condition on every byte value is one on every byte. -/
theorem forall_lt_256_iff {P : Byte → Prop} : (∀ n < 256, P (BitVec.ofNat 8 n)) ↔ ∀ code, P code :=
  ⟨fun h code => by simpa only [BitVec.ofNat_toNat, BitVec.setWidth_eq] using h code.toNat code.isLt, fun h n _ => h _⟩

theorem Font.supports_iff {F : Font} {code : Byte} : F.supports code = true ↔ F.asciiBegin ≤ code ∧ code ≤ F.asciiEnd := by
  simp only [Font.supports, Bool.and_eq_true, decide_eq_true_eq]

/-- Conditions (a) to (d) of R131. -/
theorem Font.wf_iff (F : Font) : F.wf = true ↔
    (F.asciiOffset.toNat ≤ F.asciiBegin.toNat ∧ F.asciiBegin.toNat ≤ F.asciiEnd.toNat ∧ F.asciiEnd.toNat ≤ 255) ∧
    (1 ≤ F.bytesPerColumn ∧ 1 ≤ F.glyphStride ∧ 1 ≤ F.interLetterSpacingDivisor ∧ 0 ≤ F.fontHeight) ∧
    (F.asciiEnd.toNat - F.asciiOffset.toNat + 1) * F.glyphStride ≤ F.table.length ∧
    (∀ code : Byte, F.supports code = true → 1 + F.glyphWidth code * F.bytesPerColumn ≤ F.glyphStride) := by
  have hend : F.asciiEnd.toNat ≤ 255 := Nat.le_of_lt_succ F.asciiEnd.isLt
  have hcodes := forall_lt_256_iff (P := fun code => F.supports code = true → 1 + F.glyphWidth code * F.bytesPerColumn ≤ F.glyphStride)
  simp only [Font.wf, Bool.and_eq_true, decide_eq_true_eq, List.all_eq_true, List.mem_range, Bool.or_eq_true, Bool.not_eq_true',
    ← Bool.not_eq_true, ← imp_iff_not_or, hcodes, BitVec.le_def, hend, Nat.zero_le, and_true, and_assoc]

/-- The record of a supported code starts inside the table and is wholly inside it: the table holds a record for each code up to the
last one. -/
theorem Font.record_in_table {F : Font} (hwf : F.wf = true) {code : Byte} (hs : F.supports code = true) :
    F.glyphBase code < F.table.length ∧ F.glyphBase code + F.glyphStride ≤ F.table.length := by
  obtain ⟨-, ⟨-, hstride, -⟩, htable, -⟩ := F.wf_iff.1 hwf
  have hcode : code.toNat - F.asciiOffset.toNat ≤ F.asciiEnd.toNat - F.asciiOffset.toNat :=
    Nat.sub_le_sub_right (BitVec.le_def.1 (Font.supports_iff.1 hs).2) _
  have hrecord : F.glyphBase code + F.glyphStride ≤ F.table.length :=
    calc F.glyphBase code + F.glyphStride
        = (code.toNat - F.asciiOffset.toNat + 1) * F.glyphStride := (Nat.succ_mul _ _).symm
      _ ≤ (F.asciiEnd.toNat - F.asciiOffset.toNat + 1) * F.glyphStride := Nat.mul_le_mul_right _ (Nat.succ_le_succ hcode)
      _ ≤ F.table.length := htable
  exact ⟨by omega, hrecord⟩

/-- The columns fill the record from its second byte on, and no further than the width byte says. -/
theorem Font.glyphByte_in_record {F : Font} (hwf : F.wf = true) {code : Byte} (hs : F.supports code = true) {j b : Nat}
    (hj : j < F.glyphWidth code) (hb : b < F.bytesPerColumn) : 1 + j * F.bytesPerColumn + b < F.glyphStride := by
  obtain ⟨-, -, -, hfits⟩ := F.wf_iff.1 hwf
  have hcolumns : j * F.bytesPerColumn + F.bytesPerColumn ≤ F.glyphWidth code * F.bytesPerColumn :=
    (Nat.succ_mul _ _).symm.trans_le (Nat.mul_le_mul_right _ hj)
  have hwidth := hfits code hs
  omega

/-- Settles O34: that a record is inside the table is condition (c), that a byte is inside the record condition (d). -/
theorem fontReadsStayInTheirRecord : Obligations.FontReadsStayInTheirRecord := by
  refine fun F => ⟨F.wf_iff, fun hwf code hs => ⟨Font.record_in_table hwf hs, fun j b hj hb => ?_⟩⟩
  have hbyte := Font.glyphByte_in_record hwf hs hj hb
  omega

/-- Settles O11: the configuration is the first thing a step tests. -/
theorem illFormedConfigurationIsRefused : Obligations.IllFormedConfigurationIsRefused := fun s h => by
  rw [Machine.step, h, if_neg Bool.false_ne_true]

end Sys2Proof
end

section
/-! ## The glyph a code selects (R132) -/

namespace Sys2Proof.Machine

variable {cfg : Config} {f : Byte}

theorem selectGlyph_of_unknown (h : cfg.font f = none) (code : Byte) : selectGlyph cfg f code = none := by
  rw [selectGlyph, h]

theorem selectGlyph_of_font {F : Font} (h : cfg.font f = some F) (code : Byte) :
    selectGlyph cfg f code = if F.supports code then some F else none := by
  rw [selectGlyph, h]

theorem selectGlyph_of_unsupported {F : Font} (h : cfg.font f = some F) {code : Byte} (hs : F.supports code = false) :
    selectGlyph cfg f code = none := by
  rw [selectGlyph_of_font h, hs, if_neg Bool.false_ne_true]

/-- A character that selects no glyph plots nothing (R132). -/
theorem charPoints_of_none {code : Byte} (h : selectGlyph cfg f code = none) (x y : Int) : charPoints cfg x y f code = [] := by
  rw [charPoints, h]

/-- Nor does it move the cursor, not even by the gap (R135). -/
theorem cursorAdvance_of_none {code : Byte} (h : selectGlyph cfg f code = none) : cursorAdvance cfg f code = 0 := by
  rw [cursorAdvance, h]

theorem charPoints_of_some {code : Byte} {F : Font} (h : selectGlyph cfg f code = some F) (x y : Int) :
    charPoints cfg x y f code = glyphPoints F code x y := by
  rw [charPoints, h]

theorem cursorAdvance_of_font {F : Font} (h : cfg.font f = some F) (code : Byte) : cursorAdvance cfg f code =
    if F.supports code then F.glyphWidth code + F.fontHeight / F.interLetterSpacingDivisor else 0 := by
  rw [cursorAdvance, selectGlyph_of_font h]
  split_ifs <;> rfl

theorem mem_charPoints {F : Font} (h : cfg.font f = some F) {code : Byte} {x y : Int} {p : Point} :
    p ∈ charPoints cfg x y f code ↔ F.supports code = true ∧ p ∈ glyphPoints F code x y := by
  cases hs : F.supports code with
  | true =>
    rw [charPoints_of_some (selectGlyph_eq_some.2 ⟨h, hs⟩)]
    exact (and_iff_right rfl).symm
  | false =>
    rw [charPoints_of_none (selectGlyph_of_unsupported h hs)]
    exact iff_of_false List.not_mem_nil fun ⟨hs, _⟩ => Bool.false_ne_true hs

end Sys2Proof.Machine
end

section
/-! ## DRAW_CHAR (R132, R133) -/

namespace Sys2Proof

open Sys2Proof.Safety

theorem encodedAs_drawChar (c : Bool) (x0 x1 y0 y1 font code : Byte) :
    EncodedAs (.drawChar c (halfOf x0 x1) (halfOf y0 y1) font code) [0x30#8 ||| colourBit c, x0, x1, y0, y1, font, code] := by
  have h := encodedAs_encode (i := .drawChar c (halfOf x0 x1) (halfOf y0 y1) font code) rfl
  simpa only [encode, loByte_halfOf, hiByte_halfOf] using h

end Sys2Proof

namespace Sys2Proof.Machine

open Sys2Proof.Safety

/-- With no glyph selected the command is complete at once. -/
theorem exec_drawChar_of_none {s : State} {font code : Byte} (h : selectGlyph s.cfg font code = none) (c : Bool) (x y : Half) :
    exec (.drawChar c x y font code) s = .next s := by
  rw [exec, execDrawChar, h, Option.bind_none, State.begin_none]

/-- Settles O35: a code out of range selects no glyph, and the points of a selected one are its set bits. -/
theorem drawCharPaintsTheGlyph : Obligations.DrawCharPaintsTheGlyph := by
  refine ⟨encodedAs_drawChar, fun c x y font code s hw hfb hi => ⟨fun hfont => ?_, fun F hF => ⟨fun hcode => ?_, fun hlow hhigh => ?_⟩⟩⟩
  · exact exec_drawChar_of_none (selectGlyph_of_unknown (List.getElem?_eq_none hfont) code) c x y
  · have hs : F.supports code = false := Bool.eq_false_iff.2 fun hs => by
      obtain ⟨hlow, hhigh⟩ := Font.supports_iff.1 hs
      exact hcode.elim (BitVec.not_lt.2 hlow) (BitVec.not_lt.2 hhigh)
    exact exec_drawChar_of_none (selectGlyph_of_unsupported hF hs) c x y
  · have hglyph := charPoints_of_some (selectGlyph_eq_some.2 ⟨hF, Font.supports_iff.2 ⟨hlow, hhigh⟩⟩)
    obtain ⟨u, hu, hc⟩ := drawing_completes (i := .drawChar c x y font code) rfl hw hi
    exact ⟨u, _, hu, hc, painted_plot hfb fun p _ => by rw [hglyph, mem_glyphPoints]; rfl⟩

end Sys2Proof.Machine
end

section
/-! ## The text cursor and the points of a string (R135, R137) -/

namespace Sys2Proof.Machine

open Sys2Proof.Safety

variable {cfg : Config} {f : Byte}

@[simp] theorem cursorBefore_zero (cx : Int) (text : List Byte) : cursorBefore cfg f cx text 0 = cx := by
  simp [cursorBefore]

/-- Before a character of the rest the cursor has moved past the first character. -/
theorem cursorBefore_cons_succ (cx : Int) (code : Byte) (rest : List Byte) (i : Nat) :
    cursorBefore cfg f cx (code :: rest) (i + 1) = cursorBefore cfg f (cx + cursorAdvance cfg f code) rest i := by
  simp [cursorBefore, add_assoc]

/-- After character `i` the cursor has moved by what that character moves it. -/
theorem cursorBefore_succ (cx : Int) {text : List Byte} {i : Nat} {code : Byte} (h : text[i]? = some code) :
    cursorBefore cfg f cx text (i + 1) = cursorBefore cfg f cx text i + cursorAdvance cfg f code := by
  simp [cursorBefore, List.take_add_one, h, add_assoc]

/-- The cursor never moves back (R137). -/
theorem le_cursorBefore (cx : Int) (text : List Byte) (i : Nat) : cx ≤ cursorBefore cfg f cx text i :=
  Int.le_add_of_nonneg_right (Int.natCast_nonneg _)

/-- A string whose first character is dropped has no points. -/
theorem stringPoints_of_stop {cx y : Int} (h : cx ≥ cfg.width ∨ y ≥ cfg.height) (text : List Byte) :
    stringPoints cfg f y cx text = [] := by
  cases text with
  | nil => rfl
  | cons code rest => rw [stringPoints, if_pos h]

/-- The points of a string are those of its characters, each at the cursor before it, that the stop test does not drop. -/
theorem mem_stringPoints {y : Int} {p : Point} {text : List Byte} {cx : Int} : p ∈ stringPoints cfg f y cx text ↔
    ∃ (i : Nat) (code : Byte), text[i]? = some code ∧ y < cfg.height ∧ cursorBefore cfg f cx text i < cfg.width ∧
      p ∈ charPoints cfg (cursorBefore cfg f cx text i) y f code := by
  induction text generalizing cx with
  | nil => simp [stringPoints]
  | cons code rest ih =>
    by_cases hstop : cx ≥ cfg.width ∨ y ≥ cfg.height
    · rw [stringPoints_of_stop hstop]
      refine iff_of_false List.not_mem_nil ?_
      rintro ⟨i, -, -, hy, hcursor, -⟩
      have hback := le_cursorBefore (cfg := cfg) (f := f) cx (code :: rest) i
      omega
    · obtain ⟨hcx, hy⟩ := not_or.1 hstop
      rw [stringPoints, if_neg hstop, List.mem_append, ih]
      refine Iff.trans ?_ Nat.or_exists_add_one
      simp [cursorBefore_cons_succ, not_le.1 hcx, not_le.1 hy]

/-- A character that selects no glyph can be left out of a string, wherever it stands (R135). -/
theorem stringPoints_append_cons_of_none {code : Byte} (h : selectGlyph cfg f code = none) (y : Int) (back : List Byte) :
    ∀ (front : List Byte) (cx : Int), stringPoints cfg f y cx (front ++ code :: back) = stringPoints cfg f y cx (front ++ back)
  | [], cx => by
    by_cases hstop : cx ≥ cfg.width ∨ y ≥ cfg.height
    · rw [stringPoints_of_stop hstop, stringPoints_of_stop hstop]
    · rw [List.nil_append, stringPoints, if_neg hstop, charPoints_of_none h, cursorAdvance_of_none h, Nat.cast_zero, add_zero]
      rfl
  | first :: front, cx => by
    simp only [List.cons_append, stringPoints, stringPoints_append_cons_of_none h y back front]

theorem drawStringPoints_of_font {F : Font} (h : cfg.font f = some F) (x y : Int) (text : List Byte) :
    drawStringPoints cfg x y f text = stringPoints cfg f y x text := by
  rw [drawStringPoints, h]

end Sys2Proof.Machine
end

section
/-! ## DRAW_STRING (R134, R135) -/

namespace Sys2Proof

open Sys2Proof.Safety

theorem encodedAs_drawString (c : Bool) (x0 x1 y0 y1 font : Byte) (text : List Byte) (hlen : text.length ≤ 255) :
    EncodedAs (.drawString c (halfOf x0 x1) (halfOf y0 y1) font text)
      ([0x32#8 ||| colourBit c, x0, x1, y0, y1, font, BitVec.ofNat 8 text.length] ++ text) := by
  have h := encodedAs_encode (i := .drawString c (halfOf x0 x1) (halfOf y0 y1) font text) (decide_eq_true hlen)
  simpa only [encode, loByte_halfOf, hiByte_halfOf, List.cons_append, List.nil_append] using h

end Sys2Proof

namespace Sys2Proof.Machine

open Sys2Proof.Safety

/-- For an unknown font number the command is complete at once (log 14). -/
theorem exec_drawString_of_unknown {s : State} {font : Byte} (h : s.cfg.font font = none) (c : Bool) (x y : Half) (text : List Byte) :
    exec (.drawString c x y font text) s = .next s := by
  rw [exec, execDrawString, h, Option.map_none, State.begin_none]

/-- For a known one it begins before the first character, the cursor at x. -/
theorem exec_drawString_of_font {s : State} {font : Byte} {F : Font} (h : s.cfg.font font = some F) (c : Bool) (x y : Half)
    (text : List Byte) :
    exec (.drawString c x y font text) s = .next (s.begin (some (.drawString c x y font text 0 (signedOperand x) none))) := by
  rw [exec, execDrawString, h, Option.map_some]

theorem drawString_completes {s : State} {font : Byte} {F : Font} (h : s.cfg.font font = some F) (hw : s.cfg.wf = true) (hi : s.cur = .idle)
    (c : Bool) (x y : Half) (text : List Byte) : ∃ u, exec (.drawString c x y font text) s = .next u ∧
      Completes u (s.plot c (stringPoints s.cfg font (signedOperand y) (signedOperand x) text)) := by
  rw [← drawStringPoints_of_font h]
  exact drawing_completes (i := .drawString c x y font text) rfl hw hi

/-- From the first character the passes come to character `i`, the cursor moved past those before it, if the stop test has dropped none of
them (R135). -/
theorem plots_until_character (cfg : Config) (c : Bool) (x y : Half) (font : Byte) (text : List Byte) :
    ∀ i ≤ text.length,
      (∀ j < i, signedOperand y < cfg.height ∧ cursorBefore cfg font (signedOperand x) text j < cfg.width) →
      ∃ ps, Plots cfg c (some (.drawString c x y font text i (cursorBefore cfg font (signedOperand x) text i) none))
        (some (.drawString c x y font text 0 (signedOperand x) none)) ps
  | 0, _, _ => ⟨[], by rw [cursorBefore_zero]; exact .done⟩
  | i + 1, hi, hkept => by
    have hcode : text[i]? = some text[i] := List.getElem?_eq_getElem hi
    obtain ⟨hy, hcursor⟩ := hkept i i.lt_succ_self
    obtain ⟨ps, hps⟩ := plots_until_character cfg c x y font text i (Nat.le_of_succ_le hi) fun j hj => hkept j (Nat.lt_succ_of_lt hj)
    have hcharacter := plots_character cfg c x y font text i _ hcode (not_or.2 ⟨not_le.2 hcursor, not_le.2 hy⟩)
    rw [drawStringAdvance, ← cursorBefore_succ _ hcode] at hcharacter
    exact ⟨_, hps.trans hcharacter⟩

/-- Settles O36: the whole command plots the points of the string, and its passes come to every character that is not dropped. -/
theorem drawStringPaintsEachGlyph : Obligations.DrawStringPaintsEachGlyph := by
  refine ⟨encodedAs_drawString, fun c x y font text s hw hfb hi =>
    ⟨fun hfont => exec_drawString_of_unknown hfont c x y text, fun F hF => ⟨cursorAdvance_of_font hF, ?_⟩⟩⟩
  obtain ⟨u, hu, hc⟩ := drawString_completes hF hw hi c x y text
  refine ⟨u, _, hu, hc, painted_plot hfb fun p _ => ?_, fun i hle hkept => ?_⟩
  · simp only [mem_stringPoints, mem_charPoints hF]
    exact exists₂_congr fun i code => by tauto
  · obtain ⟨ps, hps⟩ := plots_until_character s.cfg c x y font text i hle hkept
    obtain ⟨n, hn, -⟩ := hps.run hw rfl hi
    cases (exec_drawString_of_font hF c x y text).symm.trans hu
    exact ⟨n, _, hn, rfl⟩

/-- Settles O37: the two commands make the same calls of SetPixel. -/
theorem unsupportedCharactersAreSkipped : Obligations.UnsupportedCharactersAreSkipped := by
  intro c x y font code front back s F hw hi hF hs
  obtain ⟨u, hu, hc⟩ := drawString_completes hF hw hi c x y (front ++ code :: back)
  obtain ⟨u', hu', hc'⟩ := drawString_completes hF hw hi c x y (front ++ back)
  rw [stringPoints_append_cons_of_none (selectGlyph_of_unsupported hF hs)] at hc
  exact ⟨u, u', _, hu, hu', hc, hc'⟩

end Sys2Proof.Machine
end

section
/-! ## FORMAT_PRINT (R71, R139) -/

namespace Sys2Proof.Machine

/-- A string of FMT_CAP characters or fewer fits a packet, since FMT_CAP does (R6). -/
theorem wf_drawString_of_le_fmtCap {cfg : Config} (hw : cfg.wf = true) {text : List Byte} (h : text.length ≤ cfg.fmtCap) (c : Bool)
    (x y : Half) (font : Byte) : (Instr.drawString c x y font text).wf = true :=
  decide_eq_true (h.trans (fmtCap_of_wf hw))

/-- Settles O38: the text is a front of the formatted string. -/
theorem formatPrintIsOneCappedString : Obligations.FormatPrintIsOneCappedString := fun cfg c x y font formatted hw =>
  ⟨formatted.take cfg.fmtCap, rfl, ⟨formatted.drop cfg.fmtCap, (List.take_append_drop ..).symm⟩,
    List.length_take.trans (Nat.min_comm ..), wf_drawString_of_le_fmtCap hw (List.length_take_le ..) c x y font⟩

end Sys2Proof.Machine
end

/-! # Proofs: the display controller (spec/45_display_controller.md)

INIT and FLUSH are run by one lemma about a sequence of calls: with a transport that accepts them all, each step completes one. What their
calls are is read off their sequences. No other command reads the controller. -/

section
/-! ## A sequence of calls and a transport that accepts them (R151, R155, spec/46_transport.md R176) -/

namespace Sys2Proof.Machine

open Sys2Proof.Safety

/-- The transport agent after it accepts `n` calls in a row; none when it stops before the last of them. -/
def Transport.acceptMany (tr : Transport) : Nat → Option Transport
  | 0 => some tr
  | n + 1 => tr.accept.bind fun tr' => tr'.acceptMany n

@[simp] theorem acceptMany_fair (n : Nat) : Transport.acceptMany .fair n = some .fair := by
  induction n with
  | zero => rfl
  | succ n ih => exact ih

theorem acceptMany_accepts {m n : Nat} (h : n ≤ m) : (Transport.accepts m).acceptMany n = some (.accepts (m - n)) := by
  induction n generalizing m with
  | zero => rfl
  | succ n ih =>
    obtain ⟨m, rfl⟩ := Nat.exists_eq_add_of_le' (Nat.one_le_of_lt h)
    rw [Nat.add_sub_add_right]
    exact ih (Nat.le_of_succ_le_succ h)

/-- The step of an INIT or FLUSH in progress is one of its sequence `l`, wherever the command, begun in `s`, stands in it. -/
def StepsThrough (s : State) (l : List ControllerAction) (busy : Nat → Cur) : Prop :=
  ∀ n tr k, (s.afterCalls l busy n tr).cur = busy k →
    step (s.afterCalls l busy n tr) = .next ((s.afterCalls l busy n tr).stepController l busy k)

theorem step_of_cur_init {s : State} {k : Nat} (hw : s.cfg.wf = true) (hc : s.cur = .init k) : step s = .next (stepInit k s) := by
  simp [step, hw, stepCore, hc]

theorem step_of_cur_flush {s : State} {k : Nat} (hw : s.cfg.wf = true) (hc : s.cur = .flush k) : step s = .next (stepFlush k s) := by
  simp [step, hw, stepCore, hc]

theorem stepsThrough_init {s : State} (hw : s.cfg.wf = true) : StepsThrough s (initSequence s.cfg) .init :=
  fun n tr _ hc => step_of_cur_init (s := s.afterCalls _ .init n tr) hw hc

theorem stepsThrough_flush {s : State} (hw : s.cfg.wf = true) : StepsThrough s (flushSequence s.cfg s.fb) .flush :=
  fun n tr _ hc => step_of_cur_flush (s := s.afterCalls _ .flush n tr) hw hc

/-- With a transport that accepts the next `m` calls, `m` steps complete them. -/
theorem StepsThrough.run {s : State} {l : List ControllerAction} {busy : Nat → Cur} (hstep : StepsThrough s l busy) {m n : Nat}
    {tr tr' : Transport} (hle : n + m ≤ (callsOf l).length) (htr : tr.acceptMany m = some tr') :
    core.run m (s.afterCalls l busy n tr) = .next (s.afterCalls l busy (n + m) tr') := by
  induction m generalizing n tr with
  | zero => cases htr; rfl
  | succ m ih =>
    obtain ⟨tr₁, hacc, htr⟩ := Option.bind_eq_some_iff.1 htr
    obtain ⟨k, -, hcur, -, -, -, -, -, -, hnext⟩ := afterCalls_of_lt s l busy n tr (by omega)
    have hone : step (s.afterCalls l busy n tr) = .next (s.afterCalls l busy (n + 1) tr₁) := by
      rw [hstep n tr k hcur, hnext tr₁ hacc]
    rw [run_succ hone, ih (by omega) htr, Nat.add_right_comm, Nat.add_assoc]

/-- With a transport that accepts all its calls, the command is complete after as many steps: TX has grown by the calls, DCS is as last
assigned, and nothing else of the block has changed. -/
theorem StepsThrough.run_all {s : State} {l : List ControllerAction} {busy : Nat → Cur} (hstep : StepsThrough s l busy) {tr : Transport}
    (htr : s.transport.acceptMany (callsOf l).length = some tr) : core.run (callsOf l).length (s.offerFrom l busy 0) =
      .next { s with tx := s.tx ++ callsOf l, dcs := dcsAfter s.dcs l, cur := .idle, transport := tr } := by
  rw [offerFrom_zero, hstep.run (Nat.zero_add _).le htr, afterCalls_of_le s l busy _ tr (Nat.zero_add _).ge]

end Sys2Proof.Machine
end

section
/-! ## INIT (R151, R152) -/

namespace Sys2Proof.Machine

open Sys2Proof.Safety

theorem encodedAs_init : EncodedAs .init [0x40#8] := encodedAs_encode (i := .init) rfl

/-- The script's bytes are those of its fourteen steps, step 14 the last (R151, R152). -/
theorem scriptBytes_eq (script : InitScript) : script.configurationBytes ++ script.displayOnBytes =
    (script.configuration ++ [script.displayOn]).flatMap ScriptStep.bytes := by
  rw [List.flatMap_append, List.flatMap_singleton]
  rfl

theorem exec_init_of_ne {s : State} (h : s.dcs ≠ .uninitialized) : exec .init s = .next s := congrArg _ (if_neg h)

/-- INIT begins: the transport is brought up and the `reset()` offered, which is action 1 of the sequence. -/
theorem exec_init_of_uninitialized {s : State} (h : s.dcs = .uninitialized) :
    exec .init s = .next { s with dcs := .transportReady, cur := .init 1 } := congrArg _ (if_pos h)

theorem run_init {s : State} (hw : s.cfg.wf = true) {tr : Transport}
    (htr : s.transport.acceptMany (initCalls s.cfg).length = some tr) :
    core.run (initCalls s.cfg).length { s with dcs := .transportReady, cur := .init 1 } =
      .next { s with dcs := .on, tx := s.tx ++ initCalls s.cfg, cur := .idle, transport := tr } := by
  have hrun := (stepsThrough_init hw).run_all (tr := tr) (by rwa [callsOf_initSequence])
  rwa [callsOf_initSequence, dcsAfter_initSequence] at hrun

/-- Settles O39: the steps of INIT go through its sequence, whose calls are one `reset()` and the script. -/
theorem initSendsTheScript : Obligations.InitSendsTheScript := by
  refine ⟨encodedAs_init, fun s => ⟨?_, fun hd => ?_, exec_init_of_ne⟩⟩
  · rw [initCalls, scriptBytes_eq]
    rfl
  · refine ⟨1, _, exec_init_of_uninitialized hd, rfl, rfl, rfl, fun hw htr => ?_, fun n hw htr hn => ?_⟩
    · have hrun := run_init hw (by rw [htr, acceptMany_fair])
      rwa [← htr] at hrun
    · exact run_init hw (by rw [htr, acceptMany_accepts hn])

end Sys2Proof.Machine
end

section
/-! ## FLUSH (R155) -/

namespace Sys2Proof.Machine

open Sys2Proof.Safety

theorem encodedAs_flush : EncodedAs .flush [0x42#8] := encodedAs_encode (i := .flush) rfl

theorem length_flushCalls (cfg : Config) (m : Framebuffer) : (flushCalls cfg m).length = cfg.pages * (3 + cfg.width) := by
  simp [flushCalls, List.length_flatMap, length_pageCalls]

theorem pages_pos_of_wf {cfg : Config} (h : cfg.wf = true) : 0 < cfg.pages := by
  obtain ⟨-, -, hlow, -, hpages⟩ := sizes_of_wf h
  omega

/-- The first call of a FLUSH selects page 0. -/
theorem flushCalls_zero {cfg : Config} (h : cfg.wf = true) (m : Framebuffer) :
    (flushCalls cfg m)[0]? = some (.cmd (cfg.pageSelectByte 0)) := by
  simpa using (flushPositionNamesTheCall cfg m 0 0 (pages_pos_of_wf h) (by omega)).2

theorem exec_flush_of_ne {s : State} (h : s.dcs ≠ .on) : exec .flush s = .next s := congrArg _ (if_neg h)

/-- FLUSH begins: the first call is offered. -/
theorem flushFrom_zero {s : State} (hw : s.cfg.wf = true) : flushFrom 0 s = { s with cur := .flush 0 } := by
  have hpos : 0 < (flushCalls s.cfg s.fb).length := (List.getElem?_eq_some_iff.1 (flushCalls_zero hw s.fb)).1
  rw [flushFrom_eq, if_pos hpos]

theorem exec_flush_of_on {s : State} (hw : s.cfg.wf = true) (h : s.dcs = .on) : exec .flush s = .next { s with cur := .flush 0 } := by
  rw [← flushFrom_zero hw]
  exact congrArg _ (if_pos h)

theorem txOffered_flush_zero {s : State} (hw : s.cfg.wf = true) (hc : s.cur = .flush 0) :
    s.txOffered = some (.cmd (s.cfg.pageSelectByte 0)) := by
  simp [State.txOffered, hc, getElem?_flushSequence, flushCalls_zero hw, ControllerAction.call?]

theorem run_flush {s : State} (hw : s.cfg.wf = true) {tr : Transport}
    (htr : s.transport.acceptMany (flushCalls s.cfg s.fb).length = some tr) :
    core.run (flushCalls s.cfg s.fb).length { s with cur := .flush 0 } =
      .next { s with tx := s.tx ++ flushCalls s.cfg s.fb, cur := .idle, transport := tr } := by
  have hrun := (stepsThrough_flush hw).run_all (tr := tr) (by rwa [callsOf_flushSequence])
  rw [callsOf_flushSequence, dcsAfter_flushSequence] at hrun
  rwa [← flushFrom_zero hw]

theorem run_flush_fair {s : State} (hw : s.cfg.wf = true) (htr : s.transport = .fair) :
    core.run (flushCalls s.cfg s.fb).length { s with cur := .flush 0 } =
      .next { s with tx := s.tx ++ flushCalls s.cfg s.fb, cur := .idle } := by
  have hrun := run_flush hw (by rw [htr, acceptMany_fair])
  rwa [← htr] at hrun

/-- Settles O40: the steps of FLUSH go through its sequence, the calls of the pages. -/
theorem flushSendsEveryPage : Obligations.FlushSendsEveryPage := by
  refine ⟨encodedAs_flush, fun s => ⟨rfl, length_flushCalls s.cfg s.fb, fun hd hw => ?_, exec_flush_of_ne,
    fun t ht => (TouchesOnly.of_exec ht).flush_dcs rfl⟩⟩
  rw [← length_flushCalls s.cfg s.fb]
  exact ⟨_, exec_flush_of_on hw hd, rfl, txOffered_flush_zero (s := { s with cur := .flush 0 }) hw rfl, rfl, run_flush_fair hw,
    fun n htr hn => run_flush hw (by rw [htr, acceptMany_accepts hn])⟩

/-! ### The data bytes of a FLUSH (R157) -/

/-- Counting through `n` blocks of `w` is counting to `n × w`. -/
theorem flatMap_range_map_range {α : Type} (f : Nat → α) (n w : Nat) :
    ((List.range n).flatMap fun p => (List.range w).map fun q => f (p * w + q)) = (List.range (n * w)).map f := by
  induction n with
  | zero => simp
  | succ n ih =>
    rw [List.range_succ, List.flatMap_append, ih, List.flatMap_singleton, Nat.succ_mul, List.range_add, List.map_append, List.map_map]
    rfl

@[simp] theorem dataByte_cmd (b : Byte) : dataByte (.cmd b) = none := rfl

/-- The data bytes of a page are its W bytes of FB, column 0 first (R155). -/
theorem filterMap_dataByte_pageCalls (cfg : Config) (m : Framebuffer) (p : Nat) :
    (pageCalls cfg m p).filterMap dataByte = (List.range cfg.width).map fun q => m.read (p * cfg.width + q) := by
  have hdata : dataByte ∘ (fun q => .data (m.getByte cfg p q)) = some ∘ fun q => m.read (p * cfg.width + q) := rfl
  rw [pageCalls, List.filterMap_append, List.filterMap_map, hdata, List.filterMap_eq_map]
  simp

theorem filterMap_dataByte_flushCalls {cfg : Config} (h : cfg.wf = true) (m : Framebuffer) :
    (flushCalls cfg m).filterMap dataByte = (List.range cfg.size).map m.read := by
  rw [flushCalls, List.filterMap_flatMap, size_eq_pages_mul_width h, ← flatMap_range_map_range]
  simp only [filterMap_dataByte_pageCalls]

/-- Settles O42: page by page the data bytes are the next W bytes of FB. -/
theorem flushDataIsTheFramebuffer : Obligations.FlushDataIsTheFramebuffer := by
  intro s hw htr hc hd
  have hrun := run_flush_fair hw htr
  rw [← hc] at hrun
  exact ⟨_, flushCalls s.cfg s.fb, exec_flush_of_on hw hd, hrun, rfl, filterMap_dataByte_flushCalls hw s.fb⟩

end Sys2Proof.Machine
end

section
/-! ## GET_STATUS (R25, R158) -/

namespace Sys2Proof.Machine

open Sys2Proof.Safety

theorem encodedAs_getStatus : EncodedAs .getStatus [0x44#8] := encodedAs_encode (i := .getStatus) rfl

/-- STATUS as a number, its bit 7 spelled out. -/
theorem status_toNat_eq_ite (d : Dcs) : d.status.toNat = 128 * (if d = .on then 1 else 0) + d.code := by
  simp only [status_toNat, initialized_iff]

/-- Bit 7 of STATUS is INITIALIZED. -/
theorem status_bit_seven_iff (d : Dcs) : d.status.getLsbD 7 = true ↔ d = .on := by cases d <;> decide

/-- Bits 6 to 3 of STATUS are zero. -/
theorem status_middle_bits (d : Dcs) {k : Nat} (hlow : 3 ≤ k) (hhigh : k ≤ 6) : d.status.getLsbD k = false := by
  cases d <;> interval_cases k <;> rfl

/-- Settles O43: STATUS is the byte appended, and in a good state with an idle core DCS is at one of its two ends. -/
theorem getStatusAppendsTheStatus : Obligations.GetStatusAppendsTheStatus := by
  refine ⟨encodedAs_getStatus, fun s hw hi => ?_, fun s u hgood hi hu => ?_⟩
  · obtain ⟨u, hu, hc⟩ := getStatus_completes hw hi
    exact ⟨u, s.dcs.status, hu, command_of_exec rfl rfl hu, hc, status_toNat_eq_ite _, status_bit_seven_iff _,
      status_middle_bits _ (by decide) (by decide), status_middle_bits _ (by decide) (by decide),
      status_middle_bits _ (by decide) (by decide), status_middle_bits _ (by decide) (by decide)⟩
  · obtain ⟨u', hu', hc⟩ := getStatus_completes hgood.cfg_wf hi
    cases hu'.symm.trans hu
    refine (hgood.at_rest hi).imp (fun ⟨hd, _⟩ => ⟨hd, ?_⟩) fun ⟨hd, _⟩ => ⟨hd, ?_⟩
    · rwa [hd] at hc
    · rwa [hd] at hc

end Sys2Proof.Machine
end

section
/-! ## Drawing in every state of the controller (R159) -/

namespace Sys2Proof.Machine

open Sys2Proof.Safety

/-- What FB is after a whole command that is not INIT or FLUSH, as a function of the configuration and of FB before it. -/
def fbAfter (cfg : Config) (i : Instr) (m : Framebuffer) : Framebuffer :=
  match i with
  | .clear => m.clear
  | i => (pixelCalls cfg i).elim m fun call => m.plot cfg call.1 call.2

theorem fbAfter_clear (cfg : Config) (m : Framebuffer) : fbAfter cfg .clear m = m.clear := rfl

/-- A command that makes SetPixel calls plots their points. -/
theorem fbAfter_of_pixelCalls {cfg : Config} {i : Instr} {c : Bool} {ps : List Point} (h : pixelCalls cfg i = some (c, ps))
    (m : Framebuffer) : fbAfter cfg i m = m.plot cfg c ps := by
  cases i <;> cases h <;> rfl

/-- A command that responds leaves FB as it is. -/
theorem fbAfter_of_responds {i : Instr} (h : responds i = true) (cfg : Config) (m : Framebuffer) : fbAfter cfg i m = m := by
  cases i
  case getByte | getStatus => rfl
  all_goals cases h

/-- A command other than INIT and FLUSH clears FB, makes SetPixel calls, or responds. -/
theorem clear_or_pixelCalls_or_responds {i : Instr} (h : drivesTransport i = false) (cfg : Config) :
    i = .clear ∨ (∃ c ps, pixelCalls cfg i = some (c, ps)) ∨ responds i = true := by
  cases i
  case clear => exact .inl rfl
  case getByte | getStatus => exact .inr (.inr rfl)
  case init | flush => cases h
  all_goals exact .inr (.inl ⟨_, _, rfl⟩)

/-- A command that responds completes in its one pass. -/
theorem responding_completes {i : Instr} (h : responds i = true) {s : State} (hw : s.cfg.wf = true) (hi : s.cur = .idle) :
    ∃ u b, exec i s = .next u ∧ Completes u (s.respond b) := by
  cases i
  case getByte p q => exact (getByte_completes hw hi p q).imp fun _ hu => ⟨_, hu⟩
  case getStatus => exact (getStatus_completes hw hi).imp fun _ hu => ⟨_, hu⟩
  all_goals cases h

/-- Such a command completes from every idle state of an accepted configuration, and FB is then `fbAfter` of what it was. -/
theorem completes_fb {i : Instr} (hd : drivesTransport i = false) {s u : State} (hw : s.cfg.wf = true) (hi : s.cur = .idle)
    (hu : exec i s = .next u) : ∃ t, Completes u t ∧ t.fb = fbAfter s.cfg i s.fb := by
  rcases clear_or_pixelCalls_or_responds hd s.cfg with rfl | ⟨c, ps, hcalls⟩ | hr
  · obtain ⟨v, hv, hc⟩ := clear_completes hw hi
    cases hv.symm.trans hu
    exact ⟨_, hc, (fbAfter_clear s.cfg s.fb).symm⟩
  · obtain ⟨v, hv, hc⟩ := drawing_completes hcalls hw hi
    cases hv.symm.trans hu
    exact ⟨_, hc, (fbAfter_of_pixelCalls hcalls s.fb).symm⟩
  · obtain ⟨v, b, hv, hc⟩ := responding_completes hr hw hi
    cases hv.symm.trans hu
    exact ⟨_, hc, (fbAfter_of_responds hr s.cfg s.fb).symm⟩

/-- Settles O60: what the command leaves in FB is a function of the configuration and FB. -/
theorem drawingIgnoresTheController : Obligations.DrawingIgnoresTheController := by
  intro i s s' u u' hd hw hcfg hfb hi hi' hu hu'
  obtain ⟨t, ht, hresult⟩ := completes_fb hd hw hi hu
  obtain ⟨t', ht', hresult'⟩ := completes_fb hd (hcfg ▸ hw) hi' hu'
  exact ⟨t, t', ht, ht', by rw [hresult, hresult', hcfg, hfb]⟩

end Sys2Proof.Machine
end

/-! # Proofs: waiting on the transport (spec/46_transport.md R176)

The step that completes a call comes to the same state whatever the transport, but for the transport agent itself. So where an INIT or
FLUSH stands after a number of its calls does not depend on how long each of them was waited on. Any other command comes to an end from
every record it can hold, since its record is one that its own passes lead to. -/

section
/-! ## The calls a command in progress makes, by any transport -/

namespace Sys2Proof.Safety

open Sys2Proof.Machine

theorem GoodState.grantTransport {s : State} (h : GoodState s) (tr : Transport) : GoodState (s.grantTransport tr) :=
  h.with_ports s.rsp s.cmdIn tr

/-- A core that has calls left has an INIT or FLUSH in progress. -/
theorem exists_command_of_callsLeft {s : State} (h : callsLeft s ≠ []) : ∃ i, s.cur.command = some i ∧ drivesTransport i = true := by
  by_contra hnone
  exact h (offers_nothing hnone).2

theorem GoodState.callsLeft_ne_nil {s : State} (h : GoodState s) {i : Instr} (hi : s.cur.command = some i) (hd : drivesTransport i = true) :
    callsLeft s ≠ [] := by
  obtain ⟨l, busy, k, c, ho⟩ := h.offers hi hd
  rw [ho.callsLeft_eq]
  exact List.cons_ne_nil _ _

theorem cur_ne_idle_of_callsLeft {s : State} (h : callsLeft s ≠ []) : s.cur ≠ .idle := by
  obtain ⟨i, hi, -⟩ := exists_command_of_callsLeft h
  intro hidle
  rw [hidle] at hi
  cases hi

/-- Two transports that accept the call make the same of it but for the transport agent. -/
theorem stepController_grantTransport {s : State} {l : List ControllerAction} {k : Nat} {c : TxCall} {tr tr' : Transport}
    (hk : l[k]? = some (.send c)) (ha : tr.accept = some tr') (busy : Nat → Cur) :
    (s.grantTransport tr).stepController l busy k = ((s.grantTransport .fair).stepController l busy k).grantTransport tr' := by
  rw [stepController_accepted hk ha, stepController_accepted hk accept_fair]
  rfl

theorem GoodState.step_grantTransport {s t : State} (h : GoodState s) {i : Instr} (hi : s.cur.command = some i)
    (hd : drivesTransport i = true) (hstep : step (s.grantTransport .fair) = .next t) {tr tr' : Transport} (ha : tr.accept = some tr') :
    step (s.grantTransport tr) = .next (t.grantTransport tr') := by
  rcases step_command_cases (s := s.grantTransport .fair) hi hstep with ⟨k, -, hc, rfl⟩ | ⟨k, -, hc, rfl⟩ | ⟨w, rfl, -, -⟩
  · obtain ⟨c, hk, -⟩ := h.init_call hc
    rw [step_of_cur_init (s := s.grantTransport tr) h.cfg_wf hc]
    exact congrArg _ (stepController_grantTransport hk ha .init)
  · obtain ⟨c, -, hk, -⟩ := h.flush_call hc
    have hsend : (flushSequence s.cfg s.fb)[k]? = some (.send c) := by rw [getElem?_flushSequence, hk]; rfl
    rw [step_of_cur_flush (s := s.grantTransport tr) h.cfg_wf hc]
    exact congrArg _ (stepController_grantTransport hsend ha .flush)
  · rw [drivesTransport_command] at hd
    cases hd

/-- The core, in `s` with calls left, comes to `v` once `n` more of them are complete, by any transport that accepts that many. -/
structure CallsMade (s v : State) (n : Nat) : Prop where
  good : GoodState v
  tx : v.tx = s.tx ++ (callsLeft s).take n
  left : callsLeft v = (callsLeft s).drop n
  idle_or_left : v.cur = .idle ∨ callsLeft v ≠ []
  run : ∀ {tr tr'}, tr.acceptMany n = some tr' → core.run n (s.grantTransport tr) = .next (v.grantTransport tr')

theorem CallsMade.refl {s : State} (h : GoodState s) (hleft : callsLeft s ≠ []) : CallsMade s s 0 :=
  ⟨h, (List.append_nil _).symm, rfl, .inr hleft, fun htr => by cases htr; rfl⟩

/-- One step completes the next call left, by any transport that accepts it. -/
theorem GoodState.callsMade_one {s : State} (h : GoodState s) (hleft : callsLeft s ≠ []) : ∃ v, CallsMade s v 1 := by
  obtain ⟨i, hi, hd⟩ := exists_command_of_callsLeft hleft
  have hfair := h.grantTransport .fair
  obtain ⟨l, busy, k, c, ho⟩ := hfair.offers hi hd
  obtain ⟨t, hstep, htx, -, htail, -⟩ := ho.step_accepted accept_fair
  have hgood : GoodState t := stepKeepsGoodState _ _ hfair hstep
  have hcalls : callsLeft s = c :: callsOf (l.drop (k + 1)) := ho.callsLeft_eq
  refine ⟨t, hgood, ?_, ?_, ?_, fun htr => ?_⟩
  · rw [htx, hcalls]
    rfl
  · rw [htail, List.drop_one]
    rfl
  · rcases step_cur_cases (s := s.grantTransport .fair) hi hstep with hsame | hidle
    · exact .inr (hgood.callsLeft_ne_nil hsame hd)
    · exact .inl hidle
  · obtain ⟨tr₁, ha, htr⟩ := Option.bind_eq_some_iff.1 htr
    cases htr
    rw [run_one]
    exact h.step_grantTransport hi hd hstep ha

theorem CallsMade.succ {s u v : State} {n : Nat} (h : CallsMade s u 1) (h' : CallsMade u v n) : CallsMade s v (n + 1) where
  good := h'.good
  tx := by rw [h'.tx, h.tx, h.left, List.append_assoc, ← List.take_add, Nat.add_comm]
  left := by rw [h'.left, h.left, List.drop_drop, Nat.add_comm]
  idle_or_left := h'.idle_or_left
  run {tr tr'} htr := by
    obtain ⟨tr₁, ha, htr⟩ := Option.bind_eq_some_iff.1 htr
    have hone : Transport.acceptMany tr 1 = some tr₁ := by rw [Transport.acceptMany, ha]; rfl
    rw [Nat.add_comm, run_add (h.run hone), h'.run htr]

/-- From a good state with calls left the core can make any number of them. -/
theorem GoodState.exists_callsMade {s : State} (h : GoodState s) (hleft : callsLeft s ≠ []) {n : Nat} (hn : n ≤ (callsLeft s).length) :
    ∃ v, CallsMade s v n := by
  induction n generalizing s with
  | zero => exact ⟨s, .refl h hleft⟩
  | succ n ih =>
    obtain ⟨u, hu⟩ := h.callsMade_one hleft
    have hlen : n ≤ (callsLeft u).length := by rw [hu.left, List.length_drop]; omega
    rcases hu.idle_or_left with hidle | hmore
    · have hnil : callsLeft u = [] := by rw [callsLeft, hidle]
      obtain rfl : n = 0 := by simpa [hnil] using hlen
      exact ⟨u, hu⟩
    · exact (ih hu.good hmore hlen).imp fun _ hv => hu.succ hv

section
variable {s v : State} {n : Nat}

theorem CallsMade.run_fair (h : CallsMade s v n) : core.run n (s.grantTransport .fair) = .next (v.grantTransport .fair) :=
  h.run (acceptMany_fair n)

theorem CallsMade.left_ne_nil (h : CallsMade s v n) (hn : n < (callsLeft s).length) : callsLeft v ≠ [] := by
  rw [h.left]
  simpa using hn

/-- After all its calls the command is complete. -/
theorem CallsMade.cur_idle (h : CallsMade s v (callsLeft s).length) : v.cur = .idle :=
  h.idle_or_left.resolve_right fun hne => hne (by rw [h.left, List.drop_length])

/-- A core whose next call is not accepted waits, for however many steps. -/
theorem GoodState.run_waits (h : GoodState s) (hleft : callsLeft s ≠ []) (ha : s.transport.accept = none) (w : Nat) :
    core.run w s = .next s := by
  obtain ⟨i, hi, hd⟩ := exists_command_of_callsLeft hleft
  obtain ⟨l, busy, k, c, ho⟩ := h.offers hi hd
  exact run_of_step_self (ho.step_waits ha) w

end

/-- An INIT or FLUSH in progress completes with the last of the calls it has left. -/
theorem GoodState.controller_completes {s : State} (h : GoodState s) (hleft : callsLeft s ≠ []) :
    ∃ u, core.run (callsLeft s).length (s.grantTransport .fair) = .next u ∧ u.cur = .idle ∧ Completes (s.grantTransport .fair) u ∧
      u.tx = s.tx ++ callsLeft s := by
  obtain ⟨u, hu⟩ := h.exists_callsMade hleft le_rfl
  refine ⟨u.grantTransport .fair, hu.run_fair, hu.cur_idle, completes_of_run hu.run_fair hu.cur_idle fun m hm v hv => ?_,
    hu.tx.trans (by rw [List.take_length])⟩
  obtain ⟨v', hv'⟩ := h.exists_callsMade hleft hm.le
  cases hv'.run_fair.symm.trans hv
  exact cur_ne_idle_of_callsLeft (s := v') (hv'.left_ne_nil hm)

end Sys2Proof.Safety
end

section
/-! ## A command in progress that makes no call ends (R60, R102, R120, R136) -/

namespace Sys2Proof.Safety

open Sys2Proof.Machine

/-- The record of a CLEAR after `n` passes is at byte `n`, while there is one. -/
theorem recordAfter_clear {cfg : Config} (h : cfg.wf = true) (n : Nat) : recordAfter cfg .clear n = clearAt cfg n := by
  induction n with
  | zero => exact (if_pos (size_pos_of_wf h)).symm
  | succ n ih =>
    rw [recordAfter, ih]
    by_cases hn : n < cfg.size
    · rw [clearAt, if_pos hn, Option.bind_some, nextRecord_clear]
    · rw [clearAt, if_neg hn, clearAt, if_neg (by omega)]
      rfl

/-- From every record its command can come to, the passes left complete the command, and TX stays as it is. -/
theorem GoodState.work_completes {s : State} (h : GoodState s) {w : Work} (hc : s.cur = .working w) :
    ∃ u, Completes s u ∧ u.tx = s.tx := by
  obtain ⟨⟨n, hn⟩, -⟩ := h.work w hc
  rcases clear_or_pixelCalls_or_responds (drivesTransport_command w) s.cfg with hclear | ⟨c, ps, hcalls⟩ | hr
  · obtain ⟨i, rfl⟩ := eq_clear_of_command hclear
    rw [hclear, recordAfter_clear h.cfg_wf, clearAt, Option.ite_none_right_eq_some] at hn
    obtain ⟨hlt, hi⟩ := hn
    cases hi
    exact ⟨_, clear_completes_from (n := s.cfg.size - n - 1) h.cfg_wf (by omega) hc, rfl⟩
  · obtain ⟨qs, hplots⟩ := plots_recordAfter hcalls n
    rw [hn] at hplots
    have hdone := hplots.completes h.cfg_wf (s := { s with cur := .idle }) rfl rfl
    have hbegun : State.begin { s with cur := .idle } (some w) = s := by rw [State.begin, ← hc]
    rw [hbegun] at hdone
    exact ⟨_, hdone, rfl⟩
  · obtain ⟨b, hb⟩ := stepWork_of_responds hr s
    have hstep : step s = .next { s.respond b with cur := .idle } := (step_working h.cfg_wf hc).trans (congrArg _ hb)
    exact ⟨_, .step (cmdReady_working hc) hstep (.refl rfl), rfl⟩

/-- A core with no calls left completes what it is doing without a call. -/
theorem GoodState.completes_without_calls {s : State} (h : GoodState s) (hleft : callsLeft s = []) :
    ∃ u, Completes s u ∧ u.tx = s.tx := by
  cases hc : s.cur with
  | idle => exact ⟨s, .refl hc, rfl⟩
  | working w => exact h.work_completes hc
  | init k => exact absurd hleft (h.callsLeft_ne_nil (by rw [hc]; rfl) (i := .init) rfl)
  | flush k => exact absurd hleft (h.callsLeft_ne_nil (by rw [hc]; rfl) (i := .flush) rfl)

end Sys2Proof.Safety
end

section
/-! ## A wait leaves no trace -/

namespace Sys2Proof.Safety

open Sys2Proof.Machine

/-- After the calls it accepts the transport holds the core, and once it accepts again the run is the one without the wait. -/
theorem GoodState.wait_leaves_no_trace {s : State} (h : GoodState s) {n : Nat} (hn : n < (callsLeft s).length) (w : Nat) :
    ∃ t, core.run (n + w) (s.grantTransport (.accepts n)) = .next t ∧ t.cur ≠ .idle ∧
      t.tx = s.tx ++ (callsLeft s).take n ∧ callsLeft t = (callsLeft s).drop n ∧
      ∀ m, core.run m (t.grantTransport .fair) = core.run (n + m) (s.grantTransport .fair) := by
  obtain ⟨v, hv⟩ := h.exists_callsMade (List.ne_nil_of_length_pos (by omega)) hn.le
  have hmore := hv.left_ne_nil hn
  have hheld : core.run n (s.grantTransport (.accepts n)) = .next (v.grantTransport (.accepts 0)) :=
    hv.run (by rw [acceptMany_accepts le_rfl, Nat.sub_self])
  refine ⟨v.grantTransport (.accepts 0), ?_, cur_ne_idle_of_callsLeft (s := v) hmore, hv.tx, hv.left, fun m => ?_⟩
  · rw [run_add hheld]
    exact (hv.good.grantTransport (.accepts 0)).run_waits hmore accept_accepts_zero w
  · rw [run_add hv.run_fair]
    rfl

/-- Settles O47: how long a call was waited on is not in the state that follows it, and every command in progress ends. -/
theorem waitingLeavesNoTrace : Obligations.WaitingLeavesNoTrace := by
  intro s h
  refine ⟨fun n w hn => h.wait_leaves_no_trace hn w, fun hleft => ?_, ?_⟩
  · obtain ⟨u, hrun, hidle, -⟩ := h.controller_completes hleft
    exact ⟨u, hrun, hidle⟩
  · by_cases hleft : callsLeft s = []
    · obtain ⟨u, hu, htx⟩ := (h.grantTransport .fair).completes_without_calls hleft
      exact ⟨u, hu, by rw [htx, hleft, List.append_nil]; rfl⟩
    · obtain ⟨u, -, -, hu, htx⟩ := h.controller_completes hleft
      exact ⟨u, hu, htx⟩

end Sys2Proof.Safety
end

/-! # Proofs: no stops, the hang and the block reset (spec/60_exceptions.md, spec/70_reset_and_hazards.md)

The block has neither faults nor traps, so every step answers a state. The only way not to get on is a transport that stops accepting
(R186): the core then stands after the calls that were accepted, and its steps leave it there. -/

section
/-! ## Every step answers a state (R180, R184) -/

namespace Sys2Proof.Machine

open Sys2Proof.Safety

theorem fetchAndExecute_isNext (s : State) : ∃ t, fetchAndExecute s = .next t := by
  unfold fetchAndExecute
  split
  · exact exec_isNext ..
  · exact ⟨_, rfl⟩
  · exact ⟨_, rfl⟩

/-- The one refusal of a step is that of an ill-formed configuration. -/
theorem step_isNext {s : State} (hw : s.cfg.wf = true) : ∃ t, step s = .next t := by
  cases hc : s.cur with
  | idle =>
    rw [step_idle hw hc]
    exact fetchAndExecute_isNext s
  | init k => exact ⟨_, step_of_cur_init hw hc⟩
  | flush k => exact ⟨_, step_of_cur_flush hw hc⟩
  | working w => exact ⟨_, step_working hw hc⟩

/-- Settles O10: a step answers a state whose configuration is the same, so that the next step answers one too. -/
theorem acceptedConfigurationNeverStops : Obligations.AcceptedConfigurationNeverStops := by
  intro s n hw
  induction n generalizing s with
  | zero => exact ⟨s, rfl⟩
  | succ n ih =>
    obtain ⟨v, hv⟩ := step_isNext hw
    obtain ⟨hcfg, -⟩ := stepKeepsConfiguration s v hv
    obtain ⟨t, ht⟩ := ih v (by rw [hcfg, hw])
    exact ⟨t, run_succ_iff.2 ⟨v, hv, ht⟩⟩

end Sys2Proof.Machine
end

section
/-! ## A sequence of calls and a transport that stops accepting (R186) -/

namespace Sys2Proof.Machine

open Sys2Proof.Safety

section
variable {s : State} {l : List ControllerAction} {busy : Nat → Cur} {n : Nat}

/-- With a transport that accepts the first `n` calls, `n` steps of the command that begins complete them. -/
theorem StepsThrough.run_first (hstep : StepsThrough s l busy) (hn : n ≤ (callsOf l).length) {tr : Transport}
    (htr : s.transport.acceptMany n = some tr) : core.run n (s.offerFrom l busy 0) = .next (s.afterCalls l busy n tr) := by
  rw [offerFrom_zero, hstep.run (by rwa [Nat.zero_add]) htr, Nat.zero_add]

theorem StepsThrough.run_first_fair (hstep : StepsThrough s l busy) (hn : n ≤ (callsOf l).length) (htr : s.transport = .fair) :
    core.run n (s.offerFrom l busy 0) = .next (s.afterCalls l busy n s.transport) :=
  hstep.run_first hn (by rw [htr, acceptMany_fair])

/-- A core that still has a call to make waits while the transport is not ready. -/
theorem StepsThrough.step_waits (hstep : StepsThrough s l busy) (hn : n < (callsOf l).length) {tr : Transport} (ha : tr.accept = none) :
    step (s.afterCalls l busy n tr) = .next (s.afterCalls l busy n tr) := by
  obtain ⟨k, -, hcur, -, -, -, -, -, hwaits, -⟩ := afterCalls_of_lt s l busy n tr hn
  rw [hstep n tr k hcur, hwaits ha]

/-- With a transport that accepts `n` calls and then none, the core comes to where `n` calls lead, and stays there. -/
theorem StepsThrough.run_held (hstep : StepsThrough s l busy) (hn : n < (callsOf l).length) (htr : s.transport = .accepts n) (w : Nat) :
    core.run (n + w) (s.offerFrom l busy 0) = .next ((s.afterCalls l busy n s.transport).grantTransport (.accepts 0)) := by
  have haccepted : s.transport.acceptMany n = some (.accepts 0) := by rw [htr, acceptMany_accepts le_rfl, Nat.sub_self]
  rw [run_add (hstep.run_first hn.le haccepted)]
  exact run_of_step_self (hstep.step_waits hn accept_accepts_zero) w

end

/-! ### Where a sequence stands among calls with no assignment between them -/

theorem callAt_map_send_append_of_lt {cs : List TxCall} {n : Nat} (hn : n < cs.length) (k : Nat) (d : Dcs) (l : List ControllerAction) :
    callAt k d (cs.map .send ++ l) n = (d, some (k + n)) := by
  induction cs generalizing k n with
  | nil => cases hn
  | cons c cs ih =>
    cases n with
    | zero => rfl
    | succ n =>
      refine (ih (Nat.lt_of_succ_lt_succ hn) (k + 1)).trans ?_
      rw [Nat.add_assoc, Nat.add_comm 1]

theorem callAt_map_send_append {cs : List TxCall} {m : Nat} (hm : cs.length = m) (k : Nat) (d : Dcs) (l : List ControllerAction) (n : Nat) :
    callAt k d (cs.map .send ++ l) (m + n) = callAt (k + m) d l n := by
  subst hm
  induction cs generalizing k with
  | nil => rw [List.length_nil, Nat.zero_add]; rfl
  | cons c cs ih =>
    rw [List.length_cons, Nat.add_right_comm, ← Nat.add_assoc, Nat.add_right_comm k]
    exact ih (k + 1)

end Sys2Proof.Machine
end

section
/-! ## INIT held by the transport (R151, R186) -/

namespace Sys2Proof.Machine

open Sys2Proof.Safety

/-- INIT's sequence as runs of calls: the `reset()`, the configuration and display on, each with an assignment to DCS before it. -/
theorem initSequence_eq (cfg : Config) : initSequence cfg =
    .enter .transportReady :: .send .reset :: .enter .reset :: ((cfg.script.configurationBytes.map TxCall.cmd).map .send ++
      .enter .configurationScripted :: ((cfg.script.displayOnBytes.map TxCall.cmd).map .send ++ [.enter .on])) := by
  simp [initSequence, Function.comp_def]

/-- DCS after fewer calls than INIT makes: the value assigned before the run that the next call is of. -/
theorem dcs_callAt_initSequence {cfg : Config} {n : Nat} (hn : n < (initCalls cfg).length) (d : Dcs) :
    (callAt 0 d (initSequence cfg) n).1 = if n = 0 then .transportReady
      else if n ≤ cfg.script.configurationBytes.length then .reset else .configurationScripted := by
  rw [initSequence_eq]
  cases n with
  | zero => rfl
  | succ m =>
    rw [if_neg m.succ_ne_zero]
    simp only [callAt]
    split_ifs with hm
    · rw [callAt_map_send_append_of_lt (by rwa [List.length_map])]
    · obtain ⟨j, rfl⟩ := Nat.exists_eq_add_of_le (Nat.le_of_lt_succ (Nat.lt_of_not_le hm))
      have hj : j < (cfg.script.displayOnBytes.map TxCall.cmd).length := by
        simp only [initCalls, List.length_cons, List.length_map, List.length_append] at hn ⊢
        omega
      rw [callAt_map_send_append (List.length_map _), callAt, callAt_map_send_append_of_lt hj]

theorem txOffered_of_cur_init {s : State} {k : Nat} {c : TxCall} (hc : s.cur = .init k)
    (hk : (initSequence s.cfg)[k]? = some (.send c)) : s.txOffered = some c := by
  simp [State.txOffered, hc, hk, ControllerAction.call?]

/-- Settles O44: the state after `n` of INIT's calls is one its sequence stands in, and a transport that stops accepting holds it there. -/
theorem unreadyTransportHoldsInit : Obligations.UnreadyTransportHoldsInit := by
  intro s n hw hd hn
  have hcalls : n < (callsOf (initSequence s.cfg)).length := by rwa [callsOf_initSequence]
  have hsteps := stepsThrough_init hw
  obtain ⟨k, c, hcur, hk, hc, -⟩ := afterCalls_of_lt s (initSequence s.cfg) .init n s.transport hcalls
  refine ⟨k, _, s.afterCalls (initSequence s.cfg) .init n s.transport, exec_init_of_uninitialized hd, ?_, ?_, ?_,
    fun htr => ?_, fun htr w => ?_⟩
  · rw [← dcs_callAt_initSequence hn s.dcs, ← hcur, ← callsOf_initSequence]
    rfl
  · rw [txOffered_of_cur_init hcur hk, ← hc, callsOf_initSequence]
  · exact (cmdReady_eq_false_iff _).2 ⟨.init, congrArg Cur.command hcur⟩
  · exact hsteps.run_first_fair hcalls.le htr
  · exact hsteps.run_held hcalls htr w

end Sys2Proof.Machine
end

section
/-! ## FLUSH held by the transport (R155, R186) -/

namespace Sys2Proof.Machine

open Sys2Proof.Safety

/-- A FLUSH assigns nothing to DCS and stands, after `n` calls, at call `n`. -/
theorem callAt_flushSequence {cfg : Config} {m : Framebuffer} {n : Nat} (hn : n < (flushCalls cfg m).length) (d : Dcs) :
    callAt 0 d (flushSequence cfg m) n = (d, some n) := by
  have hat := callAt_map_send_append_of_lt hn 0 d []
  rwa [List.append_nil, Nat.zero_add] at hat

theorem afterCalls_flushSequence {s : State} {n : Nat} (hn : n < (flushCalls s.cfg s.fb).length) (tr : Transport) :
    s.afterCalls (flushSequence s.cfg s.fb) .flush n tr =
      { s with tx := s.tx ++ (flushCalls s.cfg s.fb).take n, cur := .flush n, transport := tr } := by
  rw [State.afterCalls, callAt_flushSequence hn, callsOf_flushSequence]
  rfl

theorem txOffered_of_cur_flush {s : State} {n : Nat} (hc : s.cur = .flush n) : s.txOffered = (flushCalls s.cfg s.fb)[n]? := by
  rw [State.txOffered, hc]
  simp only [getElem?_flushSequence]
  cases (flushCalls s.cfg s.fb)[n]? <;> rfl

/-- Settles O45: the state after `n` of FLUSH's calls is one its sequence stands in, and a transport that stops accepting holds it there. -/
theorem unreadyTransportHoldsFlush : Obligations.UnreadyTransportHoldsFlush := by
  intro s n hw hd hn
  have hcalls : n < (callsOf (flushSequence s.cfg s.fb)).length := by rwa [callsOf_flushSequence]
  have hsteps := stepsThrough_flush hw
  refine ⟨flushFrom 0 s, _, congrArg _ (if_pos hd), rfl, txOffered_of_cur_flush rfl, rfl, fun htr => ?_, fun htr w => ?_⟩
  · rw [← afterCalls_flushSequence hn s.transport]
    exact hsteps.run_first_fair hcalls.le htr
  · rw [← afterCalls_flushSequence hn s.transport]
    exact hsteps.run_held hcalls htr w

end Sys2Proof.Machine
end

section
/-! ## The hang (R186) -/

namespace Sys2Proof.Safety

open Sys2Proof.Machine

theorem hung_iff (s : State) : hung s = true ↔ (∃ c, s.txOffered = some c) ∧ s.transport.accept = none := by
  rw [hung, Bool.and_eq_true, Option.isSome_iff_exists, Option.isNone_iff_eq_none]

/-- A core that offers a call has an INIT or FLUSH in progress. -/
theorem exists_command_of_txOffered {s : State} {c : TxCall} (h : s.txOffered = some c) :
    ∃ i, s.cur.command = some i ∧ drivesTransport i = true := by
  by_contra hnone
  rw [(offers_nothing hnone).1] at h
  cases h

/-- Settles O46: the bytes at the port are not read while a command is in progress, and its call is waited on. -/
theorem hungCoreStaysAsItIs : Obligations.HungCoreStaysAsItIs := by
  intro s n bytes h hhung
  obtain ⟨⟨c, hc⟩, ha⟩ := (hung_iff s).1 hhung
  obtain ⟨i, hi, hd⟩ := exists_command_of_txOffered hc
  have hsent : GoodState (s.hostSend bytes) := h.with_ports s.rsp (s.cmdIn ++ bytes) s.transport
  exact ⟨(cmdReady_eq_false_iff s).2 ⟨i, hi⟩, hsent.run_waits (hsent.callsLeft_ne_nil hi hd) ha n⟩

end Sys2Proof.Safety
end

section
/-! ## The block reset (R200) -/

namespace Sys2Proof.Machine

/-- Settles O51: the block reset reads nothing but what stays, and the reset count. -/
theorem blockResetForgets : Obligations.BlockResetForgets := by
  refine ⟨fun _ => rfl, fun s s' hcfg hepoch hcmd htr => ?_⟩
  rw [State.blockReset, hcfg, hepoch, hcmd, htr]
  rfl

end Sys2Proof.Machine
end
